-- ==== Sys2Proof/Word.lean ====
section
/-! DEFINITION. The word types of the codec core: what 00_scope.md rule R7 gives a width to. -/

namespace Sys2Proof

/-- A sequence of bits or of half-cell levels in transmission order, `s[0]` sent first (R8). -/
abbrev BitSeq := List Bool

/-- One byte of `OUT`: 8 packed half-cells (R72). -/
abbrev Byte := BitVec 8

/-- A sample, `SAMPLE_W` = 24 bits, unsigned (R7). -/
abbrev Sample := BitVec 24

/-- The `DATA_BITS` = 28 bits of a subframe; bit `c` is data bit `d[c]` (slot `4 + c`, R93). -/
abbrev DataBits := BitVec 28

/-- A channel-status block, 192 bits; bit `b` is the bit at position `b` in transmission order (R34, R99). -/
abbrev CsBlock := BitVec 192

end Sys2Proof
end

