-- ==== Sys2Proof/Machine/Bits.lean ====
section
/-! DEFINITION. Bit sequences in transmission order and the words that hold them (00_scope.md rule R8): element `k`
of a sequence is the bit of weight `2^k`, so the first-transmitted bit is bit 0 (20_memory.md rules R75, R76). -/

namespace Sys2Proof.Machine

/-- A bit sequence written as the spec's tables write it, first-transmitted bit leftmost. -/
def bitsOf (l : List Nat) : BitSeq := l.map (· == 1)

/-- `Σ s[k] · 2^k` (R76, R77, R102). -/
def seqNat : BitSeq → Nat
  | [] => 0
  | b :: s => b.toNat + 2 * seqNat s

/-- The word whose bit `k` is `s[k]`. -/
def ofSeq (w : Nat) (s : BitSeq) : BitVec w := BitVec.ofNat w (seqNat s)

/-- The bits of a word, bit 0 first. -/
def toSeq {w : Nat} (x : BitVec w) : BitSeq := (List.range w).map fun k => x.getLsbD k

/-- `x` with bit `k` set to `b`. -/
def setBit {w : Nat} (x : BitVec w) (k : Nat) (b : Bool) : BitVec w :=
  if b then x ||| (1#w <<< k) else x &&& ~~~(1#w <<< k)

/-- `popcount(s)`, the number of 1 bits (R9). -/
def popcount (s : BitSeq) : Nat := s.count true

/-- A bit sequence as the characters `0` and `1` (R108). -/
def bitChars (s : BitSeq) : String := String.ofList (s.map fun b => if b then '1' else '0')

end Sys2Proof.Machine
end

