-- ==== Sys2Proof/Config.lean ====
section
/-! DEFINITION. What is fixed for a machine: the constants of 00_scope.md rule R7 that the source fixes, and the
type of the parameters it leaves OPEN. The open parameters' values stand in `State.params`, so that every statement
about all states holds for every value of them; `Config.suggested` is what `State.reset` holds. -/

namespace Sys2Proof

/-- `SLOTS` (R7): logical bits of a subframe, 4 of its preamble and one for each data cell (R93). -/
abbrev Config.slots : Nat := 32

/-- `SF_HALF` (R7): half-cells of a subframe. -/
abbrev Config.sfHalf : Nat := 64

/-- `BLOCK_FRAMES` (R7): frames per block; also the bits of a channel-status block. -/
abbrev Config.blockFrames : Nat := 192

/-- `CS_BYTES` (R7): channel-status bytes per block. -/
abbrev Config.csBytes : Nat := 24

/-- `DATA_BITS` (R7): data cells of a subframe. -/
abbrev Config.dataCells : Nat := 28

/-- `PRE_HALF` (R7): half-cells of a preamble. -/
abbrev Config.preHalf : Nat := 8

/-- `SF_BYTES` (R7): packed bytes of an encoded subframe. -/
abbrev Config.sfBytes : Nat := 8

/-- `DONE_FRAMES` (R7): length of the all-zero channel-status run that ends decoding. -/
abbrev Config.doneFrames : Nat := 192

/-- `RESYNC_BOUND` (R7, R270): the bound on discarded subframes after a stream switch. R7 leaves it OPEN and no rule of
the block reads it, so it has no body: a claim about it holds whatever the implementation's bound is (assumption
log 13). -/
opaque Config.resyncBound : Nat

/-- `PACK_ORDER` (R7, R77): which bit of a packed byte the first half-cell is. -/
inductive PackOrder where
  /-- The first half-cell is bit 0 (this spec's decision, D4). -/
  | lsbFirst
  /-- The first half-cell is bit 7. -/
  | msbFirst
  deriving DecidableEq, Repr

/-- The parameters R7 leaves OPEN that a rule of the block reads. Both codes hold the first-transmitted bit at
bit 0. -/
structure Params where
  /-- `PACK_ORDER` (R77). -/
  packOrder : PackOrder
  /-- `CS_CATCODE_DD` (R143): the code of "digital/digital converters". -/
  catcodeDD : BitVec 3
  /-- `CS_CATEGORY_OTHER` (R143): the code of category "other". -/
  categoryOther : BitVec 4
  deriving DecidableEq, Repr

/-- The values R7 decides or suggests: `lsb_first`, `010`, `0000` (D4, D6). PRESUMED: G2 and G4 of
93_implementation_defined.md say that they come from general knowledge (assumption log 1). -/
def Config.suggested : Params where
  packOrder := .lsbFirst
  catcodeDD := 0b010#3
  categoryOther := 0b0000#4

end Sys2Proof
end

