-- ==== Sys2Proof/Syntax.lean ====
section
/-! DEFINITION. The syntax: one constructor of `Instr` per row of spec/opcode_table.json, the typed operands of
30_encoding.md rule R90, and the raw command HOST puts on the command port, from which Decode.lean reads an `Instr`. -/

namespace Sys2Proof

/-- A preamble symbol (R12, R95). -/
inductive Sym where
  /-- Block-Start. -/
  | z
  /-- Channel-A. -/
  | x
  /-- Channel-B. -/
  | y
  deriving DecidableEq, Repr

/-- A constructed sample policy: the closed set of R121. -/
inductive Policy where
  | none
  | fixed (v : Int)
  | ramp (step : Int)
  deriving DecidableEq, Repr

/-- The value HOST gives a configuration field, before any rule has judged it. R149 makes a value of the wrong type
and a missing value errors of their field, so a record can hold them. -/
inductive FieldVal where
  /-- The record leaves the field out. -/
  | missing
  | bool (b : Bool)
  | int (n : Int)
  | str (s : String)
  | ints (l : List Int)
  /-- A value of none of these types. -/
  | other
  deriving DecidableEq, Repr

/-- A sample policy as HOST gives it: `{type, value}` (R120). -/
structure PolicySpec where
  name : FieldVal
  value : FieldVal := .missing
  deriving DecidableEq, Repr

/-- The fields of a channel-status configuration record, in the order of R140. -/
inductive CsField where
  | professional | digitalAudio | copyright | preEmphasis | mode | categoryCode | category | lBit | sourceNumber
  | channelNumber | sampleRate | clockAccuracy | bitDepth | originalSampleRate | extraBytes
  deriving DecidableEq, Repr

/-- A channel-status configuration record as HOST gives it (R140); a field left out takes R140's default, where it
has one, in `CsRecord.get`. -/
structure CsRecord where
  professional : FieldVal := .missing
  digitalAudio : FieldVal := .missing
  copyright : FieldVal := .missing
  preEmphasis : FieldVal := .missing
  mode : FieldVal := .missing
  categoryCode : FieldVal := .missing
  category : FieldVal := .missing
  lBit : FieldVal := .missing
  sourceNumber : FieldVal := .missing
  channelNumber : FieldVal := .missing
  sampleRate : FieldVal := .missing
  clockAccuracy : FieldVal := .missing
  bitDepth : FieldVal := .missing
  originalSampleRate : FieldVal := .missing
  extraBytes : FieldVal := .missing
  deriving DecidableEq, Repr

/-- The `cs` field of an encoder configuration: one record for every channel, or one per channel (R151, R202). -/
inductive CsArg where
  | one (r : CsRecord)
  | each (l : List CsRecord)
  deriving DecidableEq, Repr

/-- An encoder configuration record of the types R33 and R202 give, defaults filled in. That its lists have one
entry per channel is `EncConfig.wf`. -/
structure EncConfig where
  channels : List PolicySpec
  nblocks : Nat
  qs : Nat
  initLevel : Bool
  seed : List Sample
  v : List Bool
  u : List Bool
  cs : CsArg
  deriving DecidableEq, Repr

/-- An instruction: a command of R90, a pseudo-command of R107, or a pattern of the line (R94, R95) arriving at a
decoder instance. `n` is the decoder instance a command is routed to (R91). -/
inductive Instr where
  /-- `ENC_CONFIGURE c` (R202). -/
  | encConfigure (c : EncConfig)
  /-- `ENC_STEP` (R203). -/
  | encStep
  /-- `ENC_STATUS` (R206). -/
  | encStatus
  /-- `GEN_NEXT prev, policy` (R122). -/
  | genNext (prev : Option Sample) (policy : Policy)
  /-- `CS_BUILD cscfg` (R141). -/
  | csBuild (r : CsRecord)
  /-- `PRE_SELECT j, i` (R200). -/
  | preSelect (j i : Nat)
  /-- `SF_ASSEMBLE j, i` (R184). -/
  | sfAssemble (j i : Nat)
  /-- `PARITY d` (R183). -/
  | parity (d : BitVec 27)
  /-- `BMC_ENCODE sym, d, L` (R223). -/
  | bmcEncode (sym : Sym) (d : DataBits) (level : Bool)
  /-- `PACK h` (R225). -/
  | pack (h : BitVec 64)
  /-- `DEC_ADVANCE h` (R241). -/
  | decAdvance (n : Nat) (h : Bool)
  /-- `DEC_FEED_BYTE b` (R264). -/
  | decFeedByte (n : Nat) (b : Byte)
  /-- `DEC_RESET` (R262). -/
  | decReset (n : Nat)
  /-- `DEC_CONFIGURE halt` (R265). -/
  | decConfigure (n : Nat) (halt : Bool)
  /-- `DEC_STATUS` (R266). -/
  | decStatus (n : Nat)
  /-- Op `0000`, reserved (R104). -/
  | reserved
  /-- `ENC_RUN`, pseudo-command (R107, R205). -/
  | encRun
  /-- `DEC_FEED s`, pseudo-command (R107). -/
  | decFeed (n : Nat) (s : BitSeq)
  /-- `DEC_FEED_BYTES B0, B1, ...`, pseudo-command (R107). -/
  | decFeedBytes (n : Nat) (bs : List Byte)
  /-- The pattern of Z after level 0 arrives at instance `n` (R95). -/
  | preambleZL0 (n : Nat)
  /-- The pattern of Z after level 1 arrives at instance `n` (R95). -/
  | preambleZL1 (n : Nat)
  /-- The pattern of X after level 0 arrives at instance `n` (R95). -/
  | preambleXL0 (n : Nat)
  /-- The pattern of X after level 1 arrives at instance `n` (R95). -/
  | preambleXL1 (n : Nat)
  /-- The pattern of Y after level 0 arrives at instance `n` (R95). -/
  | preambleYL0 (n : Nat)
  /-- The pattern of Y after level 1 arrives at instance `n` (R95). -/
  | preambleYL1 (n : Nat)
  /-- The data cell of bit 0 after level 0 arrives at instance `n` (R94). -/
  | cellL0B0 (n : Nat)
  /-- The data cell of bit 1 after level 0 arrives at instance `n` (R94). -/
  | cellL0B1 (n : Nat)
  /-- The data cell of bit 0 after level 1 arrives at instance `n` (R94). -/
  | cellL1B0 (n : Nat)
  /-- The data cell of bit 1 after level 1 arrives at instance `n` (R94). -/
  | cellL1B1 (n : Nat)
  /-- `0x` after level 0: a cell with no boundary transition arrives at instance `n`; `x` is its second half-cell
  (R94, R252). -/
  | cellL0Illegal (n : Nat) (x : Bool)
  /-- `1x` after level 1: a cell with no boundary transition arrives at instance `n`; `x` is its second half-cell
  (R94, R252). -/
  | cellL1Illegal (n : Nat) (x : Bool)
  deriving DecidableEq, Repr

/-! ## The command port -/

/-- The `cs` field of a raw encoder configuration record. -/
inductive RawCs where
  | missing
  | one (r : CsRecord)
  | each (l : List CsRecord)
  | other
  deriving DecidableEq, Repr

/-- An encoder configuration record as it stands on the operand port, not yet checked for the shape R202 asks of
it (R333); `channels = none` when the field is missing or not a list of policies. -/
structure RawConfig where
  channels : Option (List PolicySpec) := none
  nblocks : FieldVal := .missing
  qs : FieldVal := .missing
  initLevel : FieldVal := .missing
  seed : FieldVal := .missing
  v : FieldVal := .missing
  u : FieldVal := .missing
  cs : RawCs := .missing
  deriving DecidableEq, Repr

/-- One operand as it stands on the operand port: a typed value beside the op, not packed into bits (R90). A value
of the wrong type or range can stand here; decoding refuses it (R92). -/
inductive Operand where
  /-- The `None` of an optional value. -/
  | none
  /-- An integer: a bit, a byte, a natural, a sample (R106). -/
  | int (n : Int)
  /-- A sequence in transmission order; a bit sequence has elements 0 and 1 only. -/
  | seq (l : List Int)
  /-- A name, such as a preamble symbol's letter. -/
  | name (s : String)
  /-- A constructed policy (R120). -/
  | policy (p : Policy)
  /-- A channel-status configuration record (R140). -/
  | csRecord (r : CsRecord)
  /-- An encoder configuration record (R202). -/
  | encRecord (r : RawConfig)
  deriving DecidableEq, Repr

/-- The pseudo-commands of R107, which have no op. -/
inductive Pseudo where
  | encRun | decFeed | decFeedBytes
  deriving DecidableEq, Repr

/-- What HOST puts on the block's interface. `inst` is the instance identifier of the routing (R91); a command of
`ENC` is not routed and its `inst` is not read. -/
inductive Command where
  /-- A command `(op, operands)` (R90). -/
  | op (code : BitVec 4) (inst : Nat) (args : List Operand)
  /-- A pseudo-command (R107). -/
  | pseudo (p : Pseudo) (inst : Nat) (args : List Operand)
  /-- A preamble pattern on the line of `DEC[inst]`, in transmission order (R95). -/
  | preamble (inst : Nat) (pattern : BitSeq)
  /-- A cell on the line of `DEC[inst]`: the level before it and its two half-cells (R94). -/
  | cell (inst : Nat) (before h1 h2 : Bool)
  deriving DecidableEq, Repr

/-- Why a command was refused: the cases of 70_reset_and_hazards.md rule R333 and R92. -/
inductive RefusedWhy where
  /-- Op `0000` (R104). -/
  | reservedOp
  /-- An operand of the wrong type, number or range (R92). -/
  | badOperands
  /-- An `ENC_CONFIGURE` record without the shape of R202. -/
  | badShape
  /-- A line pattern that no row of R94 or R95 lists. -/
  | noSuchPattern
  /-- No configuration is held: `UNCONFIGURED` or `CONFIG_ERROR` (R33, R203). -/
  | notConfigured
  /-- `SF_ASSEMBLE` with `j` or `i` out of range (R184). -/
  | outOfRange
  deriving DecidableEq, Repr

end Sys2Proof
end

