-- ==== Sys2Proof/Machine/LineCode.lean ====
section
/-! DEFINITION. The patterns of the line: preambles (30_encoding.md rule R95), data cells (R94), packed bytes (R98,
20_memory.md rule R77). -/

namespace Sys2Proof.Machine

/-- `PAT(sym, L)`, the preamble pattern of `sym` after a half-cell of level `L` (R95). -/
def pat : Sym → Bool → BitSeq
  | .z, false => bitsOf [1, 1, 1, 0, 1, 0, 0, 0]
  | .z, true => bitsOf [0, 0, 0, 1, 0, 1, 1, 1]
  | .x, false => bitsOf [1, 1, 1, 0, 0, 0, 1, 0]
  | .x, true => bitsOf [0, 0, 0, 1, 1, 1, 0, 1]
  | .y, false => bitsOf [1, 1, 1, 0, 0, 1, 0, 0]
  | .y, true => bitsOf [0, 0, 0, 1, 1, 0, 1, 1]

/-- The symbols a preamble can be (R95). -/
def allSyms : List Sym := [.z, .x, .y]

/-- The symbol whose pattern after level `L` the half-cells are (R260). -/
def symAfter (L : Bool) (h : BitSeq) : Option Sym := allSyms.find? fun s => h == pat s L

/-- The symbol whose pattern, in either level form, the half-cells are (R244). -/
def symOfWindow (h : BitSeq) : Option Sym := allSyms.find? fun s => h == pat s false || h == pat s true

/-- The two half-cells of data bit `b` after a half-cell of level `L`: `(¬L, ¬L ⊕ b)` (R94, R220). -/
def cellOf (L b : Bool) : Bool × Bool := (!L, (!L) ^^ b)

/-- One packed byte from 8 half-cells (R77). -/
def packByte (o : PackOrder) (h : BitSeq) : Byte :=
  match o with
  | .lsbFirst => ofSeq 8 h
  | .msbFirst => ofSeq 8 h.reverse

/-- The 8 half-cells of a byte (R227). -/
def unpackByte (o : PackOrder) (b : Byte) : BitSeq :=
  match o with
  | .lsbFirst => toSeq b
  | .msbFirst => (toSeq b).reverse

end Sys2Proof.Machine
end

