-- ==== Sys2Proof/WellFormed.lean ====
section
/-! DEFINITION. The checks on an instruction that its types do not carry: the shape of an encoder configuration
record (43_frame_sequencer.md rule R202, 70_reset_and_hazards.md rule R333). -/

namespace Sys2Proof

/-- `nch`, the number of channels of a configuration record (R202). -/
def EncConfig.nch (c : EncConfig) : Nat := c.channels.length

/-- The `cs` field gives one record, or one per channel (R333). -/
def CsArg.fits : CsArg → Nat → Bool
  | .one _, _ => true
  | .each l, nch => l.length == nch

/-- R333, row `ENC_CONFIGURE`: `channels` is not empty, and `seed`, `v`, `u` and a list of records have one entry
per channel. -/
def EncConfig.wf (c : EncConfig) : Bool :=
  0 < c.nch && c.seed.length == c.nch && c.v.length == c.nch && c.u.length == c.nch && c.cs.fits c.nch

/-- An instruction is well-formed when its operands have the shape R333 asks for. Every operand but the encoder
configuration record has it by its type. -/
def Instr.wf : Instr → Bool
  | .encConfigure c => c.wf
  | .encStep | .encStatus | .genNext _ _ | .csBuild _ | .preSelect _ _ | .sfAssemble _ _ | .parity _
  | .bmcEncode _ _ _ | .pack _ | .decAdvance _ _ | .decFeedByte _ _ | .decReset _ | .decConfigure _ _
  | .decStatus _ | .reserved | .encRun | .decFeed _ _ | .decFeedBytes _ _ | .preambleZL0 _ | .preambleZL1 _
  | .preambleXL0 _ | .preambleXL1 _ | .preambleYL0 _ | .preambleYL1 _ | .cellL0B0 _ | .cellL0B1 _ | .cellL1B0 _
  | .cellL1B1 _ | .cellL0Illegal _ _ | .cellL1Illegal _ _ => true

end Sys2Proof
end

