-- ==== Sys2Proof/Decode.lean ====
section
/-! DEFINITION. Decoding: from what HOST puts on the interface (`Command`) to an instruction, total, refusing by
name (30_encoding.md rules R90 to R95, R104, R107); then the encoder, and the numbering of spec/opcode_table.json. -/

namespace Sys2Proof

open Machine

/-! ## Operands (R92) -/

/-- An operand that must be a bit. -/
def bitOf (n : Int) : Option Bool :=
  if n = 0 then some false else if n = 1 then some true else none

/-- An operand that must be a natural. -/
def natOf (n : Int) : Option Nat := if 0 ≤ n then some n.toNat else none

/-- An operand that must be an integer in `0 .. 2^w - 1`. -/
def wordOf (w : Nat) (n : Int) : Option (BitVec w) :=
  if 0 ≤ n ∧ n.toNat < 2 ^ w then some (BitVec.ofNat w n.toNat) else none

/-- An operand that must be a sequence of bits. -/
def bitSeqOf (l : List Int) : Option BitSeq := l.mapM bitOf

/-- An operand that must be exactly `w` bits. -/
def bitsWordOf (w : Nat) (l : List Int) : Option (BitVec w) :=
  match bitSeqOf l with
  | some s => if s.length = w then some (ofSeq w s) else none
  | none => none

/-- An operand that must be a preamble symbol. -/
def symOf (s : String) : Option Sym :=
  if s = "Z" then some .z else if s = "X" then some .x else if s = "Y" then some .y else none

/-- An operand list that must be bytes. -/
def byteOfOperand : Operand → Option Byte
  | .int n => wordOf 8 n
  | .none | .seq _ | .name _ | .policy _ | .csRecord _ | .encRecord _ => none

/-! ## The encoder configuration record (R202, R333) -/

/-- A field of a record, or its default when left out. -/
def FieldVal.orDefault (f dflt : FieldVal) : FieldVal :=
  match f with
  | .missing => dflt
  | .bool _ | .int _ | .str _ | .ints _ | .other => f

/-- The integer a field holds. -/
def FieldVal.toInt? : FieldVal → Option Int
  | .int n => some n
  | .missing | .bool _ | .str _ | .ints _ | .other => none

/-- The list of integers a field holds. -/
def FieldVal.toInts? : FieldVal → Option (List Int)
  | .ints l => some l
  | .missing | .bool _ | .int _ | .str _ | .other => none

/-- The `cs` field must be one record or a list of records. -/
def csArgOf : RawCs → Option CsArg
  | .one r => some (.one r)
  | .each l => some (.each l)
  | .missing | .other => none

/-- The record of R202 from the record on the operand port: each field of its type, a field left out at its default
(`qs`, `init_level` 0; `seed`, `v`, `u` all 0). Whether the lists have one entry per channel is `EncConfig.wf`. -/
def configOf (r : RawConfig) : Option EncConfig := do
  let channels ← r.channels
  let zeros := List.replicate channels.length (0 : Int)
  let nblocks ← r.nblocks.toInt?.bind natOf
  let qs ← (r.qs.orDefault (.int 0)).toInt?.bind natOf
  let initLevel ← (r.initLevel.orDefault (.int 0)).toInt?.bind bitOf
  let seed ← (r.seed.orDefault (.ints zeros)).toInts?.bind fun l => l.mapM (wordOf 24)
  let v ← (r.v.orDefault (.ints zeros)).toInts?.bind bitSeqOf
  let u ← (r.u.orDefault (.ints zeros)).toInts?.bind bitSeqOf
  let cs ← csArgOf r.cs
  pure { channels, nblocks, qs, initLevel, seed, v, u, cs }

/-! ## Decoding -/

/-- What decoding answers: an instruction, or the reason the command is refused at the interface. -/
abbrev Decoded := Except RefusedWhy Instr

/-- The instruction, or the refusal of an operand that has not its type (R92). -/
def orBad (i : Option Instr) : Decoded :=
  match i with
  | some i => .ok i
  | none => .error .badOperands

/-- `ENC_CONFIGURE`: the record must have the shape of R202 (R333). -/
def decodeConfigure (r : RawConfig) : Decoded :=
  match configOf r with
  | some c => if c.wf then .ok (.encConfigure c) else .error .badShape
  | none => .error .badShape

/-- The `prev` operand of `GEN_NEXT`: `None` or a 24-bit value (R333). -/
def prevOf : Operand → Option (Option Sample)
  | .none => some none
  | .int n => (wordOf 24 n).map some
  | .seq _ | .name _ | .policy _ | .csRecord _ | .encRecord _ => none

/-- The command map of R90: `op` alone selects the operation; the operands have the types of its table. -/
def decodeOp (code : BitVec 4) (n : Nat) (args : List Operand) : Decoded :=
  match code.toNat, args with
  | 0, _ => .ok .reserved
  | 1, [.encRecord r] => decodeConfigure r
  | 1, [_] => .error .badShape
  | 2, [] => .ok .encStep
  | 3, [] => .ok .encStatus
  | 4, [prev, .policy p] => orBad ((prevOf prev).map fun x => .genNext x p)
  | 5, [.csRecord r] => .ok (.csBuild r)
  | 6, [.int j, .int i] => orBad do pure (.preSelect (← natOf j) (← natOf i))
  | 7, [.int j, .int i] => orBad do pure (.sfAssemble (← natOf j) (← natOf i))
  | 8, [.seq d] => orBad ((bitsWordOf 27 d).map .parity)
  | 9, [.name s, .seq d, .int l] => orBad do pure (.bmcEncode (← symOf s) (← bitsWordOf 28 d) (← bitOf l))
  | 10, [.seq h] => orBad ((bitsWordOf 64 h).map .pack)
  | 11, [.int h] => orBad ((bitOf h).map (.decAdvance n))
  | 12, [.int b] => orBad ((wordOf 8 b).map (.decFeedByte n))
  | 13, [] => .ok (.decReset n)
  | 14, [.int h] => orBad ((bitOf h).map (.decConfigure n))
  | 15, [] => .ok (.decStatus n)
  | _, _ => .error .badOperands

/-- The pseudo-commands of R107. A `DEC_FEED` or `DEC_FEED_BYTES` with an element outside its type is refused whole,
and none of its elements reaches the instance (DESIGN CHOICE, assumption log 20). -/
def decodePseudo (p : Pseudo) (n : Nat) (args : List Operand) : Decoded :=
  match p, args with
  | .encRun, [] => .ok .encRun
  | .decFeed, [.seq s] => orBad ((bitSeqOf s).map (.decFeed n))
  | .decFeedBytes, bs => orBad ((bs.mapM byteOfOperand).map (.decFeedBytes n))
  | .encRun, _ :: _ | .decFeed, _ => .error .badOperands

/-- The row of R95 for a symbol and the level before its preamble. -/
def preambleRow (n : Nat) : Sym → Bool → Instr
  | .z, false => .preambleZL0 n
  | .z, true => .preambleZL1 n
  | .x, false => .preambleXL0 n
  | .x, true => .preambleXL1 n
  | .y, false => .preambleYL0 n
  | .y, true => .preambleYL1 n

/-- The row of R95 a preamble pattern is: one of the six. Half-cells that are none of them, or not 8, are no row of the
opcode table, and the command is refused: DESIGN CHOICE (assumption log 21), since R333 has no row for them. On the line,
put there by `DEC_ADVANCE` or `DEC_FEED`, such a group has the effect R260 or R244 gives it. -/
def decodePreamble (n : Nat) (h : BitSeq) : Decoded :=
  match symAfter false h, symAfter true h with
  | some s, _ => .ok (preambleRow n s false)
  | none, some s => .ok (preambleRow n s true)
  | none, none => .error .noSuchPattern

/-- The row of R94 for a level and the two half-cells after it. -/
def decodeCell (n : Nat) (L h1 h2 : Bool) : Instr :=
  match L, h1, h2 with
  | false, true, true => .cellL0B0 n
  | false, true, false => .cellL0B1 n
  | true, false, false => .cellL1B0 n
  | true, false, true => .cellL1B1 n
  | false, false, x => .cellL0Illegal n x
  | true, true, x => .cellL1Illegal n x

/-- The instruction a command spells (R90, R94, R95, R107), or the name of the reason it spells none. -/
def decode : Command → Decoded
  | .op code n args => decodeOp code n args
  | .pseudo p n args => decodePseudo p n args
  | .preamble n h => decodePreamble n h
  | .cell n L h1 h2 => .ok (decodeCell n L h1 h2)

/-! ## Encoding -/

/-- A bit operand (R106). -/
def bitOperand (b : Bool) : Int := if b then 1 else 0

/-- The elements of a bit sequence operand. -/
def seqOperand (s : BitSeq) : List Int := s.map bitOperand

/-- A preamble symbol's letter (R108). -/
def Sym.letter : Sym → String
  | .z => "Z"
  | .x => "X"
  | .y => "Y"

/-- The record on the operand port for an encoder configuration, every field given. -/
def rawOfConfig (c : EncConfig) : RawConfig where
  channels := some c.channels
  nblocks := .int c.nblocks
  qs := .int c.qs
  initLevel := .int (bitOperand c.initLevel)
  seed := .ints (c.seed.map fun (x : Sample) => (x.toNat : Int))
  v := .ints (seqOperand c.v)
  u := .ints (seqOperand c.u)
  cs := match c.cs with
    | .one r => .one r
    | .each l => .each l

/-- What stands on the interface for an instruction: the op and operands of R90, the pseudo-command of R107, or the
line pattern of R94 and R95. -/
def encode : Instr → Command
  | .reserved => .op 0 0 []
  | .encConfigure c => .op 1 0 [.encRecord (rawOfConfig c)]
  | .encStep => .op 2 0 []
  | .encStatus => .op 3 0 []
  | .genNext prev p => .op 4 0 [match prev with | none => .none | some x => .int x.toNat, .policy p]
  | .csBuild r => .op 5 0 [.csRecord r]
  | .preSelect j i => .op 6 0 [.int j, .int i]
  | .sfAssemble j i => .op 7 0 [.int j, .int i]
  | .parity d => .op 8 0 [.seq (seqOperand (toSeq d))]
  | .bmcEncode s d l => .op 9 0 [.name s.letter, .seq (seqOperand (toSeq d)), .int (bitOperand l)]
  | .pack h => .op 10 0 [.seq (seqOperand (toSeq h))]
  | .decAdvance n h => .op 11 n [.int (bitOperand h)]
  | .decFeedByte n b => .op 12 n [.int b.toNat]
  | .decReset n => .op 13 n []
  | .decConfigure n halt => .op 14 n [.int (bitOperand halt)]
  | .decStatus n => .op 15 n []
  | .encRun => .pseudo .encRun 0 []
  | .decFeed n s => .pseudo .decFeed n [.seq (seqOperand s)]
  | .decFeedBytes n bs => .pseudo .decFeedBytes n (bs.map fun (b : Byte) => .int b.toNat)
  | .preambleZL0 n => .preamble n (bitsOf [1, 1, 1, 0, 1, 0, 0, 0])
  | .preambleZL1 n => .preamble n (bitsOf [0, 0, 0, 1, 0, 1, 1, 1])
  | .preambleXL0 n => .preamble n (bitsOf [1, 1, 1, 0, 0, 0, 1, 0])
  | .preambleXL1 n => .preamble n (bitsOf [0, 0, 0, 1, 1, 1, 0, 1])
  | .preambleYL0 n => .preamble n (bitsOf [1, 1, 1, 0, 0, 1, 0, 0])
  | .preambleYL1 n => .preamble n (bitsOf [0, 0, 0, 1, 1, 0, 1, 1])
  | .cellL0B0 n => .cell n false true true
  | .cellL0B1 n => .cell n false true false
  | .cellL1B0 n => .cell n true false false
  | .cellL1B1 n => .cell n true false true
  | .cellL0Illegal n x => .cell n false false x
  | .cellL1Illegal n x => .cell n true true x

/-- The op of the command map that selects an instruction (R90); pseudo-commands and line patterns have none. -/
def Instr.op : Instr → Option (BitVec 4)
  | .reserved => some 0b0000#4
  | .encConfigure _ => some 0b0001#4
  | .encStep => some 0b0010#4
  | .encStatus => some 0b0011#4
  | .genNext _ _ => some 0b0100#4
  | .csBuild _ => some 0b0101#4
  | .preSelect _ _ => some 0b0110#4
  | .sfAssemble _ _ => some 0b0111#4
  | .parity _ => some 0b1000#4
  | .bmcEncode _ _ _ => some 0b1001#4
  | .pack _ => some 0b1010#4
  | .decAdvance _ _ => some 0b1011#4
  | .decFeedByte _ _ => some 0b1100#4
  | .decReset _ => some 0b1101#4
  | .decConfigure _ _ => some 0b1110#4
  | .decStatus _ => some 0b1111#4
  | .encRun | .decFeed _ _ | .decFeedBytes _ _ | .preambleZL0 _ | .preambleZL1 _ | .preambleXL0 _
  | .preambleXL1 _ | .preambleYL0 _ | .preambleYL1 _ | .cellL0B0 _ | .cellL0B1 _ | .cellL1B0 _ | .cellL1B1 _
  | .cellL0Illegal _ _ | .cellL1Illegal _ _ => none

/-! ## The opcode table's numbering -/

/-- The operand port beside a table word: the table gives an operand no bits, so each operand is the zero of its
type, and a record is the smallest one of its shape (DESIGN CHOICE, assumption log 9). -/
def tableOperands : Nat → List Operand
  | 1 => [.encRecord { channels := some [{ name := .str "none", value := .int 0 }], nblocks := .int 0,
                       cs := .one { sampleRate := .int 44100, bitDepth := .int 16 } }]
  | 4 => [.none, .policy .none]
  | 5 => [.csRecord { sampleRate := .int 44100, bitDepth := .int 16 }]
  | 6 | 7 => [.int 0, .int 0]
  | 8 => [.seq (List.replicate 27 0)]
  | 9 => [.name "Z", .seq (List.replicate 28 0), .int 0]
  | 10 => [.seq (List.replicate 64 0)]
  | 11 | 12 | 14 => [.int 0]
  | _ => []

/-- What stands on the interface for a word of spec/opcode_table.json: a 4-bit op in bits 3..0 (R90); an 8-half-cell
pattern, first half-cell in bit 7 as the table's strings are read (R95); a 2-half-cell word is the legal data cell
of those half-cells (R94). -/
def commandOfWord (nbits w : Nat) : Command :=
  if nbits ≤ 2 then .cell 0 (!w.testBit 1) (w.testBit 1) (w.testBit 0)
  else if w < 16 then .op (BitVec.ofNat 4 w) 0 (tableOperands w)
  else .preamble 0 ((List.range nbits).reverse.map fun k => w.testBit k)

/-- The instruction the decoder reads from a word of spec/opcode_table.json. -/
def decodeTableWord (nbits w : Nat) : Option Instr :=
  match decode (commandOfWord nbits w) with
  | .ok i => some i
  | .error _ => none

end Sys2Proof
end

