-- ==== Sys2Proof/Machine/State.lean ====
section
/-! DEFINITION. The state: the encoder engine's registers (10_state.md rules R31 to R38), each decoder instance's
(R41 to R57), the storage spaces of 20_memory.md rule R70, the open parameters of 00_scope.md rule R7, and what
stands at the interface with HOST; and its value after reset (R60, 70_reset_and_hazards.md rules R330, R331). -/

namespace Sys2Proof.Machine

/-! ## Stops -/

/-- Reasons the machine stops with a fault: none. An error is not a trap and HOST is never stopped (60_exceptions.md
rule R306), so no meaning raises a fault. Safe: nothing stops where the block goes on. -/
inductive Fault where
  deriving DecidableEq, Repr

/-- Reasons an instruction has no meaning in this model. A command the SPEC refuses is not one of them: R333 gives
that refusal an effect (every register unchanged, no event, the run marked), so it is a next state,
`State.refuse`. -/
inductive Refusal where
  /-- Raised by an arm of `exec` whose instruction has no meaning yet; no arm raises it. Safe: the model stops where
  the block goes on. -/
  | notModelled (mnemonic : String)
  deriving DecidableEq, Repr

/-! ## Errors and events -/

/-- The five errors (R300). -/
inductive ErrorCode where
  | unsupportedPolicy | unsupportedChannelStatusOption | missingTransition | decodeMismatch | unrecognizedPreamble
  deriving DecidableEq, Repr

/-- A configuration error as `enc_err` and `CONFIG_ERROR` hold it: the code and the offending field's name (R32). -/
structure ConfigError where
  code : ErrorCode
  field : String
  deriving DecidableEq, Repr

/-- The fields of a decoded subframe, `(sample, V, U, C, P)` (R102). -/
structure Fields where
  sample : Sample
  v : Bool
  u : Bool
  c : Bool
  p : Bool
  deriving DecidableEq, Repr

/-- The events of R110. -/
inductive Event where
  | lock (sym : Sym)
  | subframe (desc : String) (f : Fields)
  | discard (f : Fields)
  | missingTransition (cell : Nat)
  | decodeMismatch (desc : Option String) (f : Fields)
  | unrecognizedPreamble (pattern : BitSeq)
  | done
  | subframeOut (bytes : List Byte)
  | configError (e : ConfigError)
  deriving DecidableEq, Repr

/-- Who an event is from: the encoder engine or a decoder instance (R3). -/
inductive Agent where
  | enc
  | dec (n : Nat)
  deriving DecidableEq, Repr

/-! ## The encoder engine -/

/-- `enc_status` (R31). -/
inductive EncStatus where
  | unconfigured | ready | finished | configError
  deriving DecidableEq, Repr

/-- The configuration registers of one channel (R33) and its channel-status store `CS[i]` (R34), which is present
exactly when they are. -/
structure Channel where
  /-- `cfg.policy[i]`. -/
  policy : Policy
  /-- `cfg.seed[i]`. -/
  seed : Sample
  /-- `cfg.v[i]`. -/
  v : Bool
  /-- `cfg.u[i]`. -/
  u : Bool
  /-- `cfg.cscfg[i]`. -/
  cscfg : CsRecord
  /-- `CS[i]`, bit `b` at position `b` (R34, R71). -/
  cs : CsBlock
  deriving DecidableEq, Repr

/-- The configuration registers `cfg.*` (R33); `cfg.nch` is the number of channels, `EncCfg.nch`. -/
structure EncCfg where
  channels : List Channel
  nblocks : Nat
  qs : Nat
  initLevel : Bool
  deriving DecidableEq, Repr

/-- Byte memory: (address, byte) pairs, addresses strictly rising. An unlisted address holds no byte. -/
abbrev Memory := List Host.Cell

/-- The state of `ENC` (R31 to R38) and its output space `OUT` (R70). -/
structure EncState where
  /-- `enc_status` (R31). -/
  status : EncStatus
  /-- `enc_err` (R32). -/
  err : Option ConfigError
  /-- `cfg.*` and `CS` (R33, R34); `none` while absent. -/
  cfg : Option EncCfg
  /-- `p`, the output position (R36). -/
  p : Nat
  /-- `level`, the line level (R38). -/
  level : Bool
  /-- `OUT`: address `a` is the byte at offset `a` of the stream (R70, R72). -/
  out : Memory
  deriving DecidableEq, Repr

/-! ## A decoder instance -/

/-- `mode` (R41). -/
inductive Mode where
  | searching | lockedPreamble | lockedData | done | fatal
  deriving DecidableEq, Repr

/-- `fatal_reason` when it is not `None` (R55). -/
inductive FatalReason where
  | unrecognizedPreamble | decodeMismatch
  deriving DecidableEq, Repr

/-- The state of a decoder instance (R41 to R57). -/
structure DecState where
  /-- `mode` (R41). -/
  mode : Mode
  /-- `win`, oldest half-cell first (R42). -/
  win : BitSeq
  /-- `prev` (R43). -/
  prev : Bool
  /-- `pl` (R44). -/
  pl : Bool
  /-- `pbuf` (R45). -/
  pbuf : BitSeq
  /-- `cell`, 0 to 28 (R46). -/
  cell : Nat
  /-- `half` (R46). -/
  half : Bool
  /-- `a` (R46). -/
  a : Bool
  /-- `data[0..27]`, bit `c` is `data[c]` (R47). -/
  data : DataBits
  /-- `chk[0..27]`, bit `c` is `chk[c]` (R47). -/
  chk : DataBits
  /-- `sym` (R48). -/
  sym : Sym
  /-- `ch` (R49). -/
  ch : Nat
  /-- `cont` (R50). -/
  cont : Bool
  /-- `started` (R51). -/
  started : Bool
  /-- `frame` (R52). -/
  frame : Nat
  /-- `cs_rx` (R53): the entry of `cs_rx[c][b]` stands at key `192 * c + b`; an unlisted entry is `None`. -/
  csRx : List (Nat × Bool)
  /-- `zero0` (R54). -/
  zero0 : Nat
  /-- `fatal_reason` (R55). -/
  fatalReason : Option FatalReason
  /-- `n_missing` (R56). -/
  nMissing : Nat
  /-- `n_mismatch` (R56). -/
  nMismatch : Nat
  /-- `n_discard` (R56). -/
  nDiscard : Nat
  /-- `halt_on_mismatch` (R57). -/
  haltOnMismatch : Bool
  deriving DecidableEq, Repr

/-- The reset state of an instance (R60, R331). `prev`, `pl`, `a` and `sym` have no reset value in the spec, which
lets a model give them any (R332): here 0, 0, 0 and Z (DESIGN CHOICE, assumption log 2). -/
def DecState.reset : DecState where
  mode := .searching
  win := []
  prev := false
  pl := false
  pbuf := []
  cell := 0
  half := false
  a := false
  data := 0
  chk := 0
  sym := .z
  ch := 0
  cont := false
  started := false
  frame := 0
  csRx := []
  zero0 := 0
  fatalReason := none
  nMissing := 0
  nMismatch := 0
  nDiscard := 0
  haltOnMismatch := false

/-! ## What commands return -/

/-- One block of `cs_rx` as `DEC_STATUS` returns it (R266): its 192 entries and, for each byte whose 8 entries are
all bits, its integer value (R76). -/
structure CsRxBlock where
  channel : Nat
  entries : List (Option Bool)
  bytes : List (Option Nat)
  deriving DecidableEq, Repr

/-- What `DEC_STATUS` returns (R266). -/
structure DecReport where
  mode : Mode
  fatalReason : Option FatalReason
  ch : Nat
  frame : Nat
  started : Bool
  nMissing : Nat
  nMismatch : Nat
  nDiscard : Nat
  haltOnMismatch : Bool
  csRx : List CsRxBlock
  deriving DecidableEq, Repr

/-- The value a command returns beside its events (R11). -/
inductive Value where
  /-- The command returns events only. -/
  | nothing
  /-- `GEN_NEXT` (R122). -/
  | sample (x : Option Sample)
  /-- `CS_BUILD`, on success (R141). -/
  | csBlock (cs : CsBlock)
  /-- `CS_BUILD`, on error (R141, R302). -/
  | configError (e : ConfigError)
  /-- `PRE_SELECT` (R200). -/
  | symbol (s : Sym)
  /-- `SF_ASSEMBLE` (R184). -/
  | subframe (s : Sym) (d : DataBits)
  /-- `PARITY` (R183). -/
  | bit (b : Bool)
  /-- `BMC_ENCODE` (R223): half-cell `h[t]` at bit `t`, and the level after. -/
  | halfCells (h : BitVec 64) (level : Bool)
  /-- `PACK` (R225). -/
  | bytes (l : List Byte)
  /-- `ENC_STATUS` (R206). -/
  | encReport (status : EncStatus) (err : Option ConfigError) (p N : Nat)
  /-- `DEC_STATUS` (R266). -/
  | decReport (r : DecReport)
  /-- The command was refused (R333). -/
  | refused (why : RefusedWhy)
  deriving DecidableEq, Repr

/-- What the last command returned: its value and its list of events (R11, R110). -/
structure Response where
  value : Value
  events : List Event
  deriving DecidableEq, Repr

/-! ## The state -/

/-- The state of the block. -/
structure State where
  /-- The open parameters (R7); no command writes them (R78). -/
  params : Params
  /-- `ENC`. -/
  enc : EncState
  /-- `DEC[n]`, instance numbers strictly rising; an unlisted instance is in its reset state (R316). -/
  decs : List (Nat × DecState)
  /-- `EVT` (R70): every event emitted, oldest first, with its agent. -/
  evt : List (Agent × Event)
  /-- What the last command returned to HOST (R11). -/
  resp : Response
  /-- The mark of R333: a command of this run was refused. -/
  refused : Bool
  /-- The commands HOST has issued and the block has not yet performed, oldest first (R84). The half-cells of `IN`
  (R70, R73) stand in them as operands. -/
  cmds : List Command
  deriving DecidableEq, Repr

/-- `ENC` before any command (R330). `level` has no reset value in the spec: here 0 (DESIGN CHOICE, assumption
log 2). -/
def EncState.reset : EncState where
  status := .unconfigured
  err := none
  cfg := none
  p := 0
  level := false
  out := []

/-- The block right after reset (R60, R330, R331): no configuration, every instance in its reset state, the storage
spaces empty, no command issued. -/
def State.reset : State where
  params := Config.suggested
  enc := EncState.reset
  decs := []
  evt := []
  resp := { value := .nothing, events := [] }
  refused := false
  cmds := []

end Sys2Proof.Machine
end

