-- ==== Sys2Proof/Machine/Ops.lean ====
section
/-! DEFINITION. The named operations over the storage spaces and the registers, and how an error is taken
(60_exceptions.md section 2). -/

namespace Sys2Proof.Machine

/-! ## Keyed stores

A store is a list of (key, value) pairs with keys strictly rising, so equal stores are equal lists. -/

/-- The canonical form: keys strictly rising. -/
def risingKeys {α : Type} : List (Nat × α) → Bool
  | [] => true
  | [_] => true
  | (k, _) :: (k', v') :: t => k < k' && risingKeys ((k', v') :: t)

/-- The value at a key, if it is listed. -/
def storeGet {α : Type} : List (Nat × α) → Nat → Option α
  | [], _ => none
  | (k, v) :: t, key => if k = key then some v else storeGet t key

/-- The store with a value at a key. -/
def storePut {α : Type} : List (Nat × α) → Nat → α → List (Nat × α)
  | [], key, x => [(key, x)]
  | (k, v) :: t, key, x =>
    if key < k then (key, x) :: (k, v) :: t
    else if key = k then (key, x) :: t
    else (k, v) :: storePut t key x

/-- The store with a key unlisted. -/
def storeDrop {α : Type} (m : List (Nat × α)) (key : Nat) : List (Nat × α) :=
  m.filter fun e => e.1 ≠ key

/-! ## Byte memory: `OUT` (R70, R72) -/

/-- The canonical form of byte memory: addresses strictly rising. An unlisted address holds no byte, so no entry can
equal what an unlisted address reads as. -/
def Memory.wf (m : Memory) : Bool := risingKeys m

/-- The byte at an address; none past the end of the stream. -/
def Memory.readByte (m : Memory) (a : Nat) : Option Byte := storeGet m a

/-- One byte written. -/
def Memory.writeByte (m : Memory) (a : Nat) (b : Byte) : Memory := storePut m a b

/-- `MemWrite(OUT, a, n, bytes)` (R9): consecutive bytes from address `a`. -/
def Memory.writeBytes : Memory → Nat → List Byte → Memory
  | m, _, [] => m
  | m, a, b :: bs => Memory.writeBytes (m.writeByte a b) (a + 1) bs

/-! ## Channel-status stores: `CSSTORE` and `CSRX` (R70) -/

/-- `MemRead(CSSTORE[i], b, 1)` of a channel's block (R71). -/
def csStoreRead (cs : CsBlock) (b : Nat) : Bool := cs.getLsbD b

/-- The key of `cs_rx[c][b]`. -/
def csRxKey (c b : Nat) : Nat := Config.blockFrames * c + b

/-- The entry `cs_rx[c][b]` (R53). -/
def csRxRead (m : List (Nat × Bool)) (c b : Nat) : Option Bool := storeGet m (csRxKey c b)

/-- `MemWrite(CSRX[c], b, 1, x)` (R256). -/
def csRxWrite (m : List (Nat × Bool)) (c b : Nat) (x : Bool) : List (Nat × Bool) := storePut m (csRxKey c b) x

/-! ## Decoder instances -/

/-- The state of `DEC[n]`: its reset state until HOST first addresses it (R316). -/
def State.dec (s : State) (n : Nat) : DecState := (storeGet s.decs n).getD DecState.reset

/-- `DEC[n]` written; an instance in its reset state is not listed. -/
def State.setDec (s : State) (n : Nat) (d : DecState) : State :=
  { s with decs := if d = DecState.reset then storeDrop s.decs n else storePut s.decs n d }

/-! ## What HOST sees of a command -/

/-- A command returns a value and its events to HOST, and the events are appended to `EVT` (R110). -/
def State.respond (s : State) (a : Agent) (v : Value) (es : List Event) : State :=
  { s with resp := { value := v, events := es }, evt := s.evt ++ es.map fun e => (a, e) }

/-- A refused command (R333): every register unchanged, no event, the run marked. -/
def State.refuse (s : State) (why : RefusedWhy) : State :=
  { s with resp := { value := .refused why, events := [] }, refused := true }

/-! ## Errors: how they are taken (R306) -/

/-- The numeric code of an error (R300). -/
def ErrorCode.num : ErrorCode → Nat
  | .unsupportedPolicy => 1
  | .unsupportedChannelStatusOption => 2
  | .missingTransition => 3
  | .decodeMismatch => 4
  | .unrecognizedPreamble => 5

/-- A configuration error recorded in `enc_err` (R32, R300). -/
def EncState.recordError (e : EncState) (err : ConfigError) : EncState := { e with err := some err }

/-- A configuration error rejects the whole configuration (R202, R301, R307): `cfg` and `CS` absent, `p = 0`, `OUT`
empty, `CONFIG_ERROR`, `enc_err` set. `level` is kept. -/
def EncState.reject (e : EncState) (err : ConfigError) : EncState :=
  { e.recordError err with status := .configError, cfg := none, p := 0, out := [] }

/-- Taking a configuration error (R306): the state change of R202 and the event `CONFIG_ERROR`. -/
def State.takeConfigError (s : State) (err : ConfigError) : State :=
  { s with enc := s.enc.reject err }.respond .enc .nothing [.configError err]

/-- Taking `MissingTransition` at half-cell `h` (R252, R303): counted and reported with the cell index, the partial
subframe dropped, back to `SEARCHING` with `h` the first half-cell of the window. -/
def DecState.takeMissingTransition (d : DecState) (h : Bool) : DecState × List Event :=
  ({ d with nMissing := d.nMissing + 1, mode := .searching, win := [h], cont := false, started := false, zero0 := 0 },
   [.missingTransition d.cell])

/-- The instance enters `FATAL` (R55). -/
def DecState.toFatal (d : DecState) (r : FatalReason) : DecState :=
  { d with mode := .fatal, fatalReason := some r }

/-- Taking `DecodeMismatch` (R257, R304): counted and reported; whether it halts is the caller's. -/
def DecState.takeDecodeMismatch (d : DecState) (desc : Option String) (f : Fields) : DecState × List Event :=
  ({ d with nMismatch := d.nMismatch + 1 }, [.decodeMismatch desc f])

/-- Taking `UnrecognizedPreamble` (R260, R305): `FATAL`, reported with the 8 half-cells received. -/
def DecState.takeUnrecognizedPreamble (d : DecState) : DecState × List Event :=
  (d.toFatal .unrecognizedPreamble, [.unrecognizedPreamble d.pbuf])

/-- Leaving an error state, and every other: the reset state, `halt_on_mismatch` kept (R262, R308). There is no
return-from-trap command. -/
def DecState.restart (d : DecState) : DecState :=
  { DecState.reset with haltOnMismatch := d.haltOnMismatch }

end Sys2Proof.Machine
end

