-- ==== Sys2Proof/Machine/Flags.lean ====
section
/-! DEFINITION. The values the block derives for its status registers and check bits: parity (42_subframe_assembler.md
rule R183), the size and rotation of the stream (10_state.md rule R37), `enc_status` after a configuration or a step
(43_frame_sequencer.md rules R202, R203), the all-zero run `zero0` (45_biphase_decoder.md rule R258), and the core's
pass/fail signal (R268). There are no condition codes (10_state.md rule R30). -/

namespace Sys2Proof.Machine

/-- Exclusive or of all bits, `d[0] ⊕ d[1] ⊕ ...` (R183). -/
def xorAll : BitSeq → Bool
  | [] => false
  | b :: s => b ^^ xorAll s

/-- `cfg.nch` (R33). -/
def EncCfg.nch (c : EncCfg) : Nat := c.channels.length

/-- `N = 192 · cfg.nblocks · cfg.nch` (R37). -/
def EncCfg.total (c : EncCfg) : Nat := Config.blockFrames * c.nblocks * c.nch

/-- `k = cfg.qs mod N`, 0 when `N = 0` (R37). -/
def EncCfg.rotation (c : EncCfg) : Nat := if c.total = 0 then 0 else c.qs % c.total

/-- `N` as `ENC_STATUS` reports it: 0 while no configuration is held (R37). -/
def EncState.total (e : EncState) : Nat :=
  match e.cfg with
  | some c => c.total
  | none => 0

/-- `enc_status` after a successful configuration (R202). -/
def statusAfterConfigure (c : EncCfg) : EncStatus := if c.total = 0 then .finished else .ready

/-- `enc_status` after a step that leaves the output position at `p` (R203). -/
def statusAfterStep (c : EncCfg) (p : Nat) (old : EncStatus) : EncStatus := if p = c.total then .finished else old

/-- `zero0` after a completed subframe on channel `ch` with status bit `c` (R258). -/
def zeroRun (zero0 ch : Nat) (c : Bool) : Nat :=
  if ch = 0 then (if c then 0 else zero0 + 1) else zero0

/-- The core's pass/fail signal for an instance at the end of a run: `PASS` unless it ended in `FATAL` (R268). -/
def DecState.passes (d : DecState) : Bool := d.mode != .fatal

end Sys2Proof.Machine
end

