-- ==== Sys2Proof/Machine/Decoder.lean ====
section
/-! DEFINITION. Biphase-Mark Decoder / Receiver State Machine (45_biphase_decoder.md): `DEC_ADVANCE`,
`DEC_FEED_BYTE`, `DEC_RESET`, `DEC_CONFIGURE`, `DEC_STATUS`, and the pseudo-commands that repeat them
(30_encoding.md rule R107). Each function of an instance answers its next state and the events of the command. -/

namespace Sys2Proof.Machine

/-! ## Descriptors and fields -/

/-- The fields of the data bits (R102): sample bit `c` is data bit `c`. -/
def fieldsOf (data : DataBits) : Fields where
  sample := data.extractLsb' 0 24
  v := data.getLsbD 24
  u := data.getLsbD 25
  c := data.getLsbD 26
  p := data.getLsbD 27

/-- The descriptor string of a subframe (R108). -/
def descriptor (frame : Nat) (sym : Sym) (data chk : DataBits) : String :=
  toString frame ++ " [" ++ sym.letter ++ "] - " ++ bitChars ((toSeq data).take 24) ++ " " ++ bitChars (toSeq chk)

/-! ## Entering a subframe -/

/-- The channel index of a subframe with preamble `s` (R248). -/
def channelIndex (d : DecState) (s : Sym) : Nat :=
  match s with
  | .z | .x => 0
  | .y => if d.cont then d.ch + 1 else 1

/-- The frame index and the start of reporting (R249). -/
def frameStep (s : Sym) (d : DecState) : DecState :=
  match s with
  | .z => if d.started then { d with frame := d.frame + 1 } else { d with started := true, frame := 0 }
  | .x => if d.started then { d with frame := d.frame + 1 } else d
  | .y => d

/-- Entering the data part of a subframe after its preamble (R247). -/
def enterData (s : Sym) (d : DecState) : DecState :=
  let d := frameStep s { d with sym := s, ch := channelIndex d s }
  { d with mode := .lockedData, cell := 0, half := false, data := 0, chk := 0 }

/-! ## SEARCHING -/

/-- Acquisition on the preamble of `s`, whose last half-cell is `h` (R246). -/
def acquire (s : Sym) (h : Bool) (d : DecState) : DecState × List Event :=
  let d := enterData s { d with cont := false, started := false }
  ({ d with prev := h }, [.lock s])

/-- The last 8 elements of a sequence (R244). -/
def lastEight (w : BitSeq) : BitSeq := w.drop (w.length - Config.preHalf)

/-- One half-cell in `SEARCHING` (R244): a window shorter than 8 half-cells matches no pattern. -/
def search (d : DecState) (h : Bool) : DecState × List Event :=
  let win := lastEight (d.win ++ [h])
  let d := { d with win := win }
  match symOfWindow win with
  | some s => acquire s h d
  | none => (d, [])

/-! ## LOCKED_DATA -/

/-- Emission, the end-of-stream check and the next preamble (R258). A subframe reported as `DECODE_MISMATCH` is not
reported again; `desc` is the descriptor when `started = 1`. -/
def finishSubframe (reported : Bool) (f : Fields) (desc : Option String) (d : DecState) : DecState × List Event :=
  let (d, report) :=
    if reported then (d, [])
    else
      match desc with
      | some t => (d, [Event.subframe t f])
      | none => ({ d with nDiscard := d.nDiscard + 1 }, [Event.discard f])
  let d := { d with zero0 := zeroRun d.zero0 d.ch f.c, cont := true }
  if Config.doneFrames ≤ d.zero0 then ({ d with mode := .done }, report ++ [.done])
  else ({ d with mode := .lockedPreamble, pbuf := [], pl := d.prev }, report)

/-- The parity check at the end of a subframe (R257). -/
def parityCheck (f : Fields) (desc : Option String) (d : DecState) : DecState × List Event :=
  if xorAll (toSeq d.data) then
    let (d, report) := d.takeDecodeMismatch desc f
    if d.haltOnMismatch then (d.toFatal .decodeMismatch, report)
    else
      let (d, es) := finishSubframe true f desc d
      (d, report ++ es)
  else finishSubframe false f desc d

/-- The end of a subframe (R256): the C bit is stored while `started = 1`, then the parity check. -/
def endSubframe (d : DecState) : DecState × List Event :=
  let f := fieldsOf d.data
  if d.started then
    parityCheck f (some (descriptor d.frame d.sym d.data d.chk))
      { d with csRx := csRxWrite d.csRx d.ch (d.frame % Config.blockFrames) f.c }
  else parityCheck f none d

/-- The first half-cell of a data cell (R250, R252). -/
def firstHalf (d : DecState) (h : Bool) : DecState × List Event :=
  if h = d.prev then d.takeMissingTransition h
  else ({ d with a := h, chk := setBit d.chk d.cell true, prev := h, half := true }, [])

/-- The second half-cell of a data cell (R254). -/
def secondHalf (d : DecState) (h : Bool) : DecState × List Event :=
  let d := { d with data := setBit d.data d.cell (h != d.a), prev := h, half := false, cell := d.cell + 1 }
  if d.cell = Config.dataCells then endSubframe d else (d, [])

/-! ## LOCKED_PREAMBLE -/

/-- One half-cell at preamble position (R260). -/
def preambleHalfCell (d : DecState) (h : Bool) : DecState × List Event :=
  let d := { d with pbuf := d.pbuf ++ [h] }
  if d.pbuf.length = Config.preHalf then
    match symAfter d.pl d.pbuf with
    | some s => ({ enterData s d with prev := h }, [])
    | none => d.takeUnrecognizedPreamble
  else (d, [])

/-! ## DEC_ADVANCE and its repetitions -/

/-- `DEC_ADVANCE(h)` by `mode` (R241); `DONE` and `FATAL` absorb (R242). -/
def DecState.advance (d : DecState) (h : Bool) : DecState × List Event :=
  match d.mode with
  | .done | .fatal => (d, [])
  | .searching => search d h
  | .lockedData => if d.half then secondHalf d h else firstHalf d h
  | .lockedPreamble => preambleHalfCell d h

/-- `DEC_ADVANCE` on each half-cell in order, the events concatenated (R107, R264). -/
def DecState.feed : DecState → BitSeq → DecState × List Event
  | d, [] => (d, [])
  | d, h :: hs =>
    let (d', es) := d.advance h
    let (d'', es') := DecState.feed d' hs
    (d'', es ++ es')

/-- Half-cells arrive at instance `n`. -/
def State.feedDec (s : State) (n : Nat) (hs : BitSeq) : State :=
  let (d, es) := (s.dec n).feed hs
  (s.setDec n d).respond (.dec n) .nothing es

/-! ## DEC_STATUS -/

/-- Each value of a list whose equal values stand together, once. -/
def dedupRuns : List Nat → List Nat
  | [] => []
  | [k] => [k]
  | k :: k' :: t => if k = k' then dedupRuns (k' :: t) else k :: dedupRuns (k' :: t)

/-- The channel indices for which an entry of `cs_rx` is recorded. -/
def csRxChannels (m : List (Nat × Bool)) : List Nat := dedupRuns (m.map fun e => e.1 / Config.blockFrames)

/-- The integer value of 8 entries that are all bits (R76, R266). -/
def byteValue (entries : List (Option Bool)) : Option Nat := (entries.mapM id).map seqNat

/-- One recovered block (R266). -/
def csRxBlock (m : List (Nat × Bool)) (c : Nat) : CsRxBlock :=
  let entries := (List.range Config.blockFrames).map fun b => csRxRead m c b
  { channel := c
    entries := entries
    bytes := (List.range Config.csBytes).map fun n => byteValue ((entries.drop (8 * n)).take 8) }

/-- What `DEC_STATUS` returns (R60, R266); of `cs_rx`, each block with a recorded entry (assumption log 8). -/
def DecState.report (d : DecState) : DecReport where
  mode := d.mode
  fatalReason := d.fatalReason
  ch := d.ch
  frame := d.frame
  started := d.started
  nMissing := d.nMissing
  nMismatch := d.nMismatch
  nDiscard := d.nDiscard
  haltOnMismatch := d.haltOnMismatch
  csRx := (csRxChannels d.csRx).map (csRxBlock d.csRx)

/-! ## The commands -/

/-- `DEC_ADVANCE h` (R241). -/
def execDecAdvance (n : Nat) (h : Bool) (s : State) : Host.Outcome State Fault Refusal :=
  let (d, es) := (s.dec n).advance h
  .next ((s.setDec n d).respond (.dec n) .nothing es)

/-- `DEC_FEED_BYTE b` (R264): the 8 half-cells of `unpack(b)` (R227). -/
def execDecFeedByte (n : Nat) (b : Byte) (s : State) : Host.Outcome State Fault Refusal :=
  .next (s.feedDec n (unpackByte s.params.packOrder b))

/-- `DEC_RESET` (R262). -/
def execDecReset (n : Nat) (s : State) : Host.Outcome State Fault Refusal :=
  .next ((s.setDec n (s.dec n).restart).respond (.dec n) .nothing [])

/-- `DEC_CONFIGURE halt` (R265). -/
def execDecConfigure (n : Nat) (halt : Bool) (s : State) : Host.Outcome State Fault Refusal :=
  .next ((s.setDec n { s.dec n with haltOnMismatch := halt }).respond (.dec n) .nothing [])

/-- `DEC_STATUS` (R266): no state change. -/
def execDecStatus (n : Nat) (s : State) : Host.Outcome State Fault Refusal :=
  .next (s.respond (.dec n) (.decReport (s.dec n).report) [])

/-- `DEC_FEED s` (R107). -/
def execDecFeed (n : Nat) (hs : BitSeq) (s : State) : Host.Outcome State Fault Refusal := .next (s.feedDec n hs)

/-- `DEC_FEED_BYTES B0, B1, ...` (R107). -/
def execDecFeedBytes (n : Nat) (bs : List Byte) (s : State) : Host.Outcome State Fault Refusal :=
  .next (s.feedDec n (bs.flatMap (unpackByte s.params.packOrder)))

end Sys2Proof.Machine
end

