-- ==== Sys2Proof/Machine/Line.lean ====
section
/-! DEFINITION. The line patterns of spec/opcode_table.json (30_encoding.md rules R94, R95): what an instance does when
the pattern arrives on its line, one half-cell at a time (45_biphase_decoder.md rules R240, R241). The line carries
half-cells only, so what the pattern means to the instance is decided by the instance's own state: a pattern of the
table is legal after the level its row names, and after the other level the instance reports what R252 or R260 says
(assumption log 5). -/

namespace Sys2Proof.Machine

/-- The preamble of Z after level 0 arrives (R95). -/
def execPreambleZL0 (n : Nat) (s : State) : Host.Outcome State Fault Refusal := .next (s.feedDec n (bitsOf [1, 1, 1, 0, 1, 0, 0, 0]))

/-- The preamble of Z after level 1 arrives (R95). -/
def execPreambleZL1 (n : Nat) (s : State) : Host.Outcome State Fault Refusal := .next (s.feedDec n (bitsOf [0, 0, 0, 1, 0, 1, 1, 1]))

/-- The preamble of X after level 0 arrives (R95). -/
def execPreambleXL0 (n : Nat) (s : State) : Host.Outcome State Fault Refusal := .next (s.feedDec n (bitsOf [1, 1, 1, 0, 0, 0, 1, 0]))

/-- The preamble of X after level 1 arrives (R95). -/
def execPreambleXL1 (n : Nat) (s : State) : Host.Outcome State Fault Refusal := .next (s.feedDec n (bitsOf [0, 0, 0, 1, 1, 1, 0, 1]))

/-- The preamble of Y after level 0 arrives (R95). -/
def execPreambleYL0 (n : Nat) (s : State) : Host.Outcome State Fault Refusal := .next (s.feedDec n (bitsOf [1, 1, 1, 0, 0, 1, 0, 0]))

/-- The preamble of Y after level 1 arrives (R95). -/
def execPreambleYL1 (n : Nat) (s : State) : Host.Outcome State Fault Refusal := .next (s.feedDec n (bitsOf [0, 0, 0, 1, 1, 0, 1, 1]))

/-- The data cell `11`, bit 0 after level 0, arrives (R94). -/
def execCellL0B0 (n : Nat) (s : State) : Host.Outcome State Fault Refusal := .next (s.feedDec n (bitsOf [1, 1]))

/-- The data cell `10`, bit 1 after level 0, arrives (R94). -/
def execCellL0B1 (n : Nat) (s : State) : Host.Outcome State Fault Refusal := .next (s.feedDec n (bitsOf [1, 0]))

/-- The data cell `00`, bit 0 after level 1, arrives (R94). -/
def execCellL1B0 (n : Nat) (s : State) : Host.Outcome State Fault Refusal := .next (s.feedDec n (bitsOf [0, 0]))

/-- The data cell `01`, bit 1 after level 1, arrives (R94). -/
def execCellL1B1 (n : Nat) (s : State) : Host.Outcome State Fault Refusal := .next (s.feedDec n (bitsOf [0, 1]))

/-- The half-cells `0x` after level 0 arrive: no boundary transition (R94, R252). -/
def execCellL0Illegal (n : Nat) (x : Bool) (s : State) : Host.Outcome State Fault Refusal :=
  .next (s.feedDec n [false, x])

/-- The half-cells `1x` after level 1 arrive: no boundary transition (R94, R252). -/
def execCellL1Illegal (n : Nat) (x : Bool) (s : State) : Host.Outcome State Fault Refusal :=
  .next (s.feedDec n [true, x])

end Sys2Proof.Machine
end

