-- ==== Sys2Proof/Machine/Biphase.lean ====
section
/-! DEFINITION. Biphase-Mark Encoder (44_biphase_encoder.md): `BMC_ENCODE`, `PACK`. -/

namespace Sys2Proof.Machine

/-- The data cells of `d` sent after a half-cell of level `L`, and the level after them (R220, R223). -/
def encodeCells (L : Bool) : BitSeq → BitSeq × Bool
  | [] => ([], L)
  | b :: d =>
    let (h1, h2) := cellOf L b
    let (h, last) := encodeCells h2 d
    (h1 :: h2 :: h, last)

/-- `BMC_ENCODE(sym, d, L)` (R223): the preamble pattern, then the data cells from its last level, which is `L` for
all three symbols (R222). -/
def bmcEncode (sym : Sym) (d : BitSeq) (L : Bool) : BitSeq × Bool :=
  let h := pat sym L
  let (cells, last) := encodeCells (h.getLastD L) d
  (h ++ cells, last)

/-- `PACK(h)` (R225): byte `n` holds half-cells `8n .. 8n+7`. -/
def packHalfCells (o : PackOrder) (h : BitSeq) : List Byte :=
  (List.range Config.sfBytes).map fun n => packByte o ((h.drop (8 * n)).take 8)

/-- `BMC_ENCODE sym, d, L` (R223). -/
def execBmcEncode (sym : Sym) (d : DataBits) (level : Bool) (s : State) : Host.Outcome State Fault Refusal :=
  let (h, last) := bmcEncode sym (toSeq d) level
  .next (s.respond .enc (.halfCells (ofSeq 64 h) last) [])

/-- `PACK h` (R225), in the order `PACK_ORDER` gives (R77). -/
def execPack (h : BitVec 64) (s : State) : Host.Outcome State Fault Refusal :=
  .next (s.respond .enc (.bytes (packHalfCells s.params.packOrder (toSeq h))) [])

end Sys2Proof.Machine
end

