-- ==== Sys2Proof/Machine/Operands.lean ====
section
/-! DEFINITION. What operands stand for: policies (40_sample_generator.md rule R120), the fields of a channel-status
record (41_channel_status.md rules R140 to R150), the records of an encoder configuration (43_frame_sequencer.md
rule R202). -/

namespace Sys2Proof

open Machine

/-! ## Sample policies -/

/-- `construct(name, value)` (R120); `none` where it raises `UnsupportedPolicy`. -/
def constructPolicy (p : PolicySpec) : Option Policy :=
  match p.name with
  | .str s =>
    if s = "none" then some .none
    else if s = "fixed" then p.value.toInt?.map .fixed
    else if s = "ramp" then p.value.toInt?.map .ramp
    else none
  | .missing | .bool _ | .int _ | .ints _ | .other => none

/-! ## The channel-status configuration record -/

/-- The fields in the order of R140. -/
def csFieldOrder : List CsField :=
  [.professional, .digitalAudio, .copyright, .preEmphasis, .mode, .categoryCode, .category, .lBit, .sourceNumber,
   .channelNumber, .sampleRate, .clockAccuracy, .bitDepth, .originalSampleRate, .extraBytes]

/-- A field's name, as errors record it (R32, R302). -/
def CsField.spelling : CsField → String
  | .professional => "professional"
  | .digitalAudio => "digital_audio"
  | .copyright => "copyright"
  | .preEmphasis => "pre_emphasis"
  | .mode => "mode"
  | .categoryCode => "category_code"
  | .category => "category"
  | .lBit => "l_bit"
  | .sourceNumber => "source_number"
  | .channelNumber => "channel_number"
  | .sampleRate => "sample_rate"
  | .clockAccuracy => "clock_accuracy"
  | .bitDepth => "bit_depth"
  | .originalSampleRate => "original_sample_rate"
  | .extraBytes => "extra_bytes"

/-- A field's value, R140's default where HOST left it out. `sample_rate` and `bit_depth` have no default. -/
def CsRecord.get (r : CsRecord) : CsField → FieldVal
  | .professional => r.professional.orDefault (.bool false)
  | .digitalAudio => r.digitalAudio.orDefault (.bool true)
  | .copyright => r.copyright.orDefault (.bool true)
  | .preEmphasis => r.preEmphasis.orDefault (.str "000")
  | .mode => r.mode.orDefault (.str "00")
  | .categoryCode => r.categoryCode.orDefault (.str "digital/digital converters")
  | .category => r.category.orDefault (.str "other")
  | .lBit => r.lBit.orDefault (.int 0)
  | .sourceNumber => r.sourceNumber.orDefault (.int 0)
  | .channelNumber => r.channelNumber.orDefault (.int 0)
  | .sampleRate => r.sampleRate
  | .clockAccuracy => r.clockAccuracy.orDefault (.str "level II")
  | .bitDepth => r.bitDepth
  | .originalSampleRate => r.originalSampleRate.orDefault (.str "unknown")
  | .extraBytes => r.extraBytes.orDefault (.ints [])

/-- A string of exactly `n` characters `0` and `1`, as bits. -/
def bitString (n : Nat) (s : String) : Option BitSeq :=
  if s.toList.length = n then
    s.toList.mapM fun c => if c = '0' then some false else if c = '1' then some true else none
  else none

/-- `SR_CODE` (R145): the supported sample rates and their codes, first-transmitted bit leftmost. -/
def srCodes : List (Int × List Nat) :=
  [(44100, [0, 0, 0, 0]), (48000, [0, 1, 0, 0]), (88200, [0, 0, 0, 1]), (96000, [0, 1, 0, 1]),
   (176400, [0, 0, 1, 1]), (192000, [0, 1, 1, 1]), (24000, [0, 1, 1, 0]), (22050, [0, 0, 1, 0])]

/-- The code of a sample rate, none when it is unsupported (R145). -/
def srCode (rate : Int) : Option BitSeq := (srCodes.find? fun e => e.1 == rate).map fun e => bitsOf e.2

/-- `DEPTH_CODE` (R146), with depth 20 at `101` and depths 1 to 15 at `000` (D9, D10). -/
def depthCode (depth : Int) : BitSeq :=
  if depth = 24 ∨ depth = 20 then bitsOf [1, 0, 1]
  else if depth = 23 ∨ depth = 19 then bitsOf [0, 0, 1]
  else if depth = 22 ∨ depth = 18 then bitsOf [0, 1, 0]
  else if depth = 21 ∨ depth = 17 then bitsOf [0, 1, 1]
  else if depth = 16 then bitsOf [1, 0, 0]
  else bitsOf [0, 0, 0]

/-- A field holds a Boolean. -/
def FieldVal.isBool : FieldVal → Bool
  | .bool _ => true
  | .missing | .int _ | .str _ | .ints _ | .other => false

/-- A field holds an integer in a range. -/
def FieldVal.inRange (lo hi : Int) : FieldVal → Bool
  | .int n => lo ≤ n && n ≤ hi
  | .missing | .bool _ | .str _ | .ints _ | .other => false

/-- A field holds a string of `n` bits. -/
def FieldVal.isBits (n : Nat) : FieldVal → Bool
  | .str s => (bitString n s).isSome
  | .missing | .bool _ | .int _ | .ints _ | .other => false

/-- A field holds a supported sample rate. -/
def FieldVal.isRate : FieldVal → Bool
  | .int n => (srCode n).isSome
  | .missing | .bool _ | .str _ | .ints _ | .other => false

/-- A field holds at most 19 bytes. -/
def FieldVal.isExtra : FieldVal → Bool
  | .ints l => l.length ≤ 19 && l.all fun x => 0 ≤ x && x ≤ 255
  | .missing | .bool _ | .int _ | .str _ | .other => false

/-- The legal values of each field (R140). -/
def CsField.legal (f : CsField) (v : FieldVal) : Bool :=
  match f with
  | .professional | .digitalAudio | .copyright => v.isBool
  | .preEmphasis => v.isBits 3
  | .mode => v.isBits 2
  | .categoryCode => v == .str "digital/digital converters"
  | .category => v == .str "other"
  | .lBit => v.inRange 0 1
  | .sourceNumber | .channelNumber => v.inRange 0 15
  | .sampleRate => v.isRate
  | .clockAccuracy => v == .str "level II"
  | .bitDepth => v.inRange 1 24
  | .originalSampleRate => v == .str "unknown"
  | .extraBytes => v.isExtra

/-- The first field of a record, in the order of R140, that is outside its legal values (R141, R149). -/
def CsRecord.firstIllegal (r : CsRecord) : Option CsField := csFieldOrder.find? fun f => !f.legal (r.get f)

/-- The Boolean of a legal flag field. -/
def FieldVal.flag : FieldVal → Bool
  | .bool b => b
  | .missing | .int _ | .str _ | .ints _ | .other => false

/-- The integer of a legal integer field. -/
def FieldVal.num (v : FieldVal) : Int := v.toInt?.getD 0

/-- The bits of a legal bit-string field. -/
def FieldVal.bits (n : Nat) : FieldVal → BitSeq
  | .str s => (bitString n s).getD []
  | .missing | .bool _ | .int _ | .ints _ | .other => []

/-! ## The encoder configuration record -/

/-- The channel-status record of every channel: one record given for all is each channel's (R151). -/
def EncConfig.csRecords (c : EncConfig) : List CsRecord :=
  match c.cs with
  | .one r => List.replicate c.nch r
  | .each l => l

end Sys2Proof
end

