-- ==== Sys2Proof/Machine/ChannelStatus.lean ====
section
/-! DEFINITION. Channel-Status Encoder (41_channel_status.md): `CS_BUILD`. -/

namespace Sys2Proof.Machine

/-- `rev4(x)`: the 4 digits of `x`, least significant first (R147). -/
def rev4 (x : Int) : BitSeq := toSeq (BitVec.ofInt 4 x)

/-- Byte 0 (R142). -/
def csByte0 (r : CsRecord) : BitSeq :=
  [(r.get .professional).flag, !(r.get .digitalAudio).flag, !(r.get .copyright).flag]
    ++ (r.get .preEmphasis).bits 3 ++ (r.get .mode).bits 2

/-- Byte 1 (R143). -/
def csByte1 (P : Params) (r : CsRecord) : BitSeq :=
  toSeq P.catcodeDD ++ toSeq P.categoryOther ++ [(r.get .lBit).num == 1]

/-- Byte 2 (R144). -/
def csByte2 (r : CsRecord) : BitSeq := rev4 (r.get .sourceNumber).num ++ rev4 (r.get .channelNumber).num

/-- Byte 3 (R145): the rate's code, clock accuracy `00`, reserved `00`. -/
def csByte3 (r : CsRecord) : BitSeq :=
  (srCode (r.get .sampleRate).num).getD [] ++ bitsOf [0, 0] ++ bitsOf [0, 0]

/-- Byte 4 (R146): the depth flag, the depth code, original sample rate `0000`. -/
def csByte4 (r : CsRecord) : BitSeq :=
  let depth := (r.get .bitDepth).num
  [decide (20 < depth)] ++ depthCode depth ++ bitsOf [0, 0, 0, 0]

/-- Bytes 5 to 23 (R148): the extra bytes, then zero. -/
def csByteExtra (r : CsRecord) (n : Nat) : BitSeq :=
  toSeq (BitVec.ofInt 8 (((r.get .extraBytes).toInts?.getD []).getD (n - 5) 0))

/-- The 192 bits of a legal record, in transmission order (R141). -/
def csBits (P : Params) (r : CsRecord) : BitSeq :=
  csByte0 r ++ csByte1 P r ++ csByte2 r ++ csByte3 r ++ csByte4 r
    ++ (List.range 19).flatMap fun n => csByteExtra r (5 + n)

/-- `CS_BUILD` (R141): the block, or the first illegal field (R149). -/
def buildCs (P : Params) (r : CsRecord) : Except CsField CsBlock :=
  match r.firstIllegal with
  | some f => .error f
  | none => .ok (ofSeq 192 (csBits P r))

/-- `UnsupportedChannelStatusOption(field)` (R302). -/
def csError (f : CsField) : ConfigError := { code := .unsupportedChannelStatusOption, field := f.spelling }

/-- `CS_BUILD cscfg` (R141): the block or the error is the command's result. An error is taken as R9 and R300 say:
recorded in `enc_err`, its event appended; no other register is written. R141's "writes no state" is read as said of
building the block (DEDUCED, assumption log 6). -/
def execCsBuild (r : CsRecord) (s : State) : Host.Outcome State Fault Refusal :=
  match buildCs s.params r with
  | .ok cs => .next (s.respond .enc (.csBlock cs) [])
  | .error f =>
    .next ({ s with enc := s.enc.recordError (csError f) }.respond .enc (.configError (csError f))
      [.configError (csError f)])

end Sys2Proof.Machine
end

