-- ==== Sys2Proof/Machine/Generator.lean ====
section
/-! DEFINITION. Audio Sample Generator (40_sample_generator.md): `GEN_NEXT` and the sample sequence of a channel. -/

namespace Sys2Proof.Machine

/-- `next(previous, policy)` (R122, R123): every value is reduced mod `2^24`. -/
def nextSample (prev : Option Sample) (policy : Policy) : Option Sample :=
  match policy with
  | .none => none
  | .fixed v => some (BitVec.ofInt 24 v)
  | .ramp step => prev.map fun x => BitVec.ofInt 24 (x.toNat + step)

/-- `sample(i, j)` for a channel's policy and seed (R124): `GEN_NEXT` frame after frame from `Some seed`. -/
def sampleAt (policy : Policy) (seed : Sample) : Nat → Option Sample
  | 0 => nextSample (some seed) policy
  | j + 1 => nextSample (sampleAt policy seed j) policy

/-- `GEN_NEXT prev, policy` (R122): no state is read or written. -/
def execGenNext (prev : Option Sample) (policy : Policy) (s : State) : Host.Outcome State Fault Refusal :=
  .next (s.respond .enc (.sample (nextSample prev policy)) [])

end Sys2Proof.Machine
end

