-- ==== Sys2Proof/Machine/Subframe.lean ====
section
/-! DEFINITION. Subframe Assembler (42_subframe_assembler.md): `PARITY`, `SF_ASSEMBLE`; and the preamble selection it
uses, `PRE_SELECT` (43_frame_sequencer.md rule R200). -/

namespace Sys2Proof.Machine

/-- `PRE_SELECT(j, i)` (R200). -/
def preSelect (j i : Nat) : Sym :=
  if i = 0 ∧ j % Config.blockFrames = 0 then .z else if i = 0 then .x else .y

/-- `d[0..26]` of the subframe of a channel at frame `j`: the sample least significant bit first, a missing sample
as 24 zeros, then V, U, C (R180 to R182, R126). -/
def payload (c : Channel) (j : Nat) : BitSeq :=
  toSeq ((sampleAt c.policy c.seed j).getD 0) ++ [c.v, c.u, csStoreRead c.cs (j % Config.blockFrames)]

/-- `d[0..27]` of the subframe of a channel at frame `j`, parity last (R184). -/
def subframeBits (c : Channel) (j : Nat) : BitSeq := payload c j ++ [xorAll (payload c j)]

/-- `SF_ASSEMBLE(j, i)` under a configuration (R184); none when `j` or `i` is out of range. -/
def assemble (c : EncCfg) (j i : Nat) : Option (Sym × BitSeq) :=
  if j < Config.blockFrames * c.nblocks then
    (c.channels[i]?).map fun ch => (preSelect j i, subframeBits ch j)
  else none

/-- A configuration is held and in use: `enc_status` is `READY` or `FINISHED` (R33, R184, R203). -/
def EncState.inUse (e : EncState) : Option EncCfg :=
  match e.status with
  | .ready | .finished => e.cfg
  | .unconfigured | .configError => none

/-- `PRE_SELECT j, i` (R200). -/
def execPreSelect (j i : Nat) (s : State) : Host.Outcome State Fault Refusal :=
  .next (s.respond .enc (.symbol (preSelect j i)) [])

/-- `PARITY d` (R183). -/
def execParity (d : BitVec 27) (s : State) : Host.Outcome State Fault Refusal :=
  .next (s.respond .enc (.bit (xorAll (toSeq d))) [])

/-- `SF_ASSEMBLE j, i` (R184): reads `cfg` and `CS[i]`, writes nothing; refused while no configuration is held or
out of range (R333). -/
def execSfAssemble (j i : Nat) (s : State) : Host.Outcome State Fault Refusal :=
  match s.enc.inUse with
  | none => .next (s.refuse .notConfigured)
  | some c =>
    match assemble c j i with
    | none => .next (s.refuse .outOfRange)
    | some (sym, d) => .next (s.respond .enc (.subframe sym (ofSeq 28 d)) [])

end Sys2Proof.Machine
end

