-- ==== Sys2Proof/Machine/Sequencer.lean ====
section
/-! DEFINITION. Frame/Block Sequencer and encoder engine (43_frame_sequencer.md): `ENC_CONFIGURE`, `ENC_STEP`,
`ENC_STATUS`, `ENC_RUN`; and the reserved op `0000` (30_encoding.md rule R104). -/

namespace Sys2Proof.Machine

/-! ## ENC_CONFIGURE -/

/-- `UnsupportedPolicy(policy[i])` (R301). -/
def policyError (i : Nat) : ConfigError :=
  { code := .unsupportedPolicy, field := "policy[" ++ toString i ++ "]" }

/-- The policies of the channels from channel `i` on, or the first that cannot be constructed (R202, R309). -/
def constructPolicies (i : Nat) : List PolicySpec → Except Nat (List Policy)
  | [] => .ok []
  | p :: ps =>
    match constructPolicy p with
    | none => .error i
    | some q =>
      match constructPolicies (i + 1) ps with
      | .ok qs => .ok (q :: qs)
      | .error k => .error k

/-- The channel-status blocks of the records, or the first illegal field of the first record that fails (R202,
R309). -/
def buildBlocks (P : Params) : List CsRecord → Except CsField (List CsBlock)
  | [] => .ok []
  | r :: rs =>
    match buildCs P r with
    | .error f => .error f
    | .ok cs =>
      match buildBlocks P rs with
      | .ok css => .ok (cs :: css)
      | .error f => .error f

/-- The configuration registers of each channel (R33, R34). -/
def channelsOf : List Policy → List Sample → List Bool → List Bool → List CsRecord → List CsBlock → List Channel
  | q :: qs, x :: xs, v :: vs, u :: us, r :: rs, cs :: css =>
    { policy := q, seed := x, v := v, u := u, cscfg := r, cs := cs } :: channelsOf qs xs vs us rs css
  | _, _, _, _, _, _ => []

/-- The configuration registers an accepted record gives, or the error it raises: policies first, then
channel-status records (R202, R309). -/
def acceptConfig (P : Params) (c : EncConfig) : Except ConfigError EncCfg :=
  match constructPolicies 0 c.channels with
  | .error i => .error (policyError i)
  | .ok qs =>
    match buildBlocks P c.csRecords with
    | .error f => .error (csError f)
    | .ok css =>
      .ok { channels := channelsOf qs c.seed c.v c.u c.csRecords css, nblocks := c.nblocks, qs := c.qs,
            initLevel := c.initLevel }

/-- The engine after a successful configuration (R202). -/
def EncState.configured (c : EncCfg) : EncState where
  status := statusAfterConfigure c
  err := none
  cfg := some c
  p := 0
  level := c.initLevel
  out := []

/-- `ENC_CONFIGURE c` (R202): refused when the record has not its shape (R333), then the errors, then success. -/
def execEncConfigure (c : EncConfig) (s : State) : Host.Outcome State Fault Refusal :=
  if c.wf then
    match acceptConfig s.params c with
    | .error e => .next (s.takeConfigError e)
    | .ok cfg => .next ({ s with enc := EncState.configured cfg }.respond .enc .nothing [])
  else .next (s.refuse .badShape)

/-! ## ENC_STEP -/

/-- The index in the unrotated sequence of the subframe at output position `p`: `(p - k) mod N` (R40, R204). -/
def EncCfg.index (c : EncCfg) (p : Nat) : Nat := (p + (c.total - c.rotation)) % c.total

/-- The subframe at output position `p` (R40, R201). -/
def EncCfg.subframeAt (c : EncCfg) (p : Nat) : Option (Sym × BitSeq) :=
  assemble c (c.index p / c.nch) (c.index p % c.nch)

/-- The half-cells of a subframe sent from level `L`, packed, and the level after them (R203). -/
def encodedSubframe (o : PackOrder) (L : Bool) (sf : Sym × BitSeq) : List Byte × Bool :=
  let (h, last) := bmcEncode sf.1 sf.2 L
  (packHalfCells o h, last)

/-- The engine after emitting a subframe (R203): 8 bytes stored at `8p`, `level` the last half-cell's, `p` one on. -/
def EncState.emitted (e : EncState) (c : EncCfg) (bytes : List Byte) (last : Bool) : EncState :=
  { e with
    out := e.out.writeBytes (Config.sfBytes * e.p) bytes
    level := last
    p := e.p + 1
    status := statusAfterStep c (e.p + 1) e.status }

/-- One `ENC_STEP` while a configuration is in use (R203): the engine after it and its events; none where a command
that reads absent registers is refused (R33). -/
def EncState.advance (P : Params) (e : EncState) : Option (EncState × List Event) :=
  match e.inUse with
  | none => none
  | some c =>
    if e.status = .finished then some (e, [])
    else
      match c.subframeAt e.p with
      | none => none
      | some sf =>
        let (bytes, last) := encodedSubframe P.packOrder e.level sf
        some (e.emitted c bytes last, [.subframeOut bytes])

/-- `ENC_STEP` (R203): nothing in `FINISHED`; refused in `UNCONFIGURED` and `CONFIG_ERROR` (R333). -/
def execEncStep (s : State) : Host.Outcome State Fault Refusal :=
  match s.enc.advance s.params with
  | none => .next (s.refuse .notConfigured)
  | some (e, es) => .next ({ s with enc := e }.respond .enc .nothing es)

/-- `ENC_STATUS` (R206). -/
def execEncStatus (s : State) : Host.Outcome State Fault Refusal :=
  .next (s.respond .enc (.encReport s.enc.status s.enc.err s.enc.p s.enc.total) [])

/-! ## ENC_RUN -/

/-- `ENC_STEP` repeated while `READY`, at most `fuel` times: the engine after it and the events in order (R205). -/
def EncState.run (P : Params) : Nat → EncState → EncState × List Event
  | 0, e => (e, [])
  | fuel + 1, e =>
    if e.status = .ready then
      match e.advance P with
      | none => (e, [])
      | some (e', es) =>
        let (e'', es') := EncState.run P fuel e'
        (e'', es ++ es')
    else (e, [])

/-- `ENC_RUN` (R107, R205): `ENC_STEP` repeated while `enc_status = READY`. From position `p` it ends after `N - p`
steps; in any other status it repeats nothing (DEDUCED, assumption log 7). -/
def execEncRun (s : State) : Host.Outcome State Fault Refusal :=
  let (e, es) := s.enc.run s.params (s.enc.total - s.enc.p)
  .next ({ s with enc := e }.respond .enc .nothing es)

/-! ## Op 0000 -/

/-- Op `0000` is reserved: it is always refused (R104, R333). -/
def execReserved (s : State) : Host.Outcome State Fault Refusal := .next (s.refuse .reservedOp)

end Sys2Proof.Machine
end

