-- ==== Sys2Proof/Machine/Dispatch.lean ====
section
/-! DEFINITION. One arm per row of spec/opcode_table.json. -/

namespace Sys2Proof.Machine

/-- What an instruction does (R90, R94, R95, R107). -/
def exec (i : Instr) (s : State) : Host.Outcome State Fault Refusal :=
  match i with
  | .encConfigure c => Sys2Proof.Machine.execEncConfigure c s
  | .encStep => Sys2Proof.Machine.execEncStep s
  | .encStatus => Sys2Proof.Machine.execEncStatus s
  | .genNext prev policy => Sys2Proof.Machine.execGenNext prev policy s
  | .csBuild r => Sys2Proof.Machine.execCsBuild r s
  | .preSelect j ch => Sys2Proof.Machine.execPreSelect j ch s
  | .sfAssemble j ch => Sys2Proof.Machine.execSfAssemble j ch s
  | .parity d => Sys2Proof.Machine.execParity d s
  | .bmcEncode sym d level => Sys2Proof.Machine.execBmcEncode sym d level s
  | .pack h => Sys2Proof.Machine.execPack h s
  | .decAdvance n h => Sys2Proof.Machine.execDecAdvance n h s
  | .decFeedByte n b => Sys2Proof.Machine.execDecFeedByte n b s
  | .decReset n => Sys2Proof.Machine.execDecReset n s
  | .decConfigure n halt => Sys2Proof.Machine.execDecConfigure n halt s
  | .decStatus n => Sys2Proof.Machine.execDecStatus n s
  | .reserved => Sys2Proof.Machine.execReserved s
  | .encRun => Sys2Proof.Machine.execEncRun s
  | .decFeed n hs => Sys2Proof.Machine.execDecFeed n hs s
  | .decFeedBytes n bs => Sys2Proof.Machine.execDecFeedBytes n bs s
  | .preambleZL0 n => Sys2Proof.Machine.execPreambleZL0 n s
  | .preambleZL1 n => Sys2Proof.Machine.execPreambleZL1 n s
  | .preambleXL0 n => Sys2Proof.Machine.execPreambleXL0 n s
  | .preambleXL1 n => Sys2Proof.Machine.execPreambleXL1 n s
  | .preambleYL0 n => Sys2Proof.Machine.execPreambleYL0 n s
  | .preambleYL1 n => Sys2Proof.Machine.execPreambleYL1 n s
  | .cellL0B0 n => Sys2Proof.Machine.execCellL0B0 n s
  | .cellL0B1 n => Sys2Proof.Machine.execCellL0B1 n s
  | .cellL1B0 n => Sys2Proof.Machine.execCellL1B0 n s
  | .cellL1B1 n => Sys2Proof.Machine.execCellL1B1 n s
  | .cellL0Illegal n x => Sys2Proof.Machine.execCellL0Illegal n x s
  | .cellL1Illegal n x => Sys2Proof.Machine.execCellL1Illegal n x s

end Sys2Proof.Machine
end

