-- ==== Sys2Proof/Machine/Step.lean ====
section
/-! DEFINITION. One step of the block: the oldest command HOST has issued is performed, whole, before the next
(20_memory.md rules R82, R84). -/

namespace Sys2Proof.Machine

/-- One command performed (R84). With no command issued the block does nothing and keeps its state (60_exceptions.md
rule R318). A command that spells no instruction is refused (30_encoding.md rule R92, 70_reset_and_hazards.md rule
R333). -/
def step (s : State) : Host.Outcome State Fault Refusal :=
  match s.cmds with
  | [] => .next s
  | c :: rest =>
    match decode c with
    | .ok i => exec i { s with cmds := rest }
    | .error why => .next ({ s with cmds := rest }.refuse why)

/-- The state with the command of a table word issued as the next to be performed. -/
def State.withFetchWord (s : State) (nbits w : Nat) : State :=
  { s with cmds := commandOfWord nbits w :: s.cmds }

end Sys2Proof.Machine
end

