-- ==== Sys2Proof/Safety.lean ====
section
/-! DEFINITION. What counts as a sound state and a clean run, in the terms the statements use: the invariant, the
frame of a command, what a run reports. -/

namespace Sys2Proof.Machine

/-! ## The invariant -/

/-- The configuration held matches `enc_status` (R31, R33, R307). -/
def EncState.statusFits (e : EncState) : Prop :=
  match e.status with
  | .unconfigured | .configError => e.cfg = none ∧ e.p = 0
  | .ready => ∃ c, e.cfg = some c ∧ 1 ≤ c.nch ∧ e.p < c.total
  | .finished => ∃ c, e.cfg = some c ∧ 1 ≤ c.nch ∧ e.p = c.total

/-- `enc_err` holds a configuration error in `CONFIG_ERROR`; in every other status none, or the error of a `CS_BUILD`
on its own (R32, R300; log 6). -/
def EncState.errFits (e : EncState) : Prop :=
  (e.status = .configError → e.err ≠ none)
    ∧ (e.status ≠ .configError → ∀ x, e.err = some x → ∃ f, x = csError f)

/-- While a configuration is held: at every subframe boundary `level = cfg.init_level` (R38), and every `CS[i]` is
`CS_BUILD(cfg.cscfg[i])` (R34). -/
def EncState.cfgFits (P : Params) (e : EncState) : Prop :=
  ∀ c, e.cfg = some c → e.level = c.initLevel ∧ ∀ ch ∈ c.channels, buildCs P ch.cscfg = .ok ch.cs

/-- `OUT` holds exactly the bytes at `0 .. 8p - 1`: whole subframes, in canonical form (R72, R79). -/
def EncState.outFits (e : EncState) : Prop := e.out.map Prod.fst = List.range (8 * e.p)

/-- The encoder's invariant. -/
def EncState.Inv (P : Params) (e : EncState) : Prop := e.statusFits ∧ e.errFits ∧ e.cfgFits P ∧ e.outFits

/-- The word with ones at bits `0 .. k - 1`. -/
def firstOnes (k : Nat) : DataBits := BitVec.ofNat 28 (2 ^ k - 1)

/-- What holds of an instance in each mode (R41 to R52, R58). -/
def DecState.modeFits (d : DecState) : Prop :=
  match d.mode with
  | .searching => d.cont = false ∧ d.started = false ∧ d.zero0 = 0
  | .lockedData =>
    d.cell < 28 ∧ d.chk = firstOnes (d.cell + d.half.toNat) ∧ (d.half = true → d.prev = d.a)
      ∧ (d.sym = .y → 1 ≤ d.ch) ∧ (d.sym ≠ .y → d.ch = 0) ∧ d.zero0 < 192
  | .lockedPreamble =>
    d.pbuf.length < 8 ∧ d.cell = 28 ∧ d.half = false ∧ d.chk = firstOnes 28 ∧ d.cont = true ∧ d.pl = d.prev
      ∧ d.zero0 < 192
  | .done => d.zero0 = 192 ∧ d.ch = 0 ∧ d.cell = 28
  | .fatal => d.zero0 < 192

/-- The invariant of a decoder instance: window and preamble buffer of at most 8 half-cells (R42, R45),
`fatal_reason` present exactly in `FATAL` (R55), `cs_rx` in canonical form, and the mode's own facts. -/
def DecState.Inv (d : DecState) : Prop :=
  d.win.length ≤ 8 ∧ d.pbuf.length ≤ 8 ∧ (d.fatalReason ≠ none ↔ d.mode = .fatal) ∧ risingKeys d.csRx = true
    ∧ d.modeFits

/-- The invariant of the block: the encoder's, every instance's, instances listed in canonical form with none in its
reset state (R316). -/
def State.Inv (s : State) : Prop :=
  s.enc.Inv s.params ∧ risingKeys s.decs = true ∧ (∀ e ∈ s.decs, e.2 ≠ DecState.reset) ∧ ∀ n, (s.dec n).Inv

/-- Every register of an instance that has a reset value in the spec holds it, but for `halt_on_mismatch`, which has
one only at creation (R60, R331). Of `prev`, `pl`, `a` and `sym` it says nothing (R332). -/
def DecState.hasResetValues (d : DecState) : Prop :=
  d.mode = .searching ∧ d.win = [] ∧ d.pbuf = [] ∧ d.cell = 0 ∧ d.half = false ∧ d.data = 0 ∧ d.chk = 0
    ∧ d.ch = 0 ∧ d.cont = false ∧ d.started = false ∧ d.frame = 0 ∧ d.zero0 = 0
    ∧ (∀ c b, csRxRead d.csRx c b = none) ∧ d.fatalReason = none ∧ d.nMissing = 0 ∧ d.nMismatch = 0 ∧ d.nDiscard = 0

/-! ## Who a command is for, and when it is refused -/

/-- The agent of a command (R90, R91): the encoder engine, or the instance it is routed to. -/
def agentOf : Instr → Agent
  | .encConfigure _ | .encStep | .encStatus | .genNext _ _ | .csBuild _ | .preSelect _ _ | .sfAssemble _ _
  | .parity _ | .bmcEncode _ _ _ | .pack _ | .reserved | .encRun => .enc
  | .decAdvance n _ | .decFeedByte n _ | .decReset n | .decConfigure n _ | .decStatus n | .decFeed n _
  | .decFeedBytes n _ | .preambleZL0 n | .preambleZL1 n | .preambleXL0 n | .preambleXL1 n | .preambleYL0 n
  | .preambleYL1 n | .cellL0B0 n | .cellL0B1 n | .cellL1B0 n | .cellL1B1 n | .cellL0Illegal n _
  | .cellL1Illegal n _ => .dec n

/-- No configuration is held (R33, R203). -/
def notConfigured (s : State) : Prop := s.enc.status = .unconfigured ∨ s.enc.status = .configError

/-- When the table of R333 refuses an instruction whose operands have their types. -/
def refusedWhen (s : State) : Instr → Prop
  | .reserved => True
  | .encConfigure c => c.wf = false
  | .encStep => notConfigured s
  | .sfAssemble j i => notConfigured s ∨ ∃ c, s.enc.cfg = some c ∧ ¬(j < 192 * c.nblocks ∧ i < c.nch)
  | .encStatus | .genNext _ _ | .csBuild _ | .preSelect _ _ | .parity _ | .bmcEncode _ _ _ | .pack _
  | .encRun | .decAdvance _ _ | .decFeedByte _ _ | .decReset _ | .decConfigure _ _ | .decStatus _ | .decFeed _ _
  | .decFeedBytes _ _ | .preambleZL0 _ | .preambleZL1 _ | .preambleXL0 _ | .preambleXL1 _ | .preambleYL0 _
  | .preambleYL1 _ | .cellL0B0 _ | .cellL0B1 _ | .cellL1B0 _ | .cellL1B1 _ | .cellL0Illegal _ _
  | .cellL1Illegal _ _ => False

/-- Instructions performed one after the other, stopping at the first that gives no next state (R84). -/
def performAll : List Instr → State → Host.Outcome State Fault Refusal
  | [], s => .next s
  | i :: is, s =>
    match exec i s with
    | .next t => performAll is t
    | .fault r => .fault r
    | .refused r => .refused r

/-! ## Frames -/

/-- No register of the block differs: the parameters, `ENC` with `OUT`, every instance, the mark of R333, the
commands still to perform. -/
def sameRegisters (s t : State) : Prop :=
  t.params = s.params ∧ t.enc = s.enc ∧ t.decs = s.decs ∧ t.refused = s.refused ∧ t.cmds = s.cmds

/-- Only `ENC` may differ, and what HOST sees. -/
def sameButEnc (s t : State) : Prop :=
  t.params = s.params ∧ t.decs = s.decs ∧ t.refused = s.refused ∧ t.cmds = s.cmds

/-- Only `DEC[n]` may differ, and what HOST sees. -/
def sameButDec (n : Nat) (s t : State) : Prop :=
  t.params = s.params ∧ t.enc = s.enc ∧ (∀ m, m ≠ n → t.dec m = s.dec m) ∧ t.refused = s.refused ∧ t.cmds = s.cmds

/-- What HOST sees of a command: its value and events, the events appended to `EVT` (R110). -/
def answers (s t : State) (a : Agent) (v : Value) (es : List Event) : Prop :=
  t.resp = { value := v, events := es } ∧ t.evt = s.evt ++ es.map fun e => (a, e)

/-- The effect of a refusal (R333): registers unchanged, no event, the run marked. -/
def isRefusal (s t : State) (why : RefusedWhy) : Prop :=
  t.params = s.params ∧ t.enc = s.enc ∧ t.decs = s.decs ∧ t.evt = s.evt ∧ t.cmds = s.cmds
    ∧ t.refused = true ∧ t.resp = { value := .refused why, events := [] }

/-! ## Runs and what they report -/

/-- A run is clean while no command of it was refused (R333). -/
def State.clean (s : State) : Prop := s.refused = false

/-- The descriptors of the `SUBFRAME` events of instance `n`, in order (R268). -/
def descriptorsOf (n : Nat) : List (Agent × Event) → List String
  | [] => []
  | (.dec m, .subframe t _) :: es => if m = n then t :: descriptorsOf n es else descriptorsOf n es
  | _ :: es => descriptorsOf n es

/-- The descriptors of a run of instance `n` from `s` to `t`: those `EVT` gained meanwhile (R110, R268). -/
def runDescriptors (s t : State) (n : Nat) : List String := descriptorsOf n (t.evt.drop s.evt.length)

/-- A decode run, from `s` to `t` with inputs only to instance `n` between, passes when it starts from a fresh instance,
the core's signal is `PASS` and its descriptors equal the expectation exactly (R268). An instance just reset is a fresh
one, so a run begins anew at `DEC_RESET` (R262; DEDUCED, assumption log 22). The comparison is HOST's; it is given here
only as an observation. -/
def runPasses (s t : State) (n : Nat) (expectation : List String) : Prop :=
  (s.dec n).hasResetValues ∧ (t.dec n).passes = true ∧ runDescriptors s t n = expectation

/-- The half-cells an instruction puts on the line of instance `n` (R70, R73): one for `DEC_ADVANCE`, eight for
`DEC_FEED_BYTE`. -/
def lineInput (o : PackOrder) (n : Nat) : Instr → BitSeq
  | .decAdvance m h => if m = n then [h] else []
  | .decFeedByte m b => if m = n then unpackByte o b else []
  | .decFeed m hs => if m = n then hs else []
  | .decFeedBytes m bs => if m = n then bs.flatMap (unpackByte o) else []
  | .preambleZL0 m => if m = n then pat .z false else []
  | .preambleZL1 m => if m = n then pat .z true else []
  | .preambleXL0 m => if m = n then pat .x false else []
  | .preambleXL1 m => if m = n then pat .x true else []
  | .preambleYL0 m => if m = n then pat .y false else []
  | .preambleYL1 m => if m = n then pat .y true else []
  | .cellL0B0 m => if m = n then [true, true] else []
  | .cellL0B1 m => if m = n then [true, false] else []
  | .cellL1B0 m => if m = n then [false, false] else []
  | .cellL1B1 m => if m = n then [false, true] else []
  | .cellL0Illegal m x => if m = n then [false, x] else []
  | .cellL1Illegal m x => if m = n then [true, x] else []
  | .encConfigure _ | .encStep | .encStatus | .genNext _ _ | .csBuild _ | .preSelect _ _ | .sfAssemble _ _
  | .parity _ | .bmcEncode _ _ _ | .pack _ | .decReset _ | .decConfigure _ _ | .decStatus _ | .reserved
  | .encRun => []

/-- `IN` of instance `n` (R70): the half-cells of the commands still to perform, in order. -/
def State.inStream (s : State) (n : Nat) : BitSeq :=
  s.cmds.flatMap fun c =>
    match decode c with
    | .ok i => lineInput s.params.packOrder n i
    | .error _ => []

/-- The half-cells an encoder puts on the line for a sequence of subframes, each sent from level `L` (R226). -/
def lineStream (L : Bool) (sfs : List (Sym × BitSeq)) : BitSeq := sfs.flatMap fun sf => (bmcEncode sf.1 sf.2 L).1

/-- `DISCARD` events before the first `SUBFRAME` (R270). -/
def discardsBeforeSubframe : List Event → Nat
  | [] => 0
  | .subframe _ _ :: _ => 0
  | .discard _ :: es => discardsBeforeSubframe es + 1
  | .lock _ :: es | .missingTransition _ :: es | .decodeMismatch _ _ :: es | .unrecognizedPreamble _ :: es
  | .done :: es | .subframeOut _ :: es | .configError _ :: es => discardsBeforeSubframe es

/-- On input `hs` the instance discards at most `bound` subframes before the first it reports (R7, R270). -/
def discardsWithin (d : DecState) (hs : BitSeq) (bound : Nat) : Prop := discardsBeforeSubframe (d.feed hs).2 ≤ bound

/-- The instance meets `RESYNC_BOUND` on input `hs` (R7, R270). -/
def meetsResyncBound (d : DecState) (hs : BitSeq) : Prop := discardsWithin d hs Config.resyncBound

/-- The half-cells to `LOCK` that R270 derives from the rules of this spec. -/
def derivedLockBound : Nat := Config.sfHalf + Config.preHalf - 1

/-- The discards before the first `SUBFRAME` that R270 derives, for `nch` channels. -/
def derivedDiscardBound (nch : Nat) : Nat := Config.blockFrames * nch - 1

/-- The instance acquires within `bound` half-cells on input `hs` (R270). -/
def locksWithin (d : DecState) (hs : BitSeq) (bound : Nat) : Prop :=
  ∃ k ≤ bound, ∃ s, Event.lock s ∈ (d.feed (hs.take k)).2

end Sys2Proof.Machine
end

