-- ==== Sys2Proof/Certificates/Slice0/Obligations.lean ====
section
/-! DEFINITION. The statements for the provers. Each docstring names the rules of spec/ it states. Where a clause is
the model's own choice, the docstring names the assumption log entry. -/

open Sys2Proof Sys2Proof.Machine

/-! ## Encoding -/

/-- Commands written out from the tables of R90, R94 and R95 decode to the instructions they stand for. -/
def Obligations.WrittenOutCommandsDecode : Prop :=
  decode (.op 0b0000#4 0 []) = .ok .reserved
  ∧ decode (.op 0b0010#4 0 []) = .ok .encStep
  ∧ decode (.op 0b0100#4 0 [.int 3, .policy (.ramp (-7))]) = .ok (.genNext (some 3#24) (.ramp (-7)))
  ∧ decode (.op 0b1000#4 0 [.seq (1 :: List.replicate 26 0)]) = .ok (.parity 1#27)
  ∧ decode (.op 0b1011#4 2 [.int 1]) = .ok (.decAdvance 2 true)
  ∧ decode (.op 0b1100#4 0 [.int 0x17]) = .ok (.decFeedByte 0 0x17#8)
  ∧ decode (.op 0b1101#4 5 []) = .ok (.decReset 5)
  ∧ decode (.preamble 1 [true, true, true, false, false, true, false, false]) = .ok (.preambleYL0 1)
  ∧ decode (.cell 0 true false true) = .ok (.cellL1B1 0)
  ∧ decode (.cell 0 false false true) = .ok (.cellL0Illegal 0 true)

/-- Decoding an encoded well-formed instruction gives it back, whatever its operands: no part of any operand is
dropped on the interface (R90, R91, R94, R95, R107). -/
def Obligations.DecodeEncodeRoundTrip : Prop :=
  ∀ i : Instr, i.wf = true → decode (encode i) = .ok i

/-- Whatever HOST puts on the interface, an instruction that is decoded is well-formed (R92, R333). -/
def Obligations.DecodedInstructionsAreWellFormed : Prop :=
  ∀ (c : Command) (i : Instr), decode c = .ok i → i.wf = true

/-- R90: the op alone selects the operation, whatever the operands and the routing. -/
def Obligations.OpAloneSelectsOperation : Prop :=
  ∀ (code : BitVec 4) (n : Nat) (args : List Operand) (i : Instr),
    decode (.op code n args) = .ok i → i.op = some code

/-- R90, R92 and R333: an operand has its type and is taken as given, or the command is refused at the interface. First
the kinds: an operand list that has not the kinds of R90's table is refused, a missing and an extra operand too (their
number is DEDUCED, log 14). Then the values: bits, bytes, naturals, samples, symbols, bit sequences, and the record of
`ENC_CONFIGURE`, which is taken exactly when it has the shape of R202, a field left out at R202's default. That a record
with no `cs` is refused is DEDUCED (log 10); that one bad element refuses a whole `DEC_FEED` or `DEC_FEED_BYTES` is the
model's choice (log 20). -/
def Obligations.OperandsTakenAsGivenOrRefused : Prop :=
  ∀ n : Nat,
    (∀ (code : BitVec 4) (args : List Operand), code ≠ 0b0000#4 →
      ¬((code = 0b0001#4 ∧ ∃ r, args = [.encRecord r])
        ∨ (code ∈ [0b0010#4, 0b0011#4, 0b1101#4, 0b1111#4] ∧ args = [])
        ∨ (code = 0b0100#4 ∧ ∃ p, args = [.none, .policy p] ∨ ∃ x, args = [.int x, .policy p])
        ∨ (code = 0b0101#4 ∧ ∃ r, args = [.csRecord r])
        ∨ (code ∈ [0b0110#4, 0b0111#4] ∧ ∃ j i, args = [.int j, .int i])
        ∨ (code ∈ [0b1000#4, 0b1010#4] ∧ ∃ d, args = [.seq d])
        ∨ (code = 0b1001#4 ∧ ∃ s d l, args = [.name s, .seq d, .int l])
        ∨ (code ∈ [0b1011#4, 0b1100#4, 0b1110#4] ∧ ∃ h, args = [.int h])) →
      ∃ why, decode (.op code n args) = .error why)
    ∧ (∀ args : List Operand,
        (args ≠ [] → decode (.pseudo .encRun n args) = .error .badOperands)
        ∧ ((∀ d, args ≠ [.seq d]) → decode (.pseudo .decFeed n args) = .error .badOperands)
        ∧ ∀ x ∈ args, (∀ b, x ≠ .int b) → decode (.pseudo .decFeedBytes n args) = .error .badOperands)
    ∧ (decode (.op 0b0010#4 n []) = .ok .encStep ∧ decode (.op 0b0011#4 n []) = .ok .encStatus
        ∧ decode (.op 0b1101#4 n []) = .ok (.decReset n) ∧ decode (.op 0b1111#4 n []) = .ok (.decStatus n)
        ∧ (∀ p, decode (.op 0b0100#4 n [.none, .policy p]) = .ok (.genNext none p))
        ∧ (∀ r, decode (.op 0b0101#4 n [.csRecord r]) = .ok (.csBuild r))
        ∧ (∀ j i : Nat, decode (.op 0b0110#4 n [.int j, .int i]) = .ok (.preSelect j i)
          ∧ decode (.op 0b0111#4 n [.int j, .int i]) = .ok (.sfAssemble j i))
        ∧ ∀ h : Bool, decode (.op 0b1011#4 n [.int (if h then 1 else 0)]) = .ok (.decAdvance n h)
          ∧ decode (.op 0b1110#4 n [.int (if h then 1 else 0)]) = .ok (.decConfigure n h))
    ∧ (∀ h : Int, h ≠ 0 → h ≠ 1 → decode (.op 0b1011#4 n [.int h]) = .error .badOperands
      ∧ decode (.op 0b1110#4 n [.int h]) = .error .badOperands)
    ∧ (∀ b : Int, ¬(0 ≤ b ∧ b ≤ 255) → decode (.op 0b1100#4 n [.int b]) = .error .badOperands
      ∧ ∀ bs : List Operand, .int b ∈ bs → decode (.pseudo .decFeedBytes n bs) = .error .badOperands)
    ∧ (∀ b : Nat, b ≤ 255 → decode (.op 0b1100#4 n [.int b]) = .ok (.decFeedByte n (BitVec.ofNat 8 b)))
    ∧ (∀ (x : Int) (p : Policy), ¬(0 ≤ x ∧ x ≤ 0xFFFFFF) →
        decode (.op 0b0100#4 n [.int x, .policy p]) = .error .badOperands)
    ∧ (∀ (x : Nat) (p : Policy), x ≤ 0xFFFFFF →
        decode (.op 0b0100#4 n [.int x, .policy p]) = .ok (.genNext (some (BitVec.ofNat 24 x)) p))
    ∧ (∀ j i : Int, j < 0 ∨ i < 0 → decode (.op 0b0110#4 n [.int j, .int i]) = .error .badOperands
      ∧ decode (.op 0b0111#4 n [.int j, .int i]) = .error .badOperands)
    ∧ (∀ d : List Int, d.length ≠ 27 → decode (.op 0b1000#4 n [.seq d]) = .error .badOperands)
    ∧ (∀ h : List Int, h.length ≠ 64 → decode (.op 0b1010#4 n [.seq h]) = .error .badOperands)
    ∧ (∀ (s : String) (d : List Int) (l : Int),
        (s ≠ "Z" ∧ s ≠ "X" ∧ s ≠ "Y") ∨ d.length ≠ 28 ∨ (l ≠ 0 ∧ l ≠ 1) →
        decode (.op 0b1001#4 n [.name s, .seq d, .int l]) = .error .badOperands)
    ∧ (∀ (d : List Int) (x : Int), x ∈ d → x ≠ 0 → x ≠ 1 →
        decode (.op 0b1000#4 n [.seq d]) = .error .badOperands
        ∧ decode (.op 0b1010#4 n [.seq d]) = .error .badOperands
        ∧ (∀ s l, decode (.op 0b1001#4 n [.name s, .seq d, .int l]) = .error .badOperands)
        ∧ decode (.pseudo .decFeed n [.seq d]) = .error .badOperands)
    ∧ (∀ (d : List Int) (b : BitVec 27), d.length = 27 →
        (∀ k < 27, d[k]? = some (if b.getLsbD k then 1 else 0)) →
        decode (.op 0b1000#4 n [.seq d]) = .ok (.parity b))
    ∧ (∀ (d : List Int) (b : BitVec 64), d.length = 64 →
        (∀ k < 64, d[k]? = some (if b.getLsbD k then 1 else 0)) →
        decode (.op 0b1010#4 n [.seq d]) = .ok (.pack b))
    ∧ (∀ (d : List Int) (b : BitVec 28) (l : Bool) (s : String) (sym : Sym), d.length = 28 →
        (∀ k < 28, d[k]? = some (if b.getLsbD k then 1 else 0)) → (s, sym) ∈ [("Z", .z), ("X", .x), ("Y", .y)] →
        decode (.op 0b1001#4 n [.name s, .seq d, .int (if l then 1 else 0)]) = .ok (.bmcEncode sym b l))
    ∧ ∀ r : RawConfig,
        (∀ c : EncConfig, decode (.op 0b0001#4 n [.encRecord r]) = .ok (.encConfigure c) ↔
          r.channels = some c.channels ∧ c.channels ≠ [] ∧ r.nblocks = .int c.nblocks
          ∧ (r.qs = .int c.qs ∨ r.qs = .missing ∧ c.qs = 0)
          ∧ (r.initLevel = .int (if c.initLevel then 1 else 0) ∨ r.initLevel = .missing ∧ c.initLevel = false)
          ∧ (r.seed = .ints (c.seed.map fun x => (x.toNat : Int)) ∧ c.seed.length = c.channels.length
            ∨ r.seed = .missing ∧ c.seed = List.replicate c.channels.length 0)
          ∧ (r.v = .ints (c.v.map fun b => if b then 1 else 0) ∧ c.v.length = c.channels.length
            ∨ r.v = .missing ∧ c.v = List.replicate c.channels.length false)
          ∧ (r.u = .ints (c.u.map fun b => if b then 1 else 0) ∧ c.u.length = c.channels.length
            ∨ r.u = .missing ∧ c.u = List.replicate c.channels.length false)
          ∧ ((∃ q, r.cs = .one q ∧ c.cs = .one q)
            ∨ ∃ l, r.cs = .each l ∧ c.cs = .each l ∧ l.length = c.channels.length))
        ∧ ((∀ c : EncConfig, decode (.op 0b0001#4 n [.encRecord r]) ≠ .ok (.encConfigure c)) →
          decode (.op 0b0001#4 n [.encRecord r]) = .error .badShape)

/-! ## Steps and refusals -/

/-- One command at a time, in HOST's order: the oldest command issued is decoded and performed on the state without
it (R84); one that spells no instruction is refused, with the effect R333 gives a refusal; with none issued nothing
changes (R318). -/
def Obligations.StepPerformsOldestCommand : Prop :=
  (∀ (s : State) (c : Command) (rest : List Command) (i : Instr),
    s.cmds = c :: rest → decode c = .ok i → step s = exec i { s with cmds := rest })
  ∧ (∀ (s : State) (c : Command) (rest : List Command) (why : RefusedWhy),
    s.cmds = c :: rest → decode c = .error why → ∃ t, step s = .next t ∧ isRefusal { s with cmds := rest } t why)
  ∧ ∀ s : State, s.cmds = [] → step s = .next s

/-- R306: HOST is never stopped. Every step of every state answers a next state, and takes exactly the oldest
command. -/
def Obligations.EveryStepAnswersNext : Prop :=
  ∀ s : State, ∃ t, step s = .next t ∧ t.cmds = s.cmds.tail

/-- R333's table on decoded commands: each is refused exactly when its row says so, and a refusal has the effect R333
gives it; a command that is not refused leaves the mark as it was. -/
def Obligations.RefusedExactlyByTheTable : Prop :=
  ∀ (i : Instr) (s : State), s.Inv →
    (refusedWhen s i → ∃ t why, exec i s = .next t ∧ isRefusal s t why)
    ∧ (¬refusedWhen s i → ∃ t, exec i s = .next t ∧ t.refused = s.refused)

/-- R104: op `0000` spells no command; performing it is always refused, with the effect R333 gives a refusal. -/
def Obligations.ReservedOpIsAlwaysRefused : Prop :=
  ∀ s : State, ∃ t, exec .reserved s = .next t ∧ isRefusal s t .reservedOp

/-- R333: the mark is kept for the whole run. -/
def Obligations.RefusalMarkIsKept : Prop :=
  ∀ (k : Nat) (s t : State), core.run k s = .next t → s.refused = true → t.refused = true

/-- R110: every command returns a list of events, appended to `EVT` in order; nothing is ever taken from `EVT`. -/
def Obligations.EventsAreAppendedToEvt : Prop :=
  ∀ (s t : State) (c : Command) (rest : List Command), s.cmds = c :: rest → step s = .next t →
    ∃ a : Agent, t.evt = s.evt ++ t.resp.events.map fun e => (a, e)

/-- R78: nothing switches `PACK_ORDER`, nor the other open parameters, at run time. -/
def Obligations.ParametersAreFixed : Prop :=
  ∀ (s t : State), step s = .next t → t.params = s.params

/-- R73 and R81: `IN` is consumed front first: a step takes from it exactly the half-cells of the command it performs,
and those are the half-cells the instance is fed: one by `DEC_ADVANCE`, eight by `DEC_FEED_BYTE`, none by a command
that puts nothing on the instance's line. That `IN` is the half-cells of the commands still to perform is log 4; that a
line pattern puts its half-cells there is DEDUCED (log 5). -/
def Obligations.InputIsConsumedFrontFirst : Prop :=
  (∀ (s t : State) (c : Command) (rest : List Command) (i : Instr) (n : Nat),
    s.cmds = c :: rest → decode c = .ok i → step s = .next t →
    s.inStream n = lineInput s.params.packOrder n i ++ t.inStream n)
  ∧ (∀ (s : State) (n : Nat) (i : Instr), agentOf i = .dec n → i ≠ .decReset n → (∀ halt, i ≠ .decConfigure n halt) →
    i ≠ .decStatus n →
    ∃ t, exec i s = .next t ∧ t.dec n = ((s.dec n).feed (lineInput s.params.packOrder n i)).1
      ∧ answers s t (.dec n) .nothing ((s.dec n).feed (lineInput s.params.packOrder n i)).2 ∧ sameButDec n s t)
  ∧ ∀ (o : PackOrder) (n : Nat),
      (∀ h, lineInput o n (.decAdvance n h) = [h]) ∧ (∀ b, (lineInput o n (.decFeedByte n b)).length = 8)
      ∧ ∀ i : Instr, agentOf i ≠ .dec n ∨ i = .decReset n ∨ (∃ halt, i = .decConfigure n halt) ∨ i = .decStatus n →
          lineInput o n i = []

/-- R84, R310: commands to different agents touch disjoint state and commute: in either order the registers end the
same, each command returns the same value and events, and each agent's events stand in the same order in `EVT`.
That `EVT` is one list is the model's choice (log 12). -/
def Obligations.CommandsToDifferentAgentsCommute : Prop :=
  ∀ (i k : Instr) (s s1 t1 s2 t2 : State), agentOf i ≠ agentOf k →
    exec i s = .next s1 → exec k s1 = .next t1 → exec k s = .next s2 → exec i s2 = .next t2 →
    t1.params = t2.params ∧ t1.enc = t2.enc ∧ (∀ n, t1.dec n = t2.dec n) ∧ t1.refused = t2.refused
    ∧ t1.cmds = t2.cmds ∧ s1.resp = t2.resp ∧ t1.resp = s2.resp
    ∧ ∀ a : Agent, t1.evt.filter (fun e => decide (e.1 = a)) = t2.evt.filter (fun e => decide (e.1 = a))

/-! ## Reset and the invariant -/

/-- R330 and R331: the reset value of every register the spec gives one: of `ENC` before any command, of an instance
when it is created and after every `DEC_RESET`. -/
def Obligations.ResetValues : Prop :=
  State.reset.enc.status = .unconfigured ∧ State.reset.enc.err = none ∧ State.reset.enc.cfg = none
  ∧ State.reset.enc.p = 0 ∧ State.reset.enc.out = [] ∧ State.reset.evt = []
  ∧ (∀ n : Nat, (State.reset.dec n).hasResetValues ∧ (State.reset.dec n).haltOnMismatch = false)
  ∧ ∀ (s : State) (n : Nat), ∃ t, exec (.decReset n) s = .next t ∧ (t.dec n).hasResetValues
      ∧ (t.dec n).haltOnMismatch = (s.dec n).haltOnMismatch

/-- R332: the registers without a reset value are never observable. For a decoder, whatever `halt_on_mismatch` it was
reset with, any values of `prev`, `pl`, `a` and `sym` give the same events and the same `DEC_STATUS` on every input; for
the encoder, while no configuration is held any value of `level` gives the same answer to every command and, but for
`level` while none is held, the same engine after it. -/
def Obligations.UnspecifiedResetValuesAreUnobservable : Prop :=
  (∀ (prev pl a halt : Bool) (sym : Sym) (hs : BitSeq),
    let reset := { DecState.reset with haltOnMismatch := halt }
    let d := { reset with prev := prev, pl := pl, a := a, sym := sym }
    (d.feed hs).2 = (reset.feed hs).2 ∧ (d.feed hs).1.report = (reset.feed hs).1.report)
  ∧ ∀ (i : Instr) (s t u : State) (level : Bool), notConfigured s →
      exec i s = .next t → exec i { s with enc := { s.enc with level := level } } = .next u →
      u.resp = t.resp ∧ u.evt = t.evt ∧ u.refused = t.refused ∧ u.decs = t.decs
      ∧ (t.enc.status = .unconfigured ∨ t.enc.status = .configError →
          u.enc = { t.enc with level := u.enc.level })
      ∧ (t.enc.status = .ready ∨ t.enc.status = .finished → u.enc = t.enc)

/-- The invariant holds after reset. -/
def Obligations.ResetMeetsInvariant : Prop := State.reset.Inv

/-- Every step keeps the invariant: the configuration held and `enc_err` match `enc_status` (that a `CS_BUILD` on its own
records its error in `enc_err` is log 6), `level` is `init_level` at every subframe boundary, `CS[i]` is the block of its
record, `OUT` is whole subframes, every instance's registers fit its mode, and the stores keep their canonical form. -/
def Obligations.EveryStepKeepsInvariant : Prop :=
  ∀ (s t : State), s.Inv → step s = .next t → t.Inv

/-! ## Sample generator -/

/-- R120: the names `none`, `fixed` and `ramp` construct the three policies; any other name, and a `fixed` or `ramp`
whose value is not an integer, fails. That a name that is no string is one of the other names is DEDUCED (log 15). -/
def Obligations.PolicyConstruction : Prop :=
  (∀ v : FieldVal, constructPolicy ⟨.str "none", v⟩ = some .none)
  ∧ (∀ v : Int, constructPolicy ⟨.str "fixed", .int v⟩ = some (.fixed v)
      ∧ constructPolicy ⟨.str "ramp", .int v⟩ = some (.ramp v))
  ∧ (∀ v : FieldVal, (∀ k, v ≠ .int k) →
      constructPolicy ⟨.str "fixed", v⟩ = none ∧ constructPolicy ⟨.str "ramp", v⟩ = none)
  ∧ ∀ name v : FieldVal, name ≠ .str "none" → name ≠ .str "fixed" → name ≠ .str "ramp" →
      constructPolicy ⟨name, v⟩ = none

/-- R122 and R123: the result of `GEN_NEXT` for each policy, as integers mod `2^24`; no state is written. -/
def Obligations.GenNextResult : Prop :=
  ∀ (s : State) (prev : Option Sample),
    (∃ t, exec (.genNext prev .none) s = .next t ∧ answers s t .enc (.sample none) [] ∧ sameRegisters s t)
    ∧ (∀ v : Int, ∃ t y, exec (.genNext prev (.fixed v)) s = .next t ∧ answers s t .enc (.sample (some y)) []
        ∧ (y.toNat : Int) = v % 2 ^ 24 ∧ sameRegisters s t)
    ∧ ∀ step : Int,
        (∀ x, prev = some x → ∃ t y, exec (.genNext prev (.ramp step)) s = .next t
          ∧ answers s t .enc (.sample (some y)) [] ∧ (y.toNat : Int) = (x.toNat + step) % 2 ^ 24 ∧ sameRegisters s t)
        ∧ (prev = none → ∃ t, exec (.genNext prev (.ramp step)) s = .next t ∧ answers s t .enc (.sample none) []
          ∧ sameRegisters s t)

/-- R125: the closed forms of the sample sequence of R124. -/
def Obligations.SampleSequenceClosedForms : Prop :=
  ∀ (seed : Sample) (j : Nat),
    sampleAt .none seed j = none
    ∧ (∀ v : Int, ∃ y, sampleAt (.fixed v) seed j = some y ∧ (y.toNat : Int) = v % 2 ^ 24)
    ∧ ∀ step : Int, ∃ y, sampleAt (.ramp step) seed j = some y
        ∧ (y.toNat : Int) = (seed.toNat + (j + 1) * step) % 2 ^ 24

/-! ## Channel status -/

/-- R142 to R148: for a record whose every field is legal, `CS_BUILD` answers the block whose bits the tables give;
no state is written. The two OPEN codes of R143 are whatever the parameters hold. -/
def Obligations.CsBuildBlock : Prop :=
  ∀ (s : State) (r : CsRecord) (prof dig copy : Bool) (pre mode : String) (lbit src chan rate depth : Int)
    (extra : List Int),
    (∀ f : CsField, f.legal (r.get f) = true) →
    r.get .professional = .bool prof → r.get .digitalAudio = .bool dig → r.get .copyright = .bool copy →
    r.get .preEmphasis = .str pre → r.get .mode = .str mode → r.get .lBit = .int lbit →
    r.get .sourceNumber = .int src → r.get .channelNumber = .int chan → r.get .sampleRate = .int rate →
    r.get .bitDepth = .int depth → r.get .extraBytes = .ints extra →
    ∃ t cs, exec (.csBuild r) s = .next t ∧ answers s t .enc (.csBlock cs) [] ∧ sameRegisters s t
      ∧ cs.getLsbD 0 = prof ∧ cs.getLsbD 1 = !dig ∧ cs.getLsbD 2 = !copy
      ∧ (∀ k < 3, cs.getLsbD (3 + k) = (pre.toList[k]? == some '1'))
      ∧ (∀ k < 2, cs.getLsbD (6 + k) = (mode.toList[k]? == some '1'))
      ∧ (∀ k < 3, cs.getLsbD (8 + k) = s.params.catcodeDD.getLsbD k)
      ∧ (∀ k < 4, cs.getLsbD (11 + k) = s.params.categoryOther.getLsbD k)
      ∧ cs.getLsbD 15 = (lbit == 1)
      ∧ (∀ k < 4, cs.getLsbD (16 + k) = src.toNat.testBit k ∧ cs.getLsbD (20 + k) = chan.toNat.testBit k)
      ∧ (rate, [cs.getLsbD 24, cs.getLsbD 25, cs.getLsbD 26, cs.getLsbD 27])
          ∈ [(44100, [false, false, false, false]), (48000, [false, true, false, false]),
             (88200, [false, false, false, true]), (96000, [false, true, false, true]),
             (176400, [false, false, true, true]), (192000, [false, true, true, true]),
             (24000, [false, true, true, false]), (22050, [false, false, true, false])]
      ∧ (∀ k < 4, cs.getLsbD (28 + k) = false)
      ∧ cs.getLsbD 32 = decide (20 < depth)
      ∧ (15 < depth → (depth, [cs.getLsbD 33, cs.getLsbD 34, cs.getLsbD 35])
          ∈ [(24, [true, false, true]), (23, [false, false, true]), (22, [false, true, false]),
             (21, [false, true, true]), (20, [true, false, true]), (19, [false, false, true]),
             (18, [false, true, false]), (17, [false, true, true]), (16, [true, false, false])])
      ∧ (depth ≤ 15 → cs.getLsbD 33 = false ∧ cs.getLsbD 34 = false ∧ cs.getLsbD 35 = false)
      ∧ (∀ k < 4, cs.getLsbD (36 + k) = false)
      ∧ ∀ n < 19, ∀ k < 8, cs.getLsbD (40 + 8 * n + k) = (extra.getD n 0).toNat.testBit k

/-- R140: the name of each field, in the record's order; the legal values of each, whatever value HOST gives it (a value
of another type, and a missing `sample_rate` or `bit_depth`, is illegal); and the value used: the one given, or the
default of a field left out. -/
def Obligations.CsFieldLegalValues : Prop :=
  (∀ (f : CsField) (name : String), f.spelling = name ↔
    (f, name) ∈ [(.professional, "professional"), (.digitalAudio, "digital_audio"), (.copyright, "copyright"),
      (.preEmphasis, "pre_emphasis"), (.mode, "mode"), (.categoryCode, "category_code"), (.category, "category"),
      (.lBit, "l_bit"), (.sourceNumber, "source_number"), (.channelNumber, "channel_number"),
      (.sampleRate, "sample_rate"), (.clockAccuracy, "clock_accuracy"), (.bitDepth, "bit_depth"),
      (.originalSampleRate, "original_sample_rate"), (.extraBytes, "extra_bytes")])
  ∧ (∀ (f : CsField) (v : FieldVal), f.legal v = true ↔
    match f with
    | .professional | .digitalAudio | .copyright => ∃ b, v = .bool b
    | .preEmphasis => ∃ s, v = .str s ∧ s.toList.length = 3 ∧ ∀ c ∈ s.toList, c = '0' ∨ c = '1'
    | .mode => ∃ s, v = .str s ∧ s.toList.length = 2 ∧ ∀ c ∈ s.toList, c = '0' ∨ c = '1'
    | .categoryCode => v = .str "digital/digital converters"
    | .category => v = .str "other"
    | .lBit => v = .int 0 ∨ v = .int 1
    | .sourceNumber | .channelNumber => ∃ n : Nat, n ≤ 15 ∧ v = .int n
    | .sampleRate => ∃ n : Int, n ∈ [44100, 48000, 88200, 96000, 176400, 192000, 24000, 22050] ∧ v = .int n
    | .clockAccuracy => v = .str "level II"
    | .bitDepth => ∃ n : Nat, 1 ≤ n ∧ n ≤ 24 ∧ v = .int n
    | .originalSampleRate => v = .str "unknown"
    | .extraBytes => ∃ l, v = .ints l ∧ l.length ≤ 19 ∧ ∀ x ∈ l, 0 ≤ x ∧ x ≤ 255)
  ∧ ∀ r : CsRecord,
      r.get .professional = (if r.professional = .missing then .bool false else r.professional)
      ∧ r.get .digitalAudio = (if r.digitalAudio = .missing then .bool true else r.digitalAudio)
      ∧ r.get .copyright = (if r.copyright = .missing then .bool true else r.copyright)
      ∧ r.get .preEmphasis = (if r.preEmphasis = .missing then .str "000" else r.preEmphasis)
      ∧ r.get .mode = (if r.mode = .missing then .str "00" else r.mode)
      ∧ r.get .categoryCode = (if r.categoryCode = .missing then .str "digital/digital converters" else r.categoryCode)
      ∧ r.get .category = (if r.category = .missing then .str "other" else r.category)
      ∧ r.get .lBit = (if r.lBit = .missing then .int 0 else r.lBit)
      ∧ r.get .sourceNumber = (if r.sourceNumber = .missing then .int 0 else r.sourceNumber)
      ∧ r.get .channelNumber = (if r.channelNumber = .missing then .int 0 else r.channelNumber)
      ∧ r.get .sampleRate = r.sampleRate
      ∧ r.get .clockAccuracy = (if r.clockAccuracy = .missing then .str "level II" else r.clockAccuracy)
      ∧ r.get .bitDepth = r.bitDepth
      ∧ r.get .originalSampleRate = (if r.originalSampleRate = .missing then .str "unknown" else r.originalSampleRate)
      ∧ r.get .extraBytes = (if r.extraBytes = .missing then .ints [] else r.extraBytes)

/-- R149, R300, R302, R306: with a field outside its legal values, `CS_BUILD` answers the error with the first such
field in the order of R140, records it in `enc_err`, appends its event and writes no other register. That R141's "writes
no state" does not speak of the error is DEDUCED (log 6). -/
def Obligations.CsBuildNamesFirstIllegalField : Prop :=
  ∀ (s : State) (r : CsRecord) (before after : List CsField) (f : CsField),
    [.professional, .digitalAudio, .copyright, .preEmphasis, .mode, .categoryCode, .category, .lBit, .sourceNumber,
     .channelNumber, .sampleRate, .clockAccuracy, .bitDepth, .originalSampleRate, .extraBytes]
      = before ++ f :: after →
    (∀ g ∈ before, g.legal (r.get g) = true) → f.legal (r.get f) = false →
    ∃ t, exec (.csBuild r) s = .next t
      ∧ answers s t .enc (.configError ⟨.unsupportedChannelStatusOption, f.spelling⟩)
          [.configError ⟨.unsupportedChannelStatusOption, f.spelling⟩]
      ∧ sameButEnc s t ∧ t.enc = { s.enc with err := some ⟨.unsupportedChannelStatusOption, f.spelling⟩ }

/-! ## Subframes -/

/-- R200: the preamble of a position; no state is written. -/
def Obligations.PreSelectSymbol : Prop :=
  ∀ (s : State) (j i : Nat), ∃ t sym, exec (.preSelect j i) s = .next t ∧ answers s t .enc (.symbol sym) []
    ∧ sameRegisters s t ∧ (sym = .z ↔ i = 0 ∧ 192 ∣ j) ∧ (sym = .x ↔ i = 0 ∧ ¬192 ∣ j) ∧ (sym = .y ↔ 1 ≤ i)

/-- R183: `PARITY` is `popcount mod 2`, and with it appended the population count is even; no state is written. -/
def Obligations.ParityMakesPopcountEven : Prop :=
  ∀ (s : State) (d : BitVec 27), ∃ t p, exec (.parity d) s = .next t ∧ answers s t .enc (.bit p) []
    ∧ sameRegisters s t ∧ p.toNat = popcount (toSeq d) % 2 ∧ popcount (toSeq d ++ [p]) % 2 = 0

/-- R180, R181, R182, R184, R185: `SF_ASSEMBLE` within range, under a configuration in use: every data bit, and even
parity; no state is written. With no configuration held, or out of range, it is refused (R333; that a refusal is a next
state is log 3). -/
def Obligations.SfAssembleSubframe : Prop :=
  (∀ (s : State) (c : EncCfg) (ch : Channel) (j i : Nat),
    s.enc.status = .ready ∨ s.enc.status = .finished → s.enc.cfg = some c → c.channels[i]? = some ch →
    j < 192 * c.nblocks →
    ∃ t d, exec (.sfAssemble j i) s = .next t ∧ answers s t .enc (.subframe (preSelect j i) d) []
      ∧ sameRegisters s t
      ∧ (∀ x, sampleAt ch.policy ch.seed j = some x → ∀ k < 24, d.getLsbD k = x.getLsbD k)
      ∧ (sampleAt ch.policy ch.seed j = none → ∀ k < 24, d.getLsbD k = false)
      ∧ d.getLsbD 24 = ch.v ∧ d.getLsbD 25 = ch.u ∧ d.getLsbD 26 = ch.cs.getLsbD (j % 192)
      ∧ d.getLsbD 27 = (popcount ((toSeq d).take 27) % 2 == 1) ∧ popcount (toSeq d) % 2 = 0)
  ∧ (∀ (s : State) (j i : Nat), notConfigured s →
      ∃ t, exec (.sfAssemble j i) s = .next t ∧ isRefusal s t .notConfigured)
  ∧ ∀ (s : State) (c : EncCfg) (j i : Nat), s.enc.status = .ready ∨ s.enc.status = .finished → s.enc.cfg = some c →
      192 * c.nblocks ≤ j ∨ c.channels.length ≤ i →
      ∃ t, exec (.sfAssemble j i) s = .next t ∧ isRefusal s t .outOfRange

/-! ## Line code -/

/-- R220, R222, R223, R224: the half-cells of `BMC_ENCODE`: the preamble pattern, then for each data bit a boundary
transition and a mid-cell transition exactly when the bit is 1; the level after is the last half-cell. No state is
written. -/
def Obligations.BmcEncodeHalfCells : Prop :=
  ∀ (s : State) (sym : Sym) (d : DataBits) (L : Bool),
    ∃ t h last, exec (.bmcEncode sym d L) s = .next t ∧ answers s t .enc (.halfCells h last) [] ∧ sameRegisters s t
      ∧ (toSeq h).take 8 = pat sym L ∧ h.getLsbD 0 = !L ∧ h.getLsbD 7 = L
      ∧ (∀ c < 28, h.getLsbD (8 + 2 * c) = !h.getLsbD (7 + 2 * c)
          ∧ h.getLsbD (9 + 2 * c) = (h.getLsbD (8 + 2 * c) ^^ d.getLsbD c))
      ∧ last = h.getLsbD 63

/-- R226, R223: with even population count `BMC_ENCODE` answers the level it was given, with odd its complement. -/
def Obligations.LevelInvariance : Prop :=
  ∀ (s : State) (sym : Sym) (d : DataBits) (L : Bool), ∃ t h last, exec (.bmcEncode sym d L) s = .next t
    ∧ answers s t .enc (.halfCells h last) []
    ∧ (popcount (toSeq d) % 2 = 0 → last = L) ∧ (popcount (toSeq d) % 2 = 1 → last = !L)

/-- R225, R77: `PACK` in either order; no state is written. -/
def Obligations.PackBytes : Prop :=
  ∀ (s : State) (h : BitVec 64), ∃ t bs, exec (.pack h) s = .next t ∧ answers s t .enc (.bytes bs) []
    ∧ sameRegisters s t ∧ bs.length = 8
    ∧ ∀ n b, bs[n]? = some b → ∀ k < 8,
        (s.params.packOrder = .lsbFirst → b.getLsbD k = h.getLsbD (8 * n + k))
        ∧ (s.params.packOrder = .msbFirst → b.getLsbD (7 - k) = h.getLsbD (8 * n + k))

/-- R227: a byte is unpacked bit 0 first or bit 7 first, as `PACK_ORDER` says; and the bytes `PACK` answers for any 64
half-cells put exactly those half-cells on a decoder's line. -/
def Obligations.UnpackInvertsPack : Prop :=
  (∀ (b : Byte) (k : Nat), k < 8 → (unpackByte .lsbFirst b)[k]? = some (b.getLsbD k)
    ∧ (unpackByte .msbFirst b)[k]? = some (b.getLsbD (7 - k)))
  ∧ ∀ (s : State) (n : Nat) (h : BitVec 64), ∃ t bs, exec (.pack h) s = .next t
      ∧ answers s t .enc (.bytes bs) [] ∧ bs.flatMap (unpackByte s.params.packOrder) = toSeq h
      ∧ exec (.decFeedBytes n bs) s = exec (.decFeed n (toSeq h)) s

/-! ## Encoder engine -/

/-- R202: a configuration of its shape, with every policy constructed and every record legal, is taken whole, and
the engine starts at `p = 0` with `OUT` empty. -/
def Obligations.EncConfigureTakesConfiguration : Prop :=
  ∀ (s : State) (c : EncConfig), c.wf = true → (∀ p ∈ c.channels, (constructPolicy p).isSome) →
    (∀ r ∈ c.csRecords, ∀ f : CsField, f.legal (r.get f) = true) →
    ∃ (t : State) (cfg : EncCfg), exec (.encConfigure c) s = .next t ∧ answers s t .enc .nothing [] ∧ sameButEnc s t
      ∧ t.enc.status = (if 192 * c.nblocks * c.nch = 0 then .finished else .ready) ∧ t.enc.err = none
      ∧ t.enc.cfg = some cfg ∧ t.enc.p = 0 ∧ t.enc.level = c.initLevel ∧ t.enc.out = []
      ∧ cfg.nch = c.nch ∧ cfg.nblocks = c.nblocks ∧ cfg.qs = c.qs ∧ cfg.initLevel = c.initLevel
      ∧ ∀ (i : Nat) (ch : Channel), cfg.channels[i]? = some ch →
          (∃ p, c.channels[i]? = some p ∧ constructPolicy p = some ch.policy) ∧ c.seed[i]? = some ch.seed
          ∧ c.v[i]? = some ch.v ∧ c.u[i]? = some ch.u ∧ c.csRecords[i]? = some ch.cscfg
          ∧ buildCs s.params ch.cscfg = .ok ch.cs

/-- R301: the first channel whose policy name is none of the three, or whose `fixed` or `ramp` value is no integer, is
reported, whatever the channel-status records hold, and the configuration is rejected as a whole. That a name that is no
string is none of the three is DEDUCED (log 15), and that `level` is kept (log 17). -/
def Obligations.EncConfigureReportsFirstBadPolicy : Prop :=
  ∀ (s : State) (c : EncConfig) (good rest : List PolicySpec) (p : PolicySpec), c.wf = true →
    c.channels = good ++ p :: rest → (∀ q ∈ good, (constructPolicy q).isSome) →
    (p.name ≠ .str "none" ∧ p.name ≠ .str "fixed" ∧ p.name ≠ .str "ramp")
      ∨ ((p.name = .str "fixed" ∨ p.name = .str "ramp") ∧ ∀ k, p.value ≠ .int k) →
    ∃ t, exec (.encConfigure c) s = .next t
      ∧ answers s t .enc .nothing [.configError ⟨.unsupportedPolicy, "policy[" ++ toString good.length ++ "]"⟩]
      ∧ sameButEnc s t ∧ t.enc.status = .configError
      ∧ t.enc.err = some ⟨.unsupportedPolicy, "policy[" ++ toString good.length ++ "]"⟩
      ∧ t.enc.cfg = none ∧ t.enc.p = 0 ∧ t.enc.out = [] ∧ t.enc.level = s.enc.level

/-- R302, R309: with every policy constructed, the first record with an illegal field is reported, naming its first
illegal field in the order of R140, and the configuration is rejected as a whole. That `level` is kept is DEDUCED (log
17). -/
def Obligations.EncConfigureReportsFirstBadRecord : Prop :=
  ∀ (s : State) (c : EncConfig) (good rest : List CsRecord) (r : CsRecord) (f : CsField), c.wf = true →
    (∀ q ∈ c.channels, (constructPolicy q).isSome) → c.csRecords = good ++ r :: rest →
    (∀ q ∈ good, ∀ g : CsField, g.legal (q.get g) = true) → r.firstIllegal = some f →
    ∃ t, exec (.encConfigure c) s = .next t
      ∧ answers s t .enc .nothing [.configError ⟨.unsupportedChannelStatusOption, f.spelling⟩]
      ∧ sameButEnc s t ∧ t.enc.status = .configError
      ∧ t.enc.err = some ⟨.unsupportedChannelStatusOption, f.spelling⟩
      ∧ t.enc.cfg = none ∧ t.enc.p = 0 ∧ t.enc.out = [] ∧ t.enc.level = s.enc.level

/-- R203, R204, R37: `ENC_STEP` while `READY` emits the subframe `(p - k) mod N`, `k = cfg.qs mod N`, encoded from
`level` and packed; the 8 bytes are stored at `8p .. 8p + 7` and every other byte of `OUT` is unchanged; `p` advances by
1, `level` is the level of the last half-cell, which is `init_level` again, and the last step sets `FINISHED`. In
`FINISHED` it emits nothing and changes nothing; with no configuration held it is refused (R333; that a refusal is a
next state is log 3, DEDUCED). -/
def Obligations.EncStepEmitsNextSubframe : Prop :=
  (∀ (s : State) (c : EncCfg), s.Inv → s.enc.status = .ready → s.enc.cfg = some c →
    let q := (((s.enc.p : Int) - (c.qs % c.total : Nat)) % (c.total : Int)).toNat
    ∃ t ch, c.channels[q % c.nch]? = some ch ∧ exec .encStep s = .next t
      ∧ (let out := bmcEncode (preSelect (q / c.nch) (q % c.nch)) (subframeBits ch (q / c.nch)) s.enc.level
         let bytes := packHalfCells s.params.packOrder out.1
         answers s t .enc .nothing [.subframeOut bytes] ∧ bytes.length = 8
         ∧ (∀ k < 8, t.enc.out.readByte (8 * s.enc.p + k) = bytes[k]?) ∧ t.enc.level = out.2)
      ∧ (∀ a, a < 8 * s.enc.p ∨ 8 * s.enc.p + 8 ≤ a → t.enc.out.readByte a = s.enc.out.readByte a)
      ∧ t.enc.p = s.enc.p + 1 ∧ t.enc.level = c.initLevel ∧ t.enc.cfg = some c ∧ t.enc.err = s.enc.err
      ∧ t.enc.status = (if s.enc.p + 1 = c.total then .finished else .ready) ∧ sameButEnc s t)
  ∧ (∀ (s : State) (c : EncCfg), s.enc.status = .finished → s.enc.cfg = some c →
      ∃ t, exec .encStep s = .next t ∧ answers s t .enc .nothing [] ∧ sameRegisters s t)
  ∧ ∀ s : State, notConfigured s → ∃ t, exec .encStep s = .next t ∧ isRefusal s t .notConfigured

/-- R206, R37: `ENC_STATUS` answers `(enc_status, enc_err, p, N)`, with `N = 0` while no configuration is held; no
state changes. -/
def Obligations.EncStatusReport : Prop :=
  ∀ s : State, ∃ t N, exec .encStatus s = .next t
    ∧ answers s t .enc (.encReport s.enc.status s.enc.err s.enc.p N) [] ∧ sameRegisters s t
    ∧ (s.enc.cfg = none → N = 0) ∧ ∀ c, s.enc.cfg = some c → N = 192 * c.nblocks * c.channels.length

/-- R205, R208: `ENC_RUN` while `READY`, at any `p`, emits every remaining subframe in output order and ends
in `FINISHED` with `p = N` and `OUT` of `8 · N` bytes; the bytes already in `OUT` are unchanged. -/
def Obligations.EncRunEmitsWholeStream : Prop :=
  ∀ (s : State) (c : EncCfg), s.Inv → s.enc.status = .ready → s.enc.cfg = some c →
    ∃ t, exec .encRun s = .next t ∧ t.enc.status = .finished ∧ t.enc.p = c.total ∧ t.enc.level = c.initLevel
      ∧ t.enc.cfg = some c ∧ sameButEnc s t ∧ t.resp.value = .nothing
      ∧ t.evt = s.evt ++ t.resp.events.map (fun e => (Agent.enc, e))
      ∧ t.resp.events.length = c.total - s.enc.p
      ∧ (∀ k, s.enc.p + k < c.total → ∃ sym d, c.subframeAt (s.enc.p + k) = some (sym, d)
          ∧ t.resp.events[k]?
              = some (.subframeOut (packHalfCells s.params.packOrder (bmcEncode sym d c.initLevel).1)))
      ∧ (∀ a, t.enc.out.readByte a = none ↔ 8 * c.total ≤ a)
      ∧ ∀ a < 8 * s.enc.p, t.enc.out.readByte a = s.enc.out.readByte a

/-- R107: `ENC_RUN` is `ENC_STEP` repeated while `READY`: one `ENC_STEP` and then `ENC_RUN` give the engine and the
events that `ENC_RUN` gives; in every other status it changes no register and emits nothing (DEDUCED, log 7). -/
def Obligations.EncRunRepeatsEncStep : Prop :=
  (∀ (s t u v : State), s.Inv → s.enc.status = .ready → exec .encStep s = .next u → exec .encRun u = .next v →
    exec .encRun s = .next t → t.enc = v.enc ∧ t.evt = v.evt)
  ∧ ∀ s : State, s.enc.status ≠ .ready →
      ∃ t, exec .encRun s = .next t ∧ answers s t .enc .nothing [] ∧ sameRegisters s t

/-- R204, R37: the rotation moves whole subframes: the index of position `p` is `(p - k) mod N` with `k = cfg.qs mod N`,
and every subframe of the unrotated sequence stands at exactly one position. -/
def Obligations.RotationPermutesSubframes : Prop :=
  ∀ c : EncCfg, 0 < c.total →
    (∀ p < c.total, (c.index p : Int) = ((p : Int) - (c.qs % c.total : Nat)) % (c.total : Int))
    ∧ ∀ q < c.total, ∃ p < c.total, c.index p = q ∧ ∀ p' < c.total, c.index p' = q → p' = p

/-! ## Decoder instance -/

/-- R244, R246: one half-cell in `SEARCHING`. A window that is no pattern only moves the window; a window that is a
pattern in either level form acquires. -/
def Obligations.SearchingHalfCell : Prop :=
  ∀ (s : State) (n : Nat) (h : Bool), (s.dec n).mode = .searching →
    let d := s.dec n
    let win := (d.win ++ [h]).drop ((d.win ++ [h]).length - 8)
    ((∀ sym L, win ≠ pat sym L) →
      ∃ t, exec (.decAdvance n h) s = .next t ∧ answers s t (.dec n) .nothing [] ∧ sameButDec n s t
        ∧ t.dec n = { d with win := win })
    ∧ ∀ sym L, win = pat sym L →
        ∃ t, exec (.decAdvance n h) s = .next t ∧ answers s t (.dec n) .nothing [.lock sym] ∧ sameButDec n s t
          ∧ t.dec n =
            { d with
              win := win, mode := .lockedData, prev := h, cell := 0, half := false, data := 0, chk := 0, sym := sym
              ch := if sym = .y then 1 else 0
              cont := false
              started := sym == .z
              frame := if sym = .z then 0 else d.frame }

/-- R250, R252: the first half-cell of a data cell. With a boundary transition it is kept; without one it is a missing
transition: counted, reported with the cell, back to `SEARCHING`, everything else kept. -/
def Obligations.FirstHalfCellOfDataCell : Prop :=
  ∀ (s : State) (n : Nat) (h : Bool), (s.dec n).mode = .lockedData → (s.dec n).half = false →
    let d := s.dec n
    (h ≠ d.prev →
      ∃ t, exec (.decAdvance n h) s = .next t ∧ answers s t (.dec n) .nothing [] ∧ sameButDec n s t
        ∧ t.dec n = { d with a := h, prev := h, half := true, chk := (t.dec n).chk }
        ∧ ∀ k < 28, (t.dec n).chk.getLsbD k = if k = d.cell then true else d.chk.getLsbD k)
    ∧ (h = d.prev →
      ∃ t, exec (.decAdvance n h) s = .next t ∧ answers s t (.dec n) .nothing [.missingTransition d.cell]
        ∧ sameButDec n s t
        ∧ t.dec n =
          { d with
            nMissing := d.nMissing + 1, mode := .searching, win := [h], cont := false, started := false
            zero0 := 0 })

/-- R254: the second half-cell of a data cell before the last is never an error: the bit is whether there was a
mid-cell transition. -/
def Obligations.SecondHalfCellOfDataCell : Prop :=
  ∀ (s : State) (n : Nat) (h : Bool), (s.dec n).mode = .lockedData → (s.dec n).half = true → (s.dec n).cell < 27 →
    let d := s.dec n
    ∃ t, exec (.decAdvance n h) s = .next t ∧ answers s t (.dec n) .nothing [] ∧ sameButDec n s t
      ∧ t.dec n = { d with prev := h, half := false, cell := d.cell + 1, data := (t.dec n).data }
      ∧ ∀ k < 28, (t.dec n).data.getLsbD k = if k = d.cell then (h != d.a) else d.data.getLsbD k

/-- R256, R258: the end of a subframe with even parity: the C bit is stored while `started`, the subframe is reported
as `SUBFRAME` with its descriptor or, before the first Z, as `DISCARD`; then the all-zero run, `DONE` or the next
preamble. -/
def Obligations.EndOfGoodSubframe : Prop :=
  ∀ (s : State) (n : Nat) (h : Bool), (s.dec n).mode = .lockedData → (s.dec n).half = true → (s.dec n).cell = 27 →
    let d := s.dec n
    let data := setBit d.data 27 (h != d.a)
    let f : Fields := { sample := data.setWidth 24, v := data.getLsbD 24, u := data.getLsbD 25, c := data.getLsbD 26,
                        p := data.getLsbD 27 }
    let zero0 := if d.ch = 0 then (if f.c then 0 else d.zero0 + 1) else d.zero0
    let report := if d.started then .subframe (descriptor d.frame d.sym data d.chk) f else .discard f
    popcount (toSeq data) % 2 = 0 →
    ∃ t, exec (.decAdvance n h) s = .next t ∧ sameButDec n s t
      ∧ answers s t (.dec n) .nothing (if 192 ≤ zero0 then [report, .done] else [report])
      ∧ t.dec n =
        { d with
          prev := h, half := false, cell := 28, data := data, zero0 := zero0, cont := true
          csRx := if d.started then csRxWrite d.csRx d.ch (d.frame % 192) f.c else d.csRx
          nDiscard := if d.started then d.nDiscard else d.nDiscard + 1
          mode := if 192 ≤ zero0 then .done else .lockedPreamble
          pbuf := if 192 ≤ zero0 then d.pbuf else []
          pl := if 192 ≤ zero0 then d.pl else h }

/-- R256, R257, R258, R304: the end of a subframe with odd parity: the C bit is stored while `started`; it is counted
and reported as `DECODE_MISMATCH`, with the descriptor (R108) only while `started`; with `halt_on_mismatch` the instance
enters `FATAL`; without it decoding goes on at the next preamble, or in `DONE` when the all-zero run ends. -/
def Obligations.EndOfMismatchedSubframe : Prop :=
  ∀ (s : State) (n : Nat) (h : Bool), (s.dec n).mode = .lockedData → (s.dec n).half = true → (s.dec n).cell = 27 →
    let d := s.dec n
    let data := setBit d.data 27 (h != d.a)
    let f : Fields := { sample := data.setWidth 24, v := data.getLsbD 24, u := data.getLsbD 25, c := data.getLsbD 26,
                        p := data.getLsbD 27 }
    let zero0 := if d.ch = 0 then (if f.c then 0 else d.zero0 + 1) else d.zero0
    let report := Event.decodeMismatch (if d.started then some (descriptor d.frame d.sym data d.chk) else none) f
    let d' := { d with
      prev := h, half := false, cell := 28, data := data, nMismatch := d.nMismatch + 1
      csRx := if d.started then csRxWrite d.csRx d.ch (d.frame % 192) f.c else d.csRx }
    popcount (toSeq data) % 2 = 1 →
    ∃ t, exec (.decAdvance n h) s = .next t ∧ sameButDec n s t
      ∧ (d.haltOnMismatch = true → answers s t (.dec n) .nothing [report]
          ∧ t.dec n = { d' with mode := .fatal, fatalReason := some .decodeMismatch })
      ∧ (d.haltOnMismatch = false →
          answers s t (.dec n) .nothing (if 192 ≤ zero0 then [report, .done] else [report])
          ∧ t.dec n =
            { d' with
              zero0 := zero0, cont := true
              mode := if 192 ≤ zero0 then .done else .lockedPreamble
              pbuf := if 192 ≤ zero0 then d.pbuf else []
              pl := if 192 ≤ zero0 then d.pl else h })

/-- R260, R305: one half-cell at preamble position. The first seven are collected; at the eighth, a pattern of the
level before the preamble enters the data part with the channel and frame of R248 and R249, and anything else is
fatal. -/
def Obligations.PreamblePositionHalfCell : Prop :=
  ∀ (s : State) (n : Nat) (h : Bool), (s.dec n).mode = .lockedPreamble →
    let d := s.dec n
    let pbuf := d.pbuf ++ [h]
    (pbuf.length ≠ 8 →
      ∃ t, exec (.decAdvance n h) s = .next t ∧ answers s t (.dec n) .nothing [] ∧ sameButDec n s t
        ∧ t.dec n = { d with pbuf := pbuf })
    ∧ (∀ sym, pbuf.length = 8 → pbuf = pat sym d.pl →
      ∃ t, exec (.decAdvance n h) s = .next t ∧ answers s t (.dec n) .nothing [] ∧ sameButDec n s t
        ∧ t.dec n =
          { d with
            pbuf := pbuf, mode := .lockedData, prev := h, cell := 0, half := false, data := 0, chk := 0, sym := sym
            ch := if sym = .y then (if d.cont then d.ch + 1 else 1) else 0
            started := d.started || sym == .z
            frame := if sym = .z ∧ d.started = false then 0
              else if sym ≠ .y ∧ d.started = true then d.frame + 1 else d.frame })
    ∧ (pbuf.length = 8 → (∀ sym, pbuf ≠ pat sym d.pl) →
      ∃ t, exec (.decAdvance n h) s = .next t ∧ answers s t (.dec n) .nothing [.unrecognizedPreamble pbuf]
        ∧ sameButDec n s t
        ∧ t.dec n = { d with pbuf := pbuf, mode := .fatal, fatalReason := some .unrecognizedPreamble })

/-- R242, R107, R264: `DONE` and `FATAL` absorb whatever arrives, by every command that puts half-cells on the line:
nothing changes and no event is returned. Only `DEC_RESET` to the instance leaves them. That a line pattern puts its
half-cells there is DEDUCED (log 5). -/
def Obligations.TerminalModesAbsorb : Prop :=
  (∀ (s : State) (n : Nat) (i : Instr), (s.dec n).mode = .done ∨ (s.dec n).mode = .fatal → agentOf i = .dec n →
    i ≠ .decReset n → (∀ halt, i ≠ .decConfigure n halt) → i ≠ .decStatus n →
    ∃ t, exec i s = .next t ∧ answers s t (.dec n) .nothing [] ∧ t.dec n = s.dec n ∧ sameButDec n s t)
  ∧ ∀ (s t : State) (n : Nat) (i : Instr), (s.dec n).mode = .done ∨ (s.dec n).mode = .fatal → i ≠ .decReset n →
      exec i s = .next t → (t.dec n).mode = (s.dec n).mode ∧ (t.dec n).fatalReason = (s.dec n).fatalReason

/-- R262: `DEC_RESET` gives the instance its reset state but for `halt_on_mismatch`, which it keeps, and no event. -/
def Obligations.DecResetKeepsOnlyHalt : Prop :=
  ∀ (s : State) (n : Nat), ∃ t, exec (.decReset n) s = .next t ∧ answers s t (.dec n) .nothing []
    ∧ sameButDec n s t ∧ (t.dec n).hasResetValues ∧ (t.dec n).haltOnMismatch = (s.dec n).haltOnMismatch

/-- R265: `DEC_CONFIGURE` writes `halt_on_mismatch` and nothing else, in any mode. -/
def Obligations.DecConfigureWritesHalt : Prop :=
  ∀ (s : State) (n : Nat) (halt : Bool), ∃ t, exec (.decConfigure n halt) s = .next t
    ∧ answers s t (.dec n) .nothing [] ∧ sameButDec n s t ∧ t.dec n = { s.dec n with haltOnMismatch := halt }

/-- R266: what `DEC_STATUS` returns; no state changes. Which blocks of `cs_rx` are listed is log 8. -/
def Obligations.DecStatusReport : Prop :=
  ∀ (s : State) (n : Nat), ∃ t r, exec (.decStatus n) s = .next t ∧ answers s t (.dec n) (.decReport r) []
    ∧ sameRegisters s t
    ∧ r.mode = (s.dec n).mode ∧ r.fatalReason = (s.dec n).fatalReason ∧ r.ch = (s.dec n).ch
    ∧ r.frame = (s.dec n).frame ∧ r.started = (s.dec n).started ∧ r.nMissing = (s.dec n).nMissing
    ∧ r.nMismatch = (s.dec n).nMismatch ∧ r.nDiscard = (s.dec n).nDiscard
    ∧ r.haltOnMismatch = (s.dec n).haltOnMismatch
    ∧ (∀ c b, b < 192 → csRxRead (s.dec n).csRx c b ≠ none → ∃ k ∈ r.csRx, k.channel = c)
    ∧ ∀ k ∈ r.csRx,
        k.entries.length = 192 ∧ (∀ b < 192, k.entries[b]? = some (csRxRead (s.dec n).csRx k.channel b))
        ∧ k.bytes.length = 24
        ∧ ∀ m < 24,
            (∀ x : Byte, (∀ b < 8, csRxRead (s.dec n).csRx k.channel (8 * m + b) = some (x.getLsbD b)) →
              k.bytes[m]? = some (some x.toNat))
            ∧ ((∃ b < 8, csRxRead (s.dec n).csRx k.channel (8 * m + b) = none) → k.bytes[m]? = some none)

/-- R107, R264: the commands that put several half-cells on the line do what `DEC_ADVANCE` on each in order does, in
every state, and return the concatenation of the events; so do the twelve line patterns of R94 and R95 on the
half-cells the tables write (that a pattern is an instruction is log 5). -/
def Obligations.FeedingIsRepeatedAdvance : Prop :=
  ∀ (s : State) (n : Nat) (i : Instr) (hs : BitSeq),
    (i = .decFeed n hs ∨ (∃ b, i = .decFeedByte n b ∧ hs = unpackByte s.params.packOrder b)
      ∨ (∃ bs, i = .decFeedBytes n bs ∧ hs = bs.flatMap (unpackByte s.params.packOrder))
      ∨ (i, hs) ∈ [(.preambleZL0 n, [true, true, true, false, true, false, false, false]),
          (.preambleZL1 n, [false, false, false, true, false, true, true, true]),
          (.preambleXL0 n, [true, true, true, false, false, false, true, false]),
          (.preambleXL1 n, [false, false, false, true, true, true, false, true]),
          (.preambleYL0 n, [true, true, true, false, false, true, false, false]),
          (.preambleYL1 n, [false, false, false, true, true, false, true, true]),
          (.cellL0B0 n, [true, true]), (.cellL0B1 n, [true, false]),
          (.cellL1B0 n, [false, false]), (.cellL1B1 n, [false, true])]
      ∨ ∃ x, (i, hs) ∈ [(.cellL0Illegal n x, [false, x]), (.cellL1Illegal n x, [true, x])]) →
    ∃ t u, exec i s = .next t ∧ performAll (hs.map (.decAdvance n)) s = .next u
      ∧ (∀ m, t.dec m = u.dec m) ∧ t.enc = u.enc ∧ t.evt = u.evt ∧ t.refused = u.refused ∧ sameButDec n s t
      ∧ t.evt = s.evt ++ t.resp.events.map fun e => (.dec n, e)

/-- R95, R244, R260: a preamble row's pattern at a fresh window locks on its symbol; at preamble position after the
level its row names it enters the data part without an event, and after the other level it is fatal. -/
def Obligations.PreambleRowsOnTheLine : Prop :=
  ∀ (s : State) (n : Nat) (row : Nat → Instr) (sym : Sym) (L : Bool),
    (row, sym, L) ∈ [(Instr.preambleZL0, Sym.z, false), (Instr.preambleZL1, Sym.z, true),
      (Instr.preambleXL0, Sym.x, false), (Instr.preambleXL1, Sym.x, true),
      (Instr.preambleYL0, Sym.y, false), (Instr.preambleYL1, Sym.y, true)] →
    ∃ t, exec (row n) s = .next t ∧ sameButDec n s t
      ∧ ((s.dec n).mode = .searching → (s.dec n).win = [] →
          answers s t (.dec n) .nothing [.lock sym] ∧ (t.dec n).mode = .lockedData ∧ (t.dec n).sym = sym
          ∧ (t.dec n).prev = L ∧ (t.dec n).cell = 0 ∧ (t.dec n).half = false)
      ∧ ((s.dec n).mode = .lockedPreamble → (s.dec n).pbuf = [] → (s.dec n).pl = L →
          answers s t (.dec n) .nothing [] ∧ (t.dec n).mode = .lockedData ∧ (t.dec n).sym = sym
          ∧ (t.dec n).prev = L ∧ (t.dec n).cell = 0 ∧ (t.dec n).half = false)
      ∧ ((s.dec n).mode = .lockedPreamble → (s.dec n).pbuf = [] → (s.dec n).pl = !L →
          answers s t (.dec n) .nothing [.unrecognizedPreamble (pat sym L)] ∧ (t.dec n).mode = .fatal
          ∧ (t.dec n).fatalReason = some .unrecognizedPreamble)

/-- R94, R250, R254: a data cell row after the level its row names decodes to the bit its row names, and leaves the
line at the level the table of R94 gives. -/
def Obligations.DataCellRowsOnTheLine : Prop :=
  ∀ (s : State) (n : Nat) (row : Nat → Instr) (L bit after : Bool),
    (row, L, bit, after) ∈ [(Instr.cellL0B0, false, false, true), (Instr.cellL0B1, false, true, false),
      (Instr.cellL1B0, true, false, false), (Instr.cellL1B1, true, true, true)] →
    (s.dec n).mode = .lockedData → (s.dec n).half = false → (s.dec n).cell < 27 → (s.dec n).prev = L →
    ∃ t, exec (row n) s = .next t ∧ answers s t (.dec n) .nothing [] ∧ sameButDec n s t
      ∧ t.dec n =
        { s.dec n with
          a := !L, prev := after, cell := (s.dec n).cell + 1, data := (t.dec n).data, chk := (t.dec n).chk }
      ∧ (∀ k < 28, (t.dec n).data.getLsbD k = if k = (s.dec n).cell then bit else (s.dec n).data.getLsbD k)
      ∧ ∀ k < 28, (t.dec n).chk.getLsbD k = if k = (s.dec n).cell then true else (s.dec n).chk.getLsbD k

/-- R252, R303: a cell with no boundary transition is a missing transition at its first half-cell, which starts the
new window; its second half-cell is the window's second. -/
def Obligations.IllegalCellRowsOnTheLine : Prop :=
  ∀ (s : State) (n : Nat) (row : Nat → Bool → Instr) (L x : Bool),
    (row, L) ∈ [(Instr.cellL0Illegal, false), (Instr.cellL1Illegal, true)] →
    (s.dec n).mode = .lockedData → (s.dec n).half = false → (s.dec n).prev = L →
    ∃ t, exec (row n x) s = .next t ∧ answers s t (.dec n) .nothing [.missingTransition (s.dec n).cell]
      ∧ sameButDec n s t
      ∧ t.dec n =
        { s.dec n with
          nMissing := (s.dec n).nMissing + 1, mode := .searching, win := [L, x], cont := false, started := false
          zero0 := 0 }

/-- R56: the counters count the `MISSING_TRANSITION`, `DECODE_MISMATCH` and `DISCARD` events; `halt_on_mismatch` is
not written. -/
def Obligations.CountersCountEvents : Prop :=
  ∀ (s : State) (n : Nat) (hs : BitSeq), ∃ t, exec (.decFeed n hs) s = .next t
    ∧ (t.dec n).nMissing = (s.dec n).nMissing
        + t.resp.events.countP (fun e => match e with | .missingTransition _ => true | _ => false)
    ∧ (t.dec n).nMismatch = (s.dec n).nMismatch
        + t.resp.events.countP (fun e => match e with | .decodeMismatch _ _ => true | _ => false)
    ∧ (t.dec n).nDiscard = (s.dec n).nDiscard
        + t.resp.events.countP (fun e => match e with | .discard _ => true | _ => false)
    ∧ (t.dec n).haltOnMismatch = (s.dec n).haltOnMismatch

/-- R309: one half-cell raises at most one error. -/
def Obligations.OneHalfCellRaisesAtMostOneError : Prop :=
  ∀ (s : State) (n : Nat) (h : Bool), ∃ t, exec (.decAdvance n h) s = .next t
    ∧ t.resp.events.countP
        (fun e => match e with
          | .missingTransition _ | .decodeMismatch _ _ | .unrecognizedPreamble _ => true
          | _ => false) ≤ 1

/-- R108: every descriptor the decoder emits, of a `SUBFRAME` or of a `DECODE_MISMATCH`, has the literal form: the
instance's frame, the letter of its symbol, the 24 sample bits it reports, first-transmitted first, and 28 `1`
characters. -/
def Obligations.DescriptorsHaveTheLiteralForm : Prop :=
  ∀ (s t : State) (n : Nat) (h : Bool) (desc : String) (f : Fields), (s.dec n).Inv →
    exec (.decAdvance n h) s = .next t →
    .subframe desc f ∈ t.resp.events ∨ .decodeMismatch (some desc) f ∈ t.resp.events →
    desc = toString (s.dec n).frame ++ " ["
      ++ (match (s.dec n).sym with | .z => "Z" | .x => "X" | .y => "Y") ++ "] - "
      ++ String.ofList ((List.range 24).map fun k => if f.sample.getLsbD k then '1' else '0')
      ++ " 1111111111111111111111111111"

/-! ## Frames over all instructions -/

/-- The commands that read only (R84, R122, R141, R183, R184, R200, R206, R223, R225, R266): every register, every
byte of `OUT`, every instance and `EVT` are unchanged, but for what R300 and R306 give an error that `CS_BUILD` detects:
`enc_err` and the event (log 6). -/
def Obligations.ReadOnlyCommandsFrame : Prop :=
  ∀ (s t : State) (i : Instr),
    (i = .encStatus ∨ (∃ p q, i = .genNext p q) ∨ (∃ r, i = .csBuild r) ∨ (∃ j k, i = .preSelect j k)
      ∨ (∃ j k, i = .sfAssemble j k) ∨ (∃ d, i = .parity d) ∨ (∃ sym d l, i = .bmcEncode sym d l) ∨ (∃ h, i = .pack h)
      ∨ (∃ n, i = .decStatus n) ∨ i = .reserved) →
    exec i s = .next t →
    t.params = s.params ∧ t.decs = s.decs ∧ t.cmds = s.cmds
    ∧ ((∀ r, i = .csBuild r → ∀ f : CsField, f.legal (r.get f) = true) → t.enc = s.enc ∧ t.evt = s.evt)
    ∧ (∀ r f, i = .csBuild r → r.firstIllegal = some f →
        t.enc = { s.enc with err := some ⟨.unsupportedChannelStatusOption, f.spelling⟩ }
        ∧ t.evt = s.evt ++ [(.enc, .configError ⟨.unsupportedChannelStatusOption, f.spelling⟩)])
    ∧ ∀ a, t.enc.out.readByte a = s.enc.out.readByte a

/-- A command for one agent leaves every other agent's registers unchanged (R3, R84), and every byte of `OUT` is
unchanged by a command for a decoder. -/
def Obligations.OtherAgentsAreUntouched : Prop :=
  ∀ (s t : State) (i : Instr), exec i s = .next t →
    (agentOf i = .enc → t.decs = s.decs)
    ∧ ∀ n, agentOf i = .dec n → t.enc = s.enc ∧ (∀ m, m ≠ n → t.dec m = s.dec m)
        ∧ ∀ a, t.enc.out.readByte a = s.enc.out.readByte a

/-! ## Round trips -/

/-- R274 for one subframe: an instance at preamble position, fed the bytes of any subframe of even parity encoded
from its line level, recovers the symbol and every data bit, finds every boundary transition, raises no error, and
reports the subframe with its descriptor once a Z has been received. -/
def Obligations.EncodedSubframeIsRecovered : Prop :=
  ∀ (s : State) (n : Nat) (sym : Sym) (d : DataBits) (L : Bool), (s.dec n).mode = .lockedPreamble →
    (s.dec n).pbuf = [] → (s.dec n).pl = L → popcount (toSeq d) % 2 = 0 →
    let started := (s.dec n).started || sym == .z
    let frame := if sym = .z ∧ (s.dec n).started = false then 0
      else if sym ≠ .y ∧ (s.dec n).started = true then (s.dec n).frame + 1 else (s.dec n).frame
    let f : Fields := { sample := d.setWidth 24, v := d.getLsbD 24, u := d.getLsbD 25, c := d.getLsbD 26,
                        p := d.getLsbD 27 }
    ∃ t, exec (.decFeedBytes n (packHalfCells s.params.packOrder (bmcEncode sym (toSeq d) L).1)) s = .next t
      ∧ sameButDec n s t
      ∧ (t.dec n).data = d ∧ (t.dec n).chk = BitVec.allOnes 28 ∧ (t.dec n).sym = sym ∧ (t.dec n).prev = L
      ∧ (t.dec n).started = started ∧ (t.dec n).frame = frame ∧ (t.dec n).fatalReason = (s.dec n).fatalReason
      ∧ (t.dec n).nMissing = (s.dec n).nMissing ∧ (t.dec n).nMismatch = (s.dec n).nMismatch
      ∧ t.resp.events
          = (if started then .subframe (descriptor frame sym d (BitVec.allOnes 28)) f else .discard f)
            :: (if (t.dec n).mode = .done then [.done] else [])
      ∧ ((t.dec n).mode = .done ∨ (t.dec n).mode = .lockedPreamble ∧ (t.dec n).pbuf = [] ∧ (t.dec n).pl = L)

/-- R274: the whole stream of an accepted configuration with no rotation, fed to a fresh or just reset instance: the
first byte gives `LOCK(Z)`; then there is one `SUBFRAME` per subframe in order, with the fields that were sent and the
frame's descriptor, and no other event; and `cs_rx[i]` is `CS[i]` for every channel. Channel 0's block is not all zero,
so that no 192 consecutive C bits are 0 (R276). -/
def Obligations.EncoderStreamRoundTrip : Prop :=
  ∀ (s : State) (c : EncCfg) (n : Nat) (halt : Bool), s.Inv → s.enc.status = .ready → s.enc.cfg = some c →
    s.enc.p = 0 → c.qs % c.total = 0 → s.dec n = { DecState.reset with haltOnMismatch := halt } → (∀ ch, c.channels[0]? = some ch → ch.cs ≠ 0) →
    ∃ t u, exec .encRun s = .next t
      ∧ exec (.decFeedBytes n (t.enc.out.map Prod.snd)) t = .next u
      ∧ (∃ b v, (t.enc.out.map Prod.snd).head? = some b ∧ exec (.decFeedByte n b) t = .next v
          ∧ v.resp.events = [.lock .z])
      ∧ (u.dec n).nMissing = 0 ∧ (u.dec n).nMismatch = 0 ∧ (u.dec n).fatalReason = none
      ∧ u.resp.events.head? = some (.lock .z) ∧ u.resp.events.length = c.total + 1
      ∧ (∀ q < c.total, ∃ ch d, c.channels[q % c.nch]? = some ch ∧ d = ofSeq 28 (subframeBits ch (q / c.nch))
          ∧ u.resp.events[q + 1]? = some (.subframe
              (descriptor (q / c.nch) (preSelect (q / c.nch) (q % c.nch)) d (BitVec.allOnes 28))
              { sample := (sampleAt ch.policy ch.seed (q / c.nch)).getD 0, v := ch.v, u := ch.u
                c := ch.cs.getLsbD (q / c.nch % 192), p := d.getLsbD 27 }))
      ∧ ∀ (i : Nat) (ch : Channel), c.channels[i]? = some ch →
          ∀ b < 192, csRxRead (u.dec n).csRx i b = some (ch.cs.getLsbD b)
end

