-- ==== Sys2Proof/Laws/Bits.lean ====
section
/-! SUPPORT. Bit sequences and the words that hold them: reading a word back, setting a bit, packing. -/

namespace Sys2Proof.Machine

@[simp] theorem toSeq_length {w : Nat} (x : BitVec w) : (toSeq x).length = w := by simp [toSeq]

theorem toSeq_getElem? {w : Nat} (x : BitVec w) (k : Nat) :
    (toSeq x)[k]? = if k < w then some (x.getLsbD k) else none := by
  by_cases h : k < w
  · simp [toSeq, h]
  · simp [toSeq, h]

theorem testBit_seqNat (s : BitSeq) (k : Nat) : (seqNat s).testBit k = s.getD k false := by
  induction s generalizing k with
  | nil => simp [seqNat]
  | cons b s ih =>
    cases k with
    | zero => cases b <;> simp [seqNat, Nat.add_mod]
    | succ k =>
      have h : (seqNat (b :: s)) / 2 = seqNat s := by
        cases b
        · simp only [seqNat, Bool.toNat_false]; omega
        · simp only [seqNat, Bool.toNat_true]; omega
      rw [Nat.testBit_succ, h, ih]
      rfl

/-- The bits of a word made from a sequence. -/
theorem getLsbD_ofSeq (w : Nat) (s : BitSeq) (k : Nat) :
    (ofSeq w s).getLsbD k = (decide (k < w) && s.getD k false) := by
  simp [ofSeq, BitVec.getLsbD_ofNat, testBit_seqNat]

/-- A word made from a sequence of its own width holds exactly that sequence. -/
theorem toSeq_ofSeq {w : Nat} {s : BitSeq} (h : s.length = w) : toSeq (ofSeq w s) = s := by
  apply List.ext_getElem?
  intro k
  rw [toSeq_getElem?]
  by_cases hk : k < w
  · rw [if_pos hk, getLsbD_ofSeq, List.getD_eq_getElem?_getD, List.getElem?_eq_getElem (h ▸ hk)]
    simp [hk]
  · simp [hk]
    omega

theorem ofSeq_toSeq {w : Nat} (x : BitVec w) : ofSeq w (toSeq x) = x := by
  apply BitVec.eq_of_getLsbD_eq
  intro k hk
  rw [getLsbD_ofSeq, List.getD_eq_getElem?_getD, toSeq_getElem?, if_pos hk]
  simp [hk]

theorem seqNat_lt (s : BitSeq) : seqNat s < 2 ^ s.length := by
  induction s with
  | nil => simp [seqNat]
  | cons b s ih => cases b <;> simp [seqNat, Nat.pow_succ] <;> omega

/-- The bits of a word after one of them is set. -/
theorem getLsbD_setBit {w : Nat} (x : BitVec w) (k j : Nat) (b : Bool) (hj : j < w) :
    (setBit x k b).getLsbD j = if j = k then b else x.getLsbD j := by
  unfold setBit
  have h1 : (1#w <<< k).getLsbD j = decide (j = k) := by
    simp only [BitVec.getLsbD_shiftLeft, BitVec.getLsbD_one]
    by_cases h : j = k
    · subst h; simp [hj]; omega
    · by_cases hlt : j < k
      · simp [hlt, h]
      · simp [h]; omega
  cases b
  · rw [if_neg Bool.false_ne_true, BitVec.getLsbD_and, BitVec.getLsbD_not, h1]
    by_cases h : j = k <;> simp [h, hj]
  · rw [if_pos rfl, BitVec.getLsbD_or, h1]
    by_cases h : j = k <;> simp [h]

/-! ## Parity and population count -/

theorem xorAll_append (s t : BitSeq) : xorAll (s ++ t) = (xorAll s ^^ xorAll t) := by
  induction s with
  | nil => simp [xorAll]
  | cons b s ih => simp [xorAll, ih]

/-- The exclusive or of all bits is the population count mod 2 (R183). -/
theorem toNat_xorAll (s : BitSeq) : (xorAll s).toNat = popcount s % 2 := by
  induction s with
  | nil => rfl
  | cons b s ih =>
    have : popcount s % 2 = 0 ∨ popcount s % 2 = 1 := by omega
    cases b <;> cases hx : xorAll s <;> simp [xorAll, popcount, hx] at ih ⊢ <;> omega

theorem xorAll_eq_false_iff (s : BitSeq) : xorAll s = false ↔ popcount s % 2 = 0 := by
  rw [← toNat_xorAll]
  cases xorAll s <;> simp

/-- A sequence with its parity appended has even population count (R185). -/
theorem xorAll_append_parity (s : BitSeq) : xorAll (s ++ [xorAll s]) = false := by
  simp [xorAll_append, xorAll]

/-! ## Packed bytes -/

/-- Unpacking inverts packing one byte (R227). -/
theorem unpackByte_packByte (o : PackOrder) {h : BitSeq} (hl : h.length = 8) : unpackByte o (packByte o h) = h := by
  cases o with
  | lsbFirst => exact toSeq_ofSeq hl
  | msbFirst => simp [unpackByte, packByte, toSeq_ofSeq (show h.reverse.length = 8 by simpa using hl)]

@[simp] theorem unpackByte_length (o : PackOrder) (b : Byte) : (unpackByte o b).length = 8 := by
  cases o <;> simp [unpackByte]

@[simp] theorem packHalfCells_length (o : PackOrder) (h : BitSeq) : (packHalfCells o h).length = 8 := by
  simp [packHalfCells]

/-! ## Patterns of the line -/

@[simp] theorem pat_length (s : Sym) (L : Bool) : (pat s L).length = 8 := by cases s <;> cases L <;> rfl

/-- The two forms of a pattern are complements (R95). -/
theorem pat_complement (s : Sym) (L : Bool) : pat s (!L) = (pat s L).map (!·) := by
  cases s <;> cases L <;> rfl

/-- A preamble opens with a transition and ends at the level before it (R222). -/
theorem pat_ends (s : Sym) (L : Bool) : (pat s L).head? = some (!L) ∧ (pat s L).getLast? = some L := by
  cases s <;> cases L <;> exact ⟨rfl, rfl⟩

/-- The six patterns differ pairwise (R244). -/
theorem pat_injective {s s' : Sym} {L L' : Bool} (h : pat s L = pat s' L') : s = s' ∧ L = L' := by
  cases s <;> cases L <;> cases s' <;> cases L' <;> first | exact ⟨rfl, rfl⟩ | (exfalso; revert h; decide)

theorem symAfter_eq_some {L : Bool} {h : BitSeq} {s : Sym} : symAfter L h = some s ↔ h = pat s L := by
  constructor
  · intro e
    simpa using List.find?_some e
  · rintro rfl
    cases s <;> cases L <;> rfl

theorem symAfter_eq_none {L : Bool} {h : BitSeq} : symAfter L h = none ↔ ∀ s, h ≠ pat s L := by
  constructor
  · intro e s hs
    rw [symAfter_eq_some.2 hs] at e
    cases e
  · intro e
    cases hs : symAfter L h with
    | none => rfl
    | some s => exact absurd (symAfter_eq_some.1 hs) (e s)

theorem symOfWindow_eq_some {h : BitSeq} {s : Sym} : symOfWindow h = some s ↔ ∃ L, h = pat s L := by
  constructor
  · intro e
    have := List.find?_some e
    simp only [Bool.or_eq_true, beq_iff_eq] at this
    rcases this with h | h
    · exact ⟨_, h⟩
    · exact ⟨_, h⟩
  · rintro ⟨L, rfl⟩
    cases s <;> cases L <;> rfl

theorem symOfWindow_eq_none {h : BitSeq} : symOfWindow h = none ↔ ∀ s L, h ≠ pat s L := by
  constructor
  · intro e s L hs
    rw [symOfWindow_eq_some.2 ⟨L, hs⟩] at e
    cases e
  · intro e
    cases hs : symOfWindow h with
    | none => rfl
    | some s =>
      obtain ⟨L, hL⟩ := symOfWindow_eq_some.1 hs
      exact absurd hL (e s L)

end Sys2Proof.Machine
end

