-- ==== Sys2Proof/Laws/Decode.lean ====
section
/-! SUPPORT. What each operand check answers, and what it answers on an operand the encoder writes. -/

namespace Sys2Proof

open Machine

theorem orBad_eq_ok {o : Option Instr} {i : Instr} : orBad o = .ok i ↔ o = some i := by
  cases o <;> simp [orBad]

/-- Only an encoder configuration record can be ill-formed. -/
theorem wf_of_not_configure {i : Instr} (h : ∀ c, i ≠ .encConfigure c) : i.wf = true := by
  cases i with
  | encConfigure c => exact absurd rfl (h c)
  | _ => rfl

theorem decodeConfigure_eq_ok {r : RawConfig} {i : Instr} :
    decodeConfigure r = .ok i ↔ ∃ c, configOf r = some c ∧ c.wf = true ∧ i = .encConfigure c := by
  unfold decodeConfigure
  cases configOf r with
  | none => exact ⟨fun h => (nomatch h), fun ⟨_, h, _⟩ => (nomatch h)⟩
  | some c =>
    by_cases h : c.wf = true
    · simp only [h, if_true]
      exact ⟨fun e => ⟨c, rfl, h, by injection e with e; exact e.symm⟩, fun ⟨d, hd, _, hi⟩ => by cases hd; rw [hi]⟩
    · simp only [h]
      exact ⟨fun e => (nomatch e), fun ⟨d, hd, hw, _⟩ => by cases hd; exact absurd hw h⟩

@[simp] theorem bitOf_bitOperand (b : Bool) : bitOf (bitOperand b) = some b := by cases b <;> rfl

theorem bitOf_eq_none {n : Int} (h0 : n ≠ 0) (h1 : n ≠ 1) : bitOf n = none := by simp [bitOf, h0, h1]

@[simp] theorem natOf_natCast (n : Nat) : natOf (n : Int) = some n := by
  rw [natOf, if_pos (Int.natCast_nonneg n), Int.toNat_natCast]

@[simp] theorem wordOf_toNat (w : Nat) (x : BitVec w) : wordOf w (x.toNat : Int) = some x := by
  rw [wordOf, if_pos ⟨Int.natCast_nonneg _, by rw [Int.toNat_natCast]; exact x.isLt⟩, Int.toNat_natCast, BitVec.ofNat_toNat, BitVec.setWidth_eq]

@[simp] theorem bitSeqOf_seqOperand (s : BitSeq) : bitSeqOf (seqOperand s) = some s := by
  induction s with
  | nil => rfl
  | cons b s ih =>
    simp only [bitSeqOf, seqOperand] at ih ⊢
    simp [List.mapM_cons, ih]

theorem bitSeqOf_length {l : List Int} {s : BitSeq} (h : bitSeqOf l = some s) : s.length = l.length := by
  induction l generalizing s with
  | nil => simp [bitSeqOf] at h; simp [h]
  | cons n l ih =>
    simp only [bitSeqOf, List.mapM_cons, Option.bind_eq_bind, Option.bind_eq_some_iff, Option.pure_def,
      Option.some.injEq] at h
    obtain ⟨b, -, t, ht, rfl⟩ := h
    simp [ih ht]

@[simp] theorem bitsWordOf_seqOperand {w : Nat} (x : BitVec w) : bitsWordOf w (seqOperand (toSeq x)) = some x := by
  simp [bitsWordOf, ofSeq_toSeq]

theorem bitsWordOf_eq_none {w : Nat} {l : List Int} (h : l.length ≠ w) : bitsWordOf w l = none := by
  unfold bitsWordOf
  cases hs : bitSeqOf l with
  | none => rfl
  | some s => simp [bitSeqOf_length hs, h]

@[simp] theorem symOf_letter (s : Sym) : symOf s.letter = some s := by cases s <;> decide

/-- Reading back a list of operands, each of which is read back. -/
theorem mapM_map_eq_some {α β : Type} {f : α → β} {g : β → Option α} (h : ∀ x, g (f x) = some x) (l : List α) :
    (l.map f).mapM g = some l := by
  induction l with
  | nil => rfl
  | cons x l ih => rw [List.map_cons, List.mapM_cons, h, ih]; rfl

theorem mapM_wordOf_toNat (w : Nat) (l : List (BitVec w)) :
    (l.map fun (x : BitVec w) => (x.toNat : Int)).mapM (wordOf w) = some l :=
  mapM_map_eq_some (wordOf_toNat w) l

theorem mapM_byteOfOperand (l : List Byte) :
    (l.map fun (b : Byte) => Operand.int b.toNat).mapM byteOfOperand = some l :=
  mapM_map_eq_some (f := fun (b : Byte) => Operand.int b.toNat) (fun b => by rw [byteOfOperand, wordOf_toNat]) l

/-- A configuration record written out in full is read back. -/
theorem configOf_rawOfConfig (c : EncConfig) : configOf (rawOfConfig c) = some c := by
  have hs : (c.seed.map fun (x : Sample) => (x.toNat : Int)).mapM (wordOf 24) = some c.seed :=
    mapM_wordOf_toNat 24 c.seed
  have hcs : csArgOf (rawOfConfig c).cs = some c.cs := by cases h : c.cs <;> simp only [rawOfConfig, h, csArgOf]
  unfold configOf
  rw [hcs]
  dsimp only [rawOfConfig, FieldVal.orDefault, FieldVal.toInt?, FieldVal.toInts?, Option.bind_some,
    Option.bind_eq_bind, Option.pure_def]
  rw [natOf_natCast, Option.bind_some, natOf_natCast, Option.bind_some, bitOf_bitOperand, Option.bind_some, hs,
    Option.bind_some, bitSeqOf_seqOperand, Option.bind_some, bitSeqOf_seqOperand, Option.bind_some]

end Sys2Proof
end

