-- ==== Sys2Proof/Laws/State.lean ====
section
/-! SUPPORT. What each update of the state does to each field; and what reading a store after writing it gives. -/

namespace Sys2Proof.Machine

variable {α : Type}

/-! ## Stores -/

@[simp] theorem storeGet_nil (k : Nat) : storeGet ([] : List (Nat × α)) k = none := rfl

@[simp] theorem storeGet_put_same (m : List (Nat × α)) (k : Nat) (x : α) : storeGet (storePut m k x) k = some x := by
  induction m with
  | nil => simp [storePut, storeGet]
  | cons e m ih =>
    obtain ⟨k', v⟩ := e
    simp only [storePut]
    split
    · simp [storeGet]
    · split
      · simp [storeGet]
      · rename_i h1 h2
        have : k' ≠ k := fun h => h2 h.symm
        simp [storeGet, this, ih]

theorem storeGet_put_other (m : List (Nat × α)) {k k' : Nat} (x : α) (h : k' ≠ k) :
    storeGet (storePut m k x) k' = storeGet m k' := by
  induction m with
  | nil => simp [storePut, storeGet, h.symm]
  | cons e m ih =>
    obtain ⟨j, v⟩ := e
    simp only [storePut]
    split
    · simp [storeGet, h.symm]
    · split
      · rename_i h1 h2
        subst h2
        simp [storeGet, h.symm]
      · simp only [storeGet, ih]

@[simp] theorem storeGet_drop_same (m : List (Nat × α)) (k : Nat) : storeGet (storeDrop m k) k = none := by
  induction m with
  | nil => rfl
  | cons e m ih =>
    obtain ⟨j, v⟩ := e
    by_cases h : j = k
    · simpa [storeDrop, h] using ih
    · simpa [storeDrop, h, storeGet] using ih

theorem storeGet_drop_other (m : List (Nat × α)) {k k' : Nat} (h : k' ≠ k) :
    storeGet (storeDrop m k) k' = storeGet m k' := by
  induction m with
  | nil => rfl
  | cons e m ih =>
    obtain ⟨j, v⟩ := e
    by_cases hj : j = k
    · subst hj
      simpa [storeDrop, storeGet, h.symm] using ih
    · by_cases hk : j = k'
      · simp [storeDrop, storeGet, hk, hk ▸ hj]
      · simpa [storeDrop, hj, storeGet, hk] using ih

/-- The canonical form, said by the keys: each is less than all after it. -/
theorem risingKeys_iff (m : List (Nat × α)) : risingKeys m = true ↔ (m.map Prod.fst).Pairwise (· < ·) := by
  induction m with
  | nil => simp [risingKeys]
  | cons e m ih =>
    cases m with
    | nil => simp [risingKeys]
    | cons e' m =>
      obtain ⟨k, v⟩ := e
      obtain ⟨k', v'⟩ := e'
      simp only [risingKeys, Bool.and_eq_true, decide_eq_true_eq, ih]
      simp only [List.map_cons, List.pairwise_cons]
      constructor
      · rintro ⟨hlt, hall, hp⟩
        refine ⟨?_, hall, hp⟩
        intro a ha
        rcases List.mem_cons.1 ha with rfl | ha
        · exact hlt
        · exact lt_trans hlt (hall a ha)
      · rintro ⟨hall, hp⟩
        exact ⟨hall k' (by simp), hp⟩

theorem mem_keys_storePut {m : List (Nat × α)} {k : Nat} {x : α} {e : Nat × α} (h : e ∈ storePut m k x) :
    e = (k, x) ∨ e ∈ m := by
  induction m with
  | nil => simpa [storePut] using h
  | cons e' m ih =>
    obtain ⟨k', v⟩ := e'
    simp only [storePut] at h
    split at h
    · simpa using h
    · split at h
      · rcases List.mem_cons.1 h with h | h
        · exact .inl h
        · exact .inr (List.mem_cons_of_mem _ h)
      · rcases List.mem_cons.1 h with h | h
        · exact .inr (by simp [h])
        · rcases ih h with h | h
          · exact .inl h
          · exact .inr (List.mem_cons_of_mem _ h)

/-- Writing an entry keeps the canonical form. -/
theorem risingKeys_storePut {m : List (Nat × α)} (k : Nat) (x : α) (h : risingKeys m = true) :
    risingKeys (storePut m k x) = true := by
  rw [risingKeys_iff] at *
  induction m with
  | nil => simp [storePut]
  | cons e m ih =>
    obtain ⟨k', v⟩ := e
    simp only [List.map_cons, List.pairwise_cons, storePut] at h ⊢
    split
    · rename_i hlt
      simp only [List.map_cons, List.pairwise_cons]
      refine ⟨?_, h⟩
      intro a ha
      rcases List.mem_cons.1 ha with rfl | ha
      · exact hlt
      · exact lt_trans hlt (h.1 a ha)
    · split
      · rename_i heq
        subst heq
        simpa using h
      · rename_i h1 h2
        simp only [List.map_cons, List.pairwise_cons]
        refine ⟨?_, ih h.2⟩
        intro a ha
        obtain ⟨e, he, rfl⟩ := List.mem_map.1 ha
        rcases mem_keys_storePut he with rfl | he
        · show k' < k
          omega
        · exact h.1 _ (List.mem_map.2 ⟨e, he, rfl⟩)

/-- Unlisting a key keeps the canonical form. -/
theorem risingKeys_storeDrop {m : List (Nat × α)} (k : Nat) (h : risingKeys m = true) :
    risingKeys (storeDrop m k) = true := by
  rw [risingKeys_iff] at *
  exact h.sublist (List.filter_sublist.map _)

/-! ## Byte memory -/

theorem Memory.wf_writeByte {m : Memory} (a : Nat) (b : Byte) (h : m.wf = true) : (m.writeByte a b).wf = true :=
  risingKeys_storePut a b h

/-- Storing bytes keeps the canonical form. -/
theorem Memory.wf_writeBytes {m : Memory} (a : Nat) (bs : List Byte) (h : m.wf = true) :
    (m.writeBytes a bs).wf = true := by
  induction bs generalizing m a with
  | nil => exact h
  | cons b bs ih => exact ih (a + 1) (Memory.wf_writeByte a b h)

/-- Reading after a store: an address outside the stored bytes reads as before. -/
theorem Memory.readByte_writeBytes_outside (m : Memory) (a : Nat) (bs : List Byte) (a' : Nat)
    (h : a' < a ∨ a + bs.length ≤ a') : (m.writeBytes a bs).readByte a' = m.readByte a' := by
  induction bs generalizing m a with
  | nil => rfl
  | cons b bs ih =>
    simp only [List.length_cons] at h
    show Memory.readByte (Memory.writeBytes (m.writeByte a b) (a + 1) bs) a' = _
    rw [ih _ _ (by omega)]
    exact storeGet_put_other m b (by omega)

/-- Reading after a store: the stored bytes. -/
theorem Memory.readByte_writeBytes_inside (m : Memory) (a : Nat) (bs : List Byte) (k : Nat) (h : k < bs.length) :
    (m.writeBytes a bs).readByte (a + k) = bs[k]? := by
  induction bs generalizing m a k with
  | nil => simp at h
  | cons b bs ih =>
    show Memory.readByte (Memory.writeBytes (m.writeByte a b) (a + 1) bs) (a + k) = _
    cases k with
    | zero =>
      rw [Memory.readByte_writeBytes_outside _ _ _ _ (by omega)]
      exact storeGet_put_same m a b
    | succ k =>
      simp only [List.length_cons] at h
      have := ih (m.writeByte a b) (a + 1) k (by omega)
      rw [show a + (k + 1) = a + 1 + k by omega, this]
      rfl

/-! ## Decoder instances -/

@[simp] theorem State.dec_setDec (s : State) (n : Nat) (d : DecState) : (s.setDec n d).dec n = d := by
  by_cases h : d = DecState.reset
  · simp [State.dec, State.setDec, h]
  · simp [State.dec, State.setDec, h]

theorem State.dec_setDec_other (s : State) {n m : Nat} (d : DecState) (h : m ≠ n) :
    (s.setDec n d).dec m = s.dec m := by
  by_cases hd : d = DecState.reset
  · simp [State.dec, State.setDec, hd, storeGet_drop_other _ h]
  · simp [State.dec, State.setDec, hd, storeGet_put_other _ _ h]

@[simp] theorem State.setDec_params (s : State) (n : Nat) (d : DecState) : (s.setDec n d).params = s.params := rfl
@[simp] theorem State.setDec_enc (s : State) (n : Nat) (d : DecState) : (s.setDec n d).enc = s.enc := rfl
@[simp] theorem State.setDec_evt (s : State) (n : Nat) (d : DecState) : (s.setDec n d).evt = s.evt := rfl
@[simp] theorem State.setDec_resp (s : State) (n : Nat) (d : DecState) : (s.setDec n d).resp = s.resp := rfl
@[simp] theorem State.setDec_refused (s : State) (n : Nat) (d : DecState) : (s.setDec n d).refused = s.refused := rfl
@[simp] theorem State.setDec_cmds (s : State) (n : Nat) (d : DecState) : (s.setDec n d).cmds = s.cmds := rfl

/-! ## What HOST sees -/

section respond

variable (s : State) (a : Agent) (v : Value) (es : List Event)

@[simp] theorem State.respond_params : (s.respond a v es).params = s.params := rfl
@[simp] theorem State.respond_enc : (s.respond a v es).enc = s.enc := rfl
@[simp] theorem State.respond_decs : (s.respond a v es).decs = s.decs := rfl
@[simp] theorem State.respond_dec (n : Nat) : (s.respond a v es).dec n = s.dec n := rfl
@[simp] theorem State.respond_refused : (s.respond a v es).refused = s.refused := rfl
@[simp] theorem State.respond_cmds : (s.respond a v es).cmds = s.cmds := rfl
@[simp] theorem State.respond_resp : (s.respond a v es).resp = { value := v, events := es } := rfl
@[simp] theorem State.respond_evt : (s.respond a v es).evt = s.evt ++ es.map fun e => (a, e) := rfl

/-- Answering HOST writes no register. -/
theorem State.respond_frame : sameRegisters s (s.respond a v es) := ⟨rfl, rfl, rfl, rfl, rfl⟩

theorem State.respond_answers : answers s (s.respond a v es) a v es := ⟨rfl, rfl⟩

end respond

section refuse

variable (s : State) (why : RefusedWhy)

@[simp] theorem State.refuse_params : (s.refuse why).params = s.params := rfl
@[simp] theorem State.refuse_enc : (s.refuse why).enc = s.enc := rfl
@[simp] theorem State.refuse_decs : (s.refuse why).decs = s.decs := rfl
@[simp] theorem State.refuse_dec (n : Nat) : (s.refuse why).dec n = s.dec n := rfl
@[simp] theorem State.refuse_evt : (s.refuse why).evt = s.evt := rfl
@[simp] theorem State.refuse_cmds : (s.refuse why).cmds = s.cmds := rfl
@[simp] theorem State.refuse_refused : (s.refuse why).refused = true := rfl
@[simp] theorem State.refuse_resp :
    (s.refuse why).resp = { value := .refused why, events := [] } := rfl

/-- A refusal has the effect R333 gives it. -/
theorem State.refuse_isRefusal : isRefusal s (s.refuse why) why := ⟨rfl, rfl, rfl, rfl, rfl, rfl, rfl⟩

end refuse

section recordError
variable (e : EncState) (x : ConfigError)

@[simp] theorem EncState.recordError_status : (e.recordError x).status = e.status := rfl
@[simp] theorem EncState.recordError_err : (e.recordError x).err = some x := rfl
@[simp] theorem EncState.recordError_cfg : (e.recordError x).cfg = e.cfg := rfl
@[simp] theorem EncState.recordError_p : (e.recordError x).p = e.p := rfl
@[simp] theorem EncState.recordError_level : (e.recordError x).level = e.level := rfl
@[simp] theorem EncState.recordError_out : (e.recordError x).out = e.out := rfl

theorem EncState.errFits_of_none {e : EncState} (h : e.err = none) (hs : e.status ≠ .configError) : e.errFits :=
  ⟨fun h' => absurd h' hs, fun _ _ hx => absurd (h.symm.trans hx) nofun⟩

/-- Recording the error of a `CS_BUILD` keeps the encoder's invariant. -/
theorem EncState.Inv.recordError {P : Params} {e : EncState} (h : e.Inv P) (f : CsField) :
    (e.recordError (csError f)).Inv P :=
  ⟨h.1, ⟨fun _ => nofun, fun _ _ hx => ⟨f, (Option.some.inj hx).symm⟩⟩, h.2.2⟩

end recordError

/-- What taking a configuration error does (R306): `ENC` rejected, the error's event, nothing else. -/
theorem State.takeConfigError_spec (s : State) (e : ConfigError) :
    (s.takeConfigError e).enc = s.enc.reject e ∧ answers s (s.takeConfigError e) .enc .nothing [.configError e]
      ∧ sameButEnc s (s.takeConfigError e) := ⟨rfl, ⟨rfl, rfl⟩, rfl, rfl, rfl, rfl⟩

/-- What putting half-cells on an instance's line does: the instance is fed, its events are reported, nothing else
changes. -/
theorem State.feedDec_spec (s : State) (n : Nat) (hs : BitSeq) :
    (s.feedDec n hs).dec n = ((s.dec n).feed hs).1
      ∧ answers s (s.feedDec n hs) (.dec n) .nothing ((s.dec n).feed hs).2 ∧ sameButDec n s (s.feedDec n hs) := by
  refine ⟨?_, ⟨rfl, rfl⟩, rfl, rfl, ?_, rfl, rfl⟩
  · simp [State.feedDec]
  · intro m hm
    simp [State.feedDec, State.dec_setDec_other s _ hm]

/-- What writing one instance and answering HOST does. -/
theorem State.setDec_respond_spec (s : State) (n : Nat) (d : DecState) (es : List Event) :
    ((s.setDec n d).respond (.dec n) .nothing es).dec n = d
      ∧ answers s ((s.setDec n d).respond (.dec n) .nothing es) (.dec n) .nothing es
      ∧ sameButDec n s ((s.setDec n d).respond (.dec n) .nothing es) := by
  refine ⟨by simp, ⟨rfl, rfl⟩, rfl, rfl, ?_, rfl, rfl⟩
  intro m hm
  simp [State.dec_setDec_other s _ hm]

end Sys2Proof.Machine
end

