-- ==== Sys2Proof/Laws/Encoder.lean ====
section
/-! SUPPORT. What the encoder's operations can do: the samples, the channel-status blocks, the line code, and one
inversion lemma for a configuration and for a step. -/

namespace Sys2Proof.Machine

/-! ## Line code -/

/-- Encoding one sequence after another: the second starts from the level the first leaves (R220). -/
theorem encodeCells_append (L : Bool) (d e : BitSeq) :
    encodeCells L (d ++ e)
      = ((encodeCells L d).1 ++ (encodeCells (encodeCells L d).2 e).1, (encodeCells (encodeCells L d).2 e).2) := by
  induction d generalizing L with
  | nil => rfl
  | cons b d ih => simp [encodeCells, ih]

@[simp] theorem encodeCells_length (L : Bool) (d : BitSeq) : (encodeCells L d).1.length = 2 * d.length := by
  induction d generalizing L with
  | nil => rfl
  | cons b d ih =>
    simp only [encodeCells, List.length_cons, ih]
    omega

/-- The level after data cells: each cell inverts the level once for its boundary and once more for a 1 bit (R226). -/
theorem encodeCells_level (L : Bool) (d : BitSeq) :
    (encodeCells L d).2 = (L ^^ (decide (d.length % 2 = 1) ^^ xorAll d)) := by
  induction d generalizing L with
  | nil => simp [encodeCells, xorAll]
  | cons b d ih =>
    simp only [encodeCells, ih, cellOf, xorAll, List.length_cons]
    have : decide ((d.length + 1) % 2 = 1) = !decide (d.length % 2 = 1) := by
      by_cases h : d.length % 2 = 1
      · simp [h]; omega
      · simp [h]; omega
    rw [this]
    cases L <;> cases b <;> cases decide (d.length % 2 = 1) <;> cases xorAll d <;> rfl

theorem pat_getLastD (s : Sym) (L x : Bool) : (pat s L).getLastD x = L := by cases s <;> cases L <;> rfl

theorem bmcEncode_eq (s : Sym) (d : BitSeq) (L : Bool) :
    bmcEncode s d L = (pat s L ++ (encodeCells L d).1, (encodeCells L d).2) := by
  simp only [bmcEncode, pat_getLastD]

@[simp] theorem bmcEncode_length (s : Sym) (d : BitSeq) (L : Bool) : (bmcEncode s d L).1.length = 8 + 2 * d.length := by
  simp [bmcEncode_eq]

/-- A subframe of even parity ends at the level it started from (R226). -/
theorem bmcEncode_level (s : Sym) {d : BitSeq} (L : Bool) (hl : d.length = 28) (hx : xorAll d = false) :
    (bmcEncode s d L).2 = L := by
  rw [bmcEncode_eq]
  simp [encodeCells_level, hl, hx]

/-! ## Subframes -/

@[simp] theorem payload_length (c : Channel) (j : Nat) : (payload c j).length = 27 := by simp [payload]

@[simp] theorem subframeBits_length (c : Channel) (j : Nat) : (subframeBits c j).length = 28 := by simp [subframeBits]

/-- Every assembled subframe has even parity (R185). -/
theorem xorAll_subframeBits (c : Channel) (j : Nat) : xorAll (subframeBits c j) = false := xorAll_append_parity _

theorem assemble_eq_some {c : EncCfg} {j i : Nat} {sf : Sym × BitSeq} :
    assemble c j i = some sf ↔ j < 192 * c.nblocks ∧ ∃ ch, c.channels[i]? = some ch
      ∧ sf = (preSelect j i, subframeBits ch j) := by
  unfold assemble
  by_cases h : j < Config.blockFrames * c.nblocks
  · rw [if_pos h, Option.map_eq_some_iff]
    exact ⟨fun ⟨ch, hc, e⟩ => ⟨h, ch, hc, e.symm⟩, fun ⟨_, ch, hc, e⟩ => ⟨ch, hc, e.symm⟩⟩
  · rw [if_neg h]
    exact ⟨fun e => (nomatch e), fun ⟨h', _⟩ => absurd h' h⟩

/-- `SF_ASSEMBLE` is in range exactly for the frames and channels of the configuration (R184). -/
theorem assemble_isSome {c : EncCfg} {j i : Nat} : (assemble c j i).isSome ↔ j < 192 * c.nblocks ∧ i < c.nch := by
  rw [Option.isSome_iff_exists]
  constructor
  · rintro ⟨sf, h⟩
    obtain ⟨hj, ch, hc, -⟩ := assemble_eq_some.1 h
    exact ⟨hj, (List.getElem?_eq_some_iff.1 hc).1⟩
  · rintro ⟨hj, hi⟩
    exact ⟨_, assemble_eq_some.2 ⟨hj, _, List.getElem?_eq_getElem hi, rfl⟩⟩

/-! ## The sequence of subframes -/

theorem EncCfg.rotation_lt {c : EncCfg} (h : 0 < c.total) : c.rotation < c.total := by
  unfold EncCfg.rotation
  rw [if_neg (by omega)]
  exact Nat.mod_lt _ h

theorem EncCfg.index_lt {c : EncCfg} (p : Nat) (h : 0 < c.total) : c.index p < c.total := Nat.mod_lt _ h

/-- The index at an output position is `(p - k) mod N` (R204). -/
theorem EncCfg.index_eq {c : EncCfg} (p : Nat) (h : 0 < c.total) :
    (c.index p : Int) = ((p : Int) - c.rotation) % c.total := by
  have hk := EncCfg.rotation_lt h
  unfold EncCfg.index
  rw [Int.natCast_emod]
  push_cast [Nat.le_of_lt hk]
  rw [show (p : Int) + (c.total - c.rotation) = (p - c.rotation) + c.total by ring, Int.add_emod_right]

/-- Every output position holds a subframe of the configuration (R201). -/
theorem EncCfg.index_in_range {c : EncCfg} (p : Nat) (h : 0 < c.total) :
    c.index p / c.nch < 192 * c.nblocks ∧ c.index p % c.nch < c.nch := by
  have hn : 0 < c.nch := by
    rcases Nat.eq_zero_or_pos c.nch with h0 | h0
    · simp [EncCfg.total, h0] at h
    · exact h0
  exact ⟨(Nat.div_lt_iff_lt_mul hn).2 (EncCfg.index_lt p h), Nat.mod_lt _ hn⟩

/-- What stands at an output position (R201, R204). -/
theorem EncCfg.subframeAt_spec {c : EncCfg} (p : Nat) (h : 0 < c.total) :
    ∃ ch, c.channels[c.index p % c.nch]? = some ch
      ∧ c.subframeAt p = some (preSelect (c.index p / c.nch) (c.index p % c.nch),
          subframeBits ch (c.index p / c.nch)) := by
  obtain ⟨hj, hi⟩ := EncCfg.index_in_range p h
  exact ⟨_, List.getElem?_eq_getElem hi, assemble_eq_some.2 ⟨hj, _, List.getElem?_eq_getElem hi, rfl⟩⟩

/-- Every subframe of a configuration is 28 bits of even parity. -/
theorem EncCfg.subframeAt_parity {c : EncCfg} {p : Nat} {sf : Sym × BitSeq} (h : c.subframeAt p = some sf) :
    sf.2.length = 28 ∧ xorAll sf.2 = false := by
  obtain ⟨-, ch, -, rfl⟩ := assemble_eq_some.1 h
  exact ⟨subframeBits_length _ _, xorAll_subframeBits _ _⟩

/-! ## ENC_STEP -/

theorem EncState.inUse_eq_some {e : EncState} {c : EncCfg} :
    e.inUse = some c ↔ (e.status = .ready ∨ e.status = .finished) ∧ e.cfg = some c := by
  unfold EncState.inUse
  cases e.status <;> simp

theorem EncState.inUse_eq_none {e : EncState} :
    e.inUse = none ↔ e.status = .unconfigured ∨ e.status = .configError ∨ e.cfg = none := by
  unfold EncState.inUse
  cases e.status <;> simp

/-- All that one `ENC_STEP` can do (R203): nothing in `FINISHED`; otherwise it emits the subframe at `p`. -/
theorem EncState.advance_cases {P : Params} {e e' : EncState} {es : List Event} (h : e.advance P = some (e', es)) :
    (e.status = .finished ∧ e' = e ∧ es = [])
    ∨ (∃ c sf, e.status = .ready ∧ e.cfg = some c ∧ c.subframeAt e.p = some sf
        ∧ es = [.subframeOut (packHalfCells P.packOrder (bmcEncode sf.1 sf.2 e.level).1)]
        ∧ e' = { e with
            out := e.out.writeBytes (8 * e.p) (packHalfCells P.packOrder (bmcEncode sf.1 sf.2 e.level).1)
            level := e.level
            p := e.p + 1
            status := if e.p + 1 = c.total then .finished else .ready }) := by
  unfold EncState.advance at h
  split at h
  · cases h
  · rename_i c hc
    obtain ⟨hst, hcfg⟩ := EncState.inUse_eq_some.1 hc
    split at h
    · rename_i hf
      cases h
      exact .inl ⟨hf, rfl, rfl⟩
    · rename_i hf
      have hr : e.status = .ready := hst.resolve_right hf
      split at h
      · cases h
      · rename_i sf hsf
        obtain ⟨hl, hx⟩ := EncCfg.subframeAt_parity hsf
        refine .inr ⟨c, sf, hr, hcfg, hsf, ?_⟩
        simp only [encodedSubframe, Option.some.injEq, Prod.mk.injEq] at h
        obtain ⟨rfl, rfl⟩ := h
        refine ⟨rfl, ?_⟩
        simp only [EncState.emitted, statusAfterStep, hr, bmcEncode_level sf.1 e.level hl hx, Config.sfBytes]

/-- In `READY` with a position inside the stream, `ENC_STEP` emits (R203). -/
theorem EncState.advance_ready {P : Params} {e : EncState} {c : EncCfg} (hr : e.status = .ready)
    (hc : e.cfg = some c) (ht : 0 < c.total) : ∃ e' es, e.advance P = some (e', es) := by
  obtain ⟨ch, -, hsf⟩ := EncCfg.subframeAt_spec e.p ht
  unfold EncState.advance
  rw [EncState.inUse_eq_some.2 ⟨.inl hr, hc⟩]
  simp only [hr, hsf]
  exact ⟨_, _, rfl⟩

theorem EncState.advance_eq_none {P : Params} {e : EncState} (h : e.status = .unconfigured ∨ e.status = .configError) :
    e.advance P = none := by
  unfold EncState.advance
  rw [EncState.inUse_eq_none.2 (h.elim .inl (fun h => .inr (.inl h)))]

/-! ## OUT -/

/-- Appending bytes to a stream of `k` bytes gives the stream of `k + n` bytes (R72). -/
theorem Memory.keys_writeBytes_append {m : Memory} {k : Nat} (bs : List Byte) (h : m.map Prod.fst = List.range k) :
    (m.writeBytes k bs).map Prod.fst = List.range (k + bs.length) ∧
    (m.writeBytes k bs).map Prod.snd = m.map Prod.snd ++ bs := by
  have key : ∀ (m : Memory) (k : Nat) (b : Byte), (∀ a ∈ m.map Prod.fst, a < k) →
      m.writeByte k b = m ++ [(k, b)] := by
    intro m k b hm
    induction m with
    | nil => rfl
    | cons e m ih =>
      obtain ⟨a, x⟩ := e
      have ha : a < k := hm a (by simp)
      have := ih fun a' ha' => hm a' (by simp at ha' ⊢; exact .inr ha')
      unfold Memory.writeByte at this ⊢
      rw [storePut, if_neg (by omega), if_neg (by omega), this]
      rfl
  induction bs generalizing m k with
  | nil => exact ⟨by simpa [Memory.writeBytes] using h, by simp [Memory.writeBytes]⟩
  | cons b bs ih =>
    have hb := key m k b (by simp [h])
    have h' : (m.writeByte k b).map Prod.fst = List.range (k + 1) := by
      rw [hb]; simp [h, List.range_succ]
    obtain ⟨h1, h2⟩ := ih h'
    refine ⟨?_, ?_⟩
    · rw [List.length_cons, show k + (bs.length + 1) = k + 1 + bs.length by omega]
      exact h1
    · show ((m.writeByte k b).writeBytes (k + 1) bs).map Prod.snd = _
      rw [h2, hb]
      simp

theorem Memory.wf_of_keys {m : Memory} {k : Nat} (h : m.map Prod.fst = List.range k) : m.wf = true := by
  rw [Memory.wf, risingKeys_iff, h]
  exact List.pairwise_lt_range

/-- Reading a stream of `k` bytes: a byte at each offset below `k`, none from `k` on (R72). -/
theorem Memory.readByte_stream {m : Memory} {k : Nat} (h : m.map Prod.fst = List.range k) (a : Nat) :
    m.readByte a = (m.map Prod.snd)[a]? := by
  have gen : ∀ (m : Memory) (i k : Nat), m.map Prod.fst = List.range' i k → ∀ a, i ≤ a →
      m.readByte a = (m.map Prod.snd)[a - i]? := by
    intro m
    induction m with
    | nil => intro i k _ a _; simp [Memory.readByte]
    | cons e m ih =>
      obtain ⟨a', x⟩ := e
      intro i k hk a hia
      cases k with
      | zero => simp at hk
      | succ k =>
        simp only [List.map_cons, List.range'_succ, List.cons.injEq] at hk
        obtain ⟨rfl, hk⟩ := hk
        by_cases ha : a' = a
        · subst ha; simp [Memory.readByte, storeGet]
        · have := ih (a' + 1) k hk a (by omega)
          simp only [Memory.readByte, storeGet, if_neg ha] at this ⊢
          rw [this, show a - a' = (a - (a' + 1)) + 1 by omega]
          rfl
  have := gen m 0 k (by rw [h, List.range_eq_range']) a (Nat.zero_le _)
  simpa using this

/-! ## ENC_CONFIGURE -/

theorem buildCs_eq_ok {P : Params} {r : CsRecord} {cs : CsBlock} :
    buildCs P r = .ok cs ↔ r.firstIllegal = none ∧ cs = ofSeq 192 (csBits P r) := by
  unfold buildCs
  cases r.firstIllegal with
  | none => exact ⟨fun h => by injection h with h; exact ⟨rfl, h.symm⟩, fun ⟨_, h⟩ => by rw [h]⟩
  | some f => exact ⟨fun h => (nomatch h), fun ⟨h, _⟩ => (nomatch h)⟩

theorem buildCs_eq_error {P : Params} {r : CsRecord} {f : CsField} :
    buildCs P r = .error f ↔ r.firstIllegal = some f := by
  unfold buildCs
  cases r.firstIllegal with
  | none => exact ⟨fun h => (nomatch h), fun h => (nomatch h)⟩
  | some g => exact ⟨fun h => by injection h with h; rw [h], fun h => by injection h with h; rw [h]⟩

theorem mem_csFieldOrder (f : CsField) : f ∈ csFieldOrder := by cases f <;> decide

theorem CsRecord.firstIllegal_eq_none {r : CsRecord} :
    r.firstIllegal = none ↔ ∀ f : CsField, f.legal (r.get f) = true := by
  unfold CsRecord.firstIllegal
  rw [List.find?_eq_none]
  exact ⟨fun h f => by simpa using h f (mem_csFieldOrder f), fun h f _ => by simp [h f]⟩

/-- The policies constructed are those of the channels, in order (R202). -/
theorem constructPolicies_ok {i : Nat} {ps : List PolicySpec} {qs : List Policy}
    (h : constructPolicies i ps = .ok qs) : ps.map constructPolicy = qs.map some := by
  induction ps generalizing i qs with
  | nil => simp only [constructPolicies, Except.ok.injEq] at h; subst h; rfl
  | cons p ps ih =>
    simp only [constructPolicies] at h
    split at h
    · cases h
    · rename_i q hq
      split at h
      · rename_i qs' hqs
        cases h
        simp [hq, ih hqs]
      · cases h

theorem constructPolicies_isOk {i : Nat} {ps : List PolicySpec} (h : ∀ p ∈ ps, (constructPolicy p).isSome) :
    ∃ qs, constructPolicies i ps = .ok qs := by
  induction ps generalizing i with
  | nil => exact ⟨[], rfl⟩
  | cons p ps ih =>
    obtain ⟨q, hq⟩ := Option.isSome_iff_exists.1 (h p (by simp))
    obtain ⟨qs, hqs⟩ := ih (i := i + 1) fun p' hp' => h p' (by simp [hp'])
    exact ⟨q :: qs, by simp only [constructPolicies, hq, hqs]⟩

/-- The first channel whose policy cannot be constructed is reported (R202, R301). -/
theorem constructPolicies_error {i : Nat} {good rest : List PolicySpec} {p : PolicySpec}
    (hg : ∀ q ∈ good, (constructPolicy q).isSome) (hp : constructPolicy p = none) :
    constructPolicies i (good ++ p :: rest) = .error (i + good.length) := by
  induction good generalizing i with
  | nil => simp [constructPolicies, hp]
  | cons q good ih =>
    obtain ⟨x, hx⟩ := Option.isSome_iff_exists.1 (hg q (by simp))
    have := ih (i := i + 1) fun q' hq' => hg q' (by simp [hq'])
    simp only [List.cons_append, constructPolicies, hx, this, List.length_cons]
    rw [show i + 1 + good.length = i + (good.length + 1) by omega]

/-- The blocks built are those of the records, in order (R202). -/
theorem buildBlocks_ok {P : Params} {rs : List CsRecord} {css : List CsBlock} (h : buildBlocks P rs = .ok css) :
    rs.map (buildCs P) = css.map .ok := by
  induction rs generalizing css with
  | nil => simp only [buildBlocks, Except.ok.injEq] at h; subst h; rfl
  | cons r rs ih =>
    simp only [buildBlocks] at h
    split at h
    · cases h
    · rename_i cs hcs
      split at h
      · rename_i css' hcss
        cases h
        simp [hcs, ih hcss]
      · cases h

theorem buildBlocks_isOk {P : Params} {rs : List CsRecord} (h : ∀ r ∈ rs, ∀ f : CsField, f.legal (r.get f) = true) :
    ∃ css, buildBlocks P rs = .ok css := by
  induction rs with
  | nil => exact ⟨[], rfl⟩
  | cons r rs ih =>
    have hr := buildCs_eq_ok.2 ⟨CsRecord.firstIllegal_eq_none.2 (h r (by simp)), (rfl : _ = ofSeq 192 (csBits P r))⟩
    obtain ⟨css, hcss⟩ := ih fun r' hr' => h r' (by simp [hr'])
    exact ⟨ofSeq 192 (csBits P r) :: css, by simp only [buildBlocks, hr, hcss]⟩

/-- The first record with an illegal field is reported (R202, R302). -/
theorem buildBlocks_error {P : Params} {good rest : List CsRecord} {r : CsRecord} {f : CsField}
    (hg : ∀ q ∈ good, ∀ g : CsField, g.legal (q.get g) = true) (hr : r.firstIllegal = some f) :
    buildBlocks P (good ++ r :: rest) = .error f := by
  induction good with
  | nil => simp only [List.nil_append, buildBlocks, buildCs_eq_error.2 hr]
  | cons q good ih =>
    have hq := buildCs_eq_ok.2 ⟨CsRecord.firstIllegal_eq_none.2 (hg q (by simp)), (rfl : _ = ofSeq 192 (csBits P q))⟩
    simp only [List.cons_append, buildBlocks, hq, ih fun q' hq' => hg q' (by simp [hq'])]

/-- The channel registers written are those of the lists, entry by entry (R33). -/
theorem channelsOf_spec {qs : List Policy} {xs : List Sample} {vs us : List Bool} {rs : List CsRecord}
    {css : List CsBlock} {n : Nat} (h1 : qs.length = n) (h2 : xs.length = n) (h3 : vs.length = n)
    (h4 : us.length = n) (h5 : rs.length = n) (h6 : css.length = n) :
    (channelsOf qs xs vs us rs css).length = n
      ∧ ∀ (i : Nat) (ch : Channel), (channelsOf qs xs vs us rs css)[i]? = some ch →
          qs[i]? = some ch.policy ∧ xs[i]? = some ch.seed ∧ vs[i]? = some ch.v ∧ us[i]? = some ch.u
            ∧ rs[i]? = some ch.cscfg ∧ css[i]? = some ch.cs := by
  induction n generalizing qs xs vs us rs css with
  | zero =>
    cases qs with
    | nil => simp [channelsOf]
    | cons => simp at h1
  | succ n ih =>
    cases qs with
    | nil => simp at h1
    | cons q qs =>
    cases xs with
    | nil => simp at h2
    | cons x xs =>
    cases vs with
    | nil => simp at h3
    | cons v vs =>
    cases us with
    | nil => simp at h4
    | cons u us =>
    cases rs with
    | nil => simp at h5
    | cons r rs =>
    cases css with
    | nil => simp at h6
    | cons cs css =>
      simp only [List.length_cons, Nat.add_right_cancel_iff] at h1 h2 h3 h4 h5 h6
      obtain ⟨hl, hg⟩ := ih h1 h2 h3 h4 h5 h6
      simp only [channelsOf, List.length_cons, hl, true_and]
      intro i ch hi
      cases i with
      | zero =>
        simp only [List.getElem?_cons_zero, Option.some.injEq] at hi
        subst hi
        simp
      | succ i => simpa using hg i ch (by simpa using hi)

theorem EncConfig.wf_iff {c : EncConfig} :
    c.wf = true ↔ 0 < c.nch ∧ c.seed.length = c.nch ∧ c.v.length = c.nch ∧ c.u.length = c.nch
      ∧ c.csRecords.length = c.nch := by
  unfold EncConfig.wf EncConfig.csRecords
  cases c.cs <;> simp [CsArg.fits, and_assoc]

/-- All that an accepted configuration holds (R33, R34, R202). -/
theorem acceptConfig_ok {P : Params} {c : EncConfig} {cfg : EncCfg} (hw : c.wf = true)
    (h : acceptConfig P c = .ok cfg) :
    cfg.nch = c.nch ∧ cfg.nblocks = c.nblocks ∧ cfg.qs = c.qs ∧ cfg.initLevel = c.initLevel
      ∧ ∀ (i : Nat) (ch : Channel), cfg.channels[i]? = some ch →
          (∃ p, c.channels[i]? = some p ∧ constructPolicy p = some ch.policy) ∧ c.seed[i]? = some ch.seed
            ∧ c.v[i]? = some ch.v ∧ c.u[i]? = some ch.u ∧ c.csRecords[i]? = some ch.cscfg
            ∧ buildCs P ch.cscfg = .ok ch.cs := by
  obtain ⟨-, hs, hv, hu, hr⟩ := EncConfig.wf_iff.1 hw
  unfold acceptConfig at h
  split at h
  · cases h
  · rename_i qs hqs
    split at h
    · cases h
    · rename_i css hcss
      cases h
      have hq := constructPolicies_ok hqs
      have hb := buildBlocks_ok hcss
      have hql : qs.length = c.nch := by simpa [EncConfig.nch] using (congrArg List.length hq).symm
      have hcl : css.length = c.nch := by simpa [hr] using (congrArg List.length hb).symm
      obtain ⟨hl, hg⟩ := channelsOf_spec hql hs hv hu hr hcl
      refine ⟨hl, rfl, rfl, rfl, ?_⟩
      intro i ch hi
      obtain ⟨g1, g2, g3, g4, g5, g6⟩ := hg i ch hi
      refine ⟨?_, g2, g3, g4, g5, ?_⟩
      · have := congrArg (·[i]?) hq
        simp only [List.getElem?_map, g1, Option.map_some, Option.map_eq_some_iff] at this
        exact this
      · have := congrArg (·[i]?) hb
        simp only [List.getElem?_map, g5, g6, Option.map_some, Option.some.injEq] at this
        exact this

end Sys2Proof.Machine
end

