-- ==== Sys2Proof/Laws/Decoder.lean ====
section
/-! SUPPORT. What a decoder instance can do with a half-cell, with several, and with an encoded subframe. -/

namespace Sys2Proof.Machine

/-! ## Feeding -/

@[simp] theorem DecState.feed_nil (d : DecState) : d.feed [] = (d, []) := rfl

theorem DecState.feed_cons (d : DecState) (h : Bool) (hs : BitSeq) :
    d.feed (h :: hs) = (((d.advance h).1.feed hs).1, (d.advance h).2 ++ ((d.advance h).1.feed hs).2) := rfl

/-- Feeding one sequence after another (R264). -/
theorem DecState.feed_append (d : DecState) (hs ks : BitSeq) :
    d.feed (hs ++ ks) = (((d.feed hs).1.feed ks).1, (d.feed hs).2 ++ ((d.feed hs).1.feed ks).2) := by
  induction hs generalizing d with
  | nil => rfl
  | cons h hs ih => simp [DecState.feed_cons, ih]

/-- What holds of an instance and is kept by every half-cell is kept by every sequence. -/
theorem DecState.feed_induction {P : DecState → Prop} (hP : ∀ d h, P d → P (d.advance h).1) {d : DecState}
    (hs : BitSeq) (h : P d) : P (d.feed hs).1 := by
  induction hs generalizing d with
  | nil => exact h
  | cons x hs ih => exact ih (hP d x h)

/-! ## One half-cell, mode by mode (R241) -/

theorem DecState.advance_terminal {d : DecState} (h : Bool) (hm : d.mode = .done ∨ d.mode = .fatal) :
    d.advance h = (d, []) := by
  unfold DecState.advance
  rcases hm with hm | hm <;> rw [hm]

theorem DecState.advance_searching {d : DecState} (h : Bool) (hm : d.mode = .searching) :
    d.advance h = search d h := by unfold DecState.advance; rw [hm]

theorem DecState.advance_first {d : DecState} (h : Bool) (hm : d.mode = .lockedData) (hh : d.half = false) :
    d.advance h = firstHalf d h := by unfold DecState.advance; rw [hm, hh]; rfl

theorem DecState.advance_second {d : DecState} (h : Bool) (hm : d.mode = .lockedData) (hh : d.half = true) :
    d.advance h = secondHalf d h := by unfold DecState.advance; rw [hm, hh]; rfl

theorem DecState.advance_preamble {d : DecState} (h : Bool) (hm : d.mode = .lockedPreamble) :
    d.advance h = preambleHalfCell d h := by unfold DecState.advance; rw [hm]

/-- `DONE` and `FATAL` absorb any input (R242). -/
theorem DecState.feed_terminal {d : DecState} (hs : BitSeq) (hm : d.mode = .done ∨ d.mode = .fatal) :
    d.feed hs = (d, []) := by
  induction hs with
  | nil => rfl
  | cons h hs ih => rw [DecState.feed_cons, DecState.advance_terminal h hm]; simp [ih]

/-! ## Entering a subframe -/

/-- What entering the data part leaves (R247 to R249). -/
theorem enterData_eq (s : Sym) (d : DecState) :
    enterData s d =
      { d with
        mode := .lockedData, cell := 0, half := false, data := 0, chk := 0, sym := s
        ch := if s = .y then (if d.cont then d.ch + 1 else 1) else 0
        started := d.started || s == .z
        frame := if s = .z ∧ d.started = false then 0
          else if s ≠ .y ∧ d.started = true then d.frame + 1 else d.frame } := by
  cases s <;> cases hs : d.started <;> simp [enterData, frameStep, channelIndex, hs]

/-- What acquisition leaves (R246). -/
theorem acquire_eq (s : Sym) (h : Bool) (d : DecState) :
    acquire s h d =
      ({ d with
        mode := .lockedData, prev := h, cell := 0, half := false, data := 0, chk := 0, sym := s
        ch := if s = .y then 1 else 0
        cont := false
        started := s == .z
        frame := if s = .z then 0 else d.frame }, [.lock s]) := by
  cases s <;> simp [acquire, enterData_eq]

/-! ## The end of a subframe -/

/-- What the end of a subframe leaves and reports: every case of R256 to R258. -/
theorem endSubframe_eq (d : DecState) :
    endSubframe d =
      let f := fieldsOf d.data
      let bad := xorAll (toSeq d.data)
      let desc := if d.started then some (descriptor d.frame d.sym d.data d.chk) else none
      let report := if bad then .decodeMismatch desc f else
        match desc with
        | some t => .subframe t f
        | none => .discard f
      let halts := bad && d.haltOnMismatch
      let zero0 := if halts then d.zero0 else zeroRun d.zero0 d.ch f.c
      let quiet := !halts && decide (192 ≤ zero0)
      ({ d with
        csRx := if d.started then csRxWrite d.csRx d.ch (d.frame % 192) f.c else d.csRx
        nMismatch := if bad then d.nMismatch + 1 else d.nMismatch
        nDiscard := if bad || d.started then d.nDiscard else d.nDiscard + 1
        zero0 := zero0
        cont := if halts then d.cont else true
        mode := if halts then .fatal else if quiet then .done else .lockedPreamble
        fatalReason := if halts then some .decodeMismatch else d.fatalReason
        pbuf := if halts || quiet then d.pbuf else []
        pl := if halts || quiet then d.pl else d.prev },
       if quiet then [report, .done] else [report]) := by
  cases hs : d.started <;> cases hx : xorAll (toSeq d.data) <;> cases hh : d.haltOnMismatch <;>
    simp only [endSubframe, parityCheck, finishSubframe, DecState.takeDecodeMismatch, DecState.toFatal, hs, hx, hh,
      if_true, if_false, Bool.false_eq_true, Bool.and_true, Bool.and_false, Bool.true_and, Bool.false_and,
      Bool.not_true, Bool.not_false, Bool.or_true, Bool.or_false, Bool.false_or, Config.doneFrames,
      Config.blockFrames, decide_eq_true_eq]
  all_goals (split <;> rfl)

/-- A half-cell that is not the last of a subframe's data part (R254). -/
theorem secondHalf_of_lt {d : DecState} (h : Bool) (hc : d.cell < 27) :
    secondHalf d h =
      ({ d with data := setBit d.data d.cell (h != d.a), prev := h, half := false, cell := d.cell + 1 }, []) := by
  unfold secondHalf
  have : ¬ d.cell + 1 = Config.dataCells := by simp [Config.dataCells]; omega
  simp only [this, if_false]

theorem secondHalf_last {d : DecState} (h : Bool) (hc : d.cell = 27) :
    secondHalf d h =
      endSubframe { d with data := setBit d.data d.cell (h != d.a), prev := h, half := false, cell := 28 } := by
  unfold secondHalf
  simp only [hc]
  rfl

/-! ## The invariant -/

theorem firstOnes_getLsbD {k j : Nat} (hj : j < 28) : (firstOnes k).getLsbD j = decide (j < k) := by
  rw [firstOnes, BitVec.getLsbD_ofNat, Nat.testBit_two_pow_sub_one, decide_eq_true hj, Bool.true_and]

theorem firstOnes_succ {k : Nat} : setBit (firstOnes k) k true = firstOnes (k + 1) := by
  apply BitVec.eq_of_getLsbD_eq
  intro j hj
  rw [getLsbD_setBit _ _ _ _ hj, firstOnes_getLsbD hj, firstOnes_getLsbD hj]
  by_cases h : j = k
  · simp [h]
  · simp only [h, if_false]
    congr 1
    simp only [eq_iff_iff]
    omega

theorem firstOnes_all : firstOnes 28 = BitVec.allOnes 28 := by decide

theorem DecState.reset_inv : DecState.reset.Inv := by
  refine ⟨by decide, by decide, by decide, rfl, rfl, rfl, rfl⟩

theorem search_inv {d : DecState} (h : Bool) (hi : d.Inv) (hm : d.mode = .searching) : (search d h).1.Inv := by
  obtain ⟨hw, hp, hf, hk, hmode⟩ := hi
  simp only [DecState.modeFits, hm] at hmode hf
  obtain ⟨h1, h2, h3⟩ := hmode
  have hlen : (lastEight (d.win ++ [h])).length ≤ 8 := by simp [lastEight, Config.preHalf]; omega
  unfold search
  cases hsym : symOfWindow (lastEight (d.win ++ [h])) with
  | none =>
    simp only [hsym]
    exact ⟨hlen, hp, by simpa [hm] using hf, hk, by simp only [DecState.modeFits, hm]; exact ⟨h1, h2, h3⟩⟩
  | some s =>
    simp only [hsym, acquire_eq]
    refine ⟨hlen, hp, by simpa using hf, hk, ?_⟩
    simp only [DecState.modeFits]
    refine ⟨by omega, rfl, fun h => (nomatch h), ?_, ?_, by omega⟩
    · intro h; simp [h]
    · intro h; simp [h]

theorem endSubframe_inv {d : DecState} (hi : d.win.length ≤ 8 ∧ d.pbuf.length ≤ 8 ∧ d.fatalReason = none
    ∧ risingKeys d.csRx = true ∧ d.cell = 28 ∧ d.half = false ∧ d.chk = firstOnes 28 ∧ d.zero0 < 192
    ∧ (d.sym = .y → 1 ≤ d.ch) ∧ (d.sym ≠ .y → d.ch = 0)) : (endSubframe d).1.Inv := by
  obtain ⟨hw, hp, hf, hk, hc, hh, hchk, hz, hy, hx⟩ := hi
  rw [endSubframe_eq]
  have hk' : risingKeys (if d.started then csRxWrite d.csRx d.ch (d.frame % 192) (fieldsOf d.data).c else d.csRx) = true := by
    split
    · exact risingKeys_storePut _ _ hk
    · exact hk
  have hzr : zeroRun d.zero0 d.ch (fieldsOf d.data).c ≤ 192 ∧ (192 ≤ zeroRun d.zero0 d.ch (fieldsOf d.data).c → d.ch = 0) := by
    unfold zeroRun
    split
    · rename_i h0; exact ⟨by split <;> omega, fun _ => h0⟩
    · exact ⟨by omega, fun h => by omega⟩
  cases hb : (xorAll (toSeq d.data) && d.haltOnMismatch)
  · simp only [hb, Bool.false_eq_true, if_false, Bool.not_false, Bool.true_and, decide_eq_true_eq, Bool.false_or]
    by_cases hq : 192 ≤ zeroRun d.zero0 d.ch (fieldsOf d.data).c
    · simp only [hq, if_true]
      exact ⟨hw, hp, by simp [hf], hk', by simp only [DecState.modeFits]; exact ⟨by omega, hzr.2 hq, hc⟩⟩
    · simp only [hq, if_false]
      exact ⟨hw, by simp, by simp [hf], hk', by simp only [DecState.modeFits]; exact ⟨by simp, hc, hh, hchk, trivial, trivial, by omega⟩⟩
  · simp only [hb, if_true, Bool.not_true, Bool.false_and, Bool.true_or]
    exact ⟨hw, hp, by simp, hk', by simp only [DecState.modeFits]; exact hz⟩

/-- Every half-cell keeps an instance's invariant. -/
theorem DecState.advance_inv {d : DecState} (h : Bool) (hi : d.Inv) : (d.advance h).1.Inv := by
  cases hm : d.mode with
  | done => rw [DecState.advance_terminal h (.inl hm)]; exact hi
  | fatal => rw [DecState.advance_terminal h (.inr hm)]; exact hi
  | searching => rw [DecState.advance_searching h hm]; exact search_inv h hi hm
  | lockedPreamble =>
    rw [DecState.advance_preamble h hm]
    obtain ⟨hw, hp, hf, hk, hmode⟩ := hi
    simp only [DecState.modeFits, hm] at hmode hf
    obtain ⟨hl, hc, hh, hchk, hcont, hpl, hz⟩ := hmode
    unfold preambleHalfCell
    by_cases hlen : (d.pbuf ++ [h]).length = Config.preHalf
    · simp only [hlen, if_true]
      have hl8 : (d.pbuf ++ [h]).length ≤ 8 := by simp only [Config.preHalf] at hlen; omega
      cases hs : symAfter d.pl (d.pbuf ++ [h]) with
      | none =>
        refine ⟨hw, hl8, by simp [DecState.takeUnrecognizedPreamble, DecState.toFatal], hk, ?_⟩
        simp only [DecState.modeFits, DecState.takeUnrecognizedPreamble, DecState.toFatal]
        exact hz
      | some s =>
        simp only [enterData_eq]
        refine ⟨hw, hl8, by simpa using hf, hk, ?_⟩
        simp only [DecState.modeFits]
        refine ⟨by omega, rfl, fun h => (nomatch h), ?_, ?_, hz⟩
        · intro h; simp only [h, if_true, hcont]; omega
        · intro h; simp [h]
    · simp only [hlen, if_false]
      have : (d.pbuf ++ [h]).length < 8 := by
        simp only [Config.preHalf, List.length_append, List.length_singleton] at hlen ⊢; omega
      refine ⟨hw, Nat.le_of_lt this, by simpa [hm] using hf, hk, ?_⟩
      simp only [DecState.modeFits, hm]
      exact ⟨this, hc, hh, hchk, hcont, hpl, hz⟩
  | lockedData =>
    obtain ⟨hw, hp, hf, hk, hmode⟩ := hi
    simp only [DecState.modeFits, hm] at hmode hf
    obtain ⟨hc, hchk, ha, hy, hx, hz⟩ := hmode
    have hf' : d.fatalReason = none := by simpa using hf
    cases hh : d.half with
    | false =>
      rw [DecState.advance_first h hm hh]
      unfold firstHalf
      simp only [hh, Bool.toNat_false, Nat.add_zero] at hchk
      by_cases hp' : h = d.prev
      · simp only [hp', if_true, DecState.takeMissingTransition]
        exact ⟨by simp, hp, by simp [hf'], hk, by simp only [DecState.modeFits]; exact ⟨trivial, trivial, trivial⟩⟩
      · simp only [hp', if_false]
        refine ⟨hw, hp, by simpa [hm] using hf', hk, ?_⟩
        simp only [DecState.modeFits, hm]
        refine ⟨hc, ?_, fun _ => trivial, hy, hx, hz⟩
        rw [hchk, firstOnes_succ]
        rfl
    | true =>
      rw [DecState.advance_second h hm hh]
      simp only [hh, Bool.toNat_true] at hchk
      by_cases hlt : d.cell < 27
      · rw [secondHalf_of_lt h hlt]
        refine ⟨hw, hp, by simpa [hm] using hf', hk, ?_⟩
        simp only [DecState.modeFits, hm]
        refine ⟨by omega, ?_, fun h => (nomatch h), hy, hx, hz⟩
        rw [hchk]
        rfl
      · have h27 : d.cell = 27 := by omega
        rw [secondHalf_last h h27]
        refine endSubframe_inv ⟨hw, hp, hf', hk, rfl, rfl, ?_, hz, hy, hx⟩
        rw [hchk, h27]

theorem DecState.feed_inv {d : DecState} (hs : BitSeq) (hi : d.Inv) : (d.feed hs).1.Inv :=
  DecState.feed_induction (P := DecState.Inv) (fun _ h hd => DecState.advance_inv h hd) hs hi

/-! ## Encoded cells -/

/-- One encoded data cell after the level the instance holds, not the last of its subframe (R94, R250, R254). -/
theorem DecState.feed_cell {d : DecState} (b : Bool) (hm : d.mode = .lockedData) (hh : d.half = false)
    (hc : d.cell < 27) :
    d.feed [(cellOf d.prev b).1, (cellOf d.prev b).2] =
      ({ d with
        a := !d.prev, prev := (cellOf d.prev b).2, cell := d.cell + 1, data := setBit d.data d.cell b
        chk := setBit d.chk d.cell true }, []) := by
  rw [DecState.feed_cons, DecState.advance_first _ hm hh]
  have hne : ¬ (cellOf d.prev b).1 = d.prev := by simp [cellOf]
  simp only [firstHalf, hne, if_false, List.nil_append]
  rw [DecState.feed_cons, DecState.advance_second (d := { d with a := _, chk := _, prev := _, half := true }) _ hm rfl,
    secondHalf_of_lt _ (by exact hc)]
  have hb : ((cellOf d.prev b).2 != (cellOf d.prev b).1) = b := by cases d.prev <;> cases b <;> rfl
  simp only [hb, DecState.feed_nil, List.append_nil]
  simp [cellOf, hh]

/-- The last encoded data cell of a subframe (R254, R256). -/
theorem DecState.feed_lastCell {d : DecState} (b : Bool) (hm : d.mode = .lockedData) (hh : d.half = false)
    (hc : d.cell = 27) :
    d.feed [(cellOf d.prev b).1, (cellOf d.prev b).2] =
      endSubframe { d with
        a := !d.prev, prev := (cellOf d.prev b).2, cell := 28, data := setBit d.data 27 b
        chk := setBit d.chk 27 true } := by
  rw [DecState.feed_cons, DecState.advance_first _ hm hh]
  have hne : ¬ (cellOf d.prev b).1 = d.prev := by simp [cellOf]
  simp only [firstHalf, hne, if_false, List.nil_append]
  rw [DecState.feed_cons, DecState.advance_second (d := { d with a := _, chk := _, prev := _, half := true }) _ hm rfl,
    secondHalf_last _ (by exact hc)]
  have hb : ((cellOf d.prev b).2 != (cellOf d.prev b).1) = b := by cases d.prev <;> cases b <;> rfl
  simp only [hb, DecState.feed_nil, List.append_nil, hc]
  simp [cellOf, hh]

/-- Encoded data cells, up to the last but one of a subframe: every bit is recovered, every boundary transition
found, no event (R274). -/
theorem DecState.feed_cells {d : DecState} (bits : BitSeq) (hm : d.mode = .lockedData) (hh : d.half = false)
    (hc : d.cell + bits.length ≤ 27) :
    ∃ (a : Bool) (data chk : DataBits), d.feed (encodeCells d.prev bits).1 =
        ({ d with
          a := a, prev := (encodeCells d.prev bits).2, cell := d.cell + bits.length, data := data, chk := chk }, [])
      ∧ ∀ k < 28,
        (data.getLsbD k = if d.cell ≤ k ∧ k < d.cell + bits.length then bits.getD (k - d.cell) false
          else d.data.getLsbD k)
        ∧ (chk.getLsbD k = if d.cell ≤ k ∧ k < d.cell + bits.length then true else d.chk.getLsbD k) := by
  induction bits generalizing d with
  | nil =>
    refine ⟨d.a, d.data, d.chk, rfl, ?_⟩
    intro k _
    have h : ¬(d.cell ≤ k ∧ k < d.cell + ([] : BitSeq).length) := by simp only [List.length_nil]; omega
    rw [if_neg h, if_neg h]
    exact ⟨rfl, rfl⟩
  | cons b bits ih =>
    simp only [List.length_cons] at hc
    have h1 := DecState.feed_cell (d := d) b hm hh (by omega)
    obtain ⟨a, data, chk, h2, h3⟩ := ih (d := { d with
        a := !d.prev, prev := (cellOf d.prev b).2, cell := d.cell + 1, data := setBit d.data d.cell b
        chk := setBit d.chk d.cell true }) hm hh (by show d.cell + 1 + bits.length ≤ 27; omega)
    refine ⟨a, data, chk, ?_, ?_⟩
    · have : (encodeCells d.prev (b :: bits)).1
          = [(cellOf d.prev b).1, (cellOf d.prev b).2] ++ (encodeCells (cellOf d.prev b).2 bits).1 := rfl
      rw [this, DecState.feed_append, h1]
      simp only [List.nil_append]
      rw [h2]
      simp only [List.length_cons, Nat.add_assoc, Nat.add_comm 1]
      rfl
    · intro k hk
      obtain ⟨g1, g2⟩ := h3 k hk
      simp only at g1 g2
      rw [getLsbD_setBit _ _ _ _ hk] at g1 g2
      rw [g1, g2]
      simp only [List.length_cons]
      rcases Nat.lt_trichotomy k d.cell with hlt | heq | hgt
      · rw [if_neg (by omega), if_neg (by omega), if_neg (by omega), if_neg (by omega), if_neg (by omega),
          if_neg (by omega)]
        exact ⟨rfl, rfl⟩
      · subst heq
        rw [if_neg (by omega), if_pos rfl, if_pos (by omega), if_neg (by omega), if_pos rfl, if_pos (by omega)]
        simp
      · by_cases hin : k < d.cell + 1 + bits.length
        · rw [if_pos (by omega), if_pos (by omega), if_pos (by omega), if_pos (by omega),
            show k - d.cell = (k - (d.cell + 1)) + 1 by omega]
          simp
        · rw [if_neg (by omega), if_neg (by omega), if_neg (by omega), if_neg (by omega), if_neg (by omega),
            if_neg (by omega)]
          exact ⟨rfl, rfl⟩

/-- The 28 encoded data cells of a subframe: all bits recovered, all boundary transitions found, then the end of the
subframe (R256, R274). -/
theorem DecState.feed_dataPart {d : DecState} {bits : BitSeq} (hl : bits.length = 28) (hm : d.mode = .lockedData)
    (hh : d.half = false) (hc : d.cell = 0) :
    ∃ a : Bool, d.feed (encodeCells d.prev bits).1 =
      endSubframe { d with
        a := a, prev := (encodeCells d.prev bits).2, cell := 28, data := ofSeq 28 bits
        chk := BitVec.allOnes 28 } := by
  obtain ⟨init, b, rfl⟩ : ∃ init b, bits = init ++ [b] := by
    rcases List.eq_nil_or_concat bits with rfl | ⟨init, b, rfl⟩
    · simp at hl
    · exact ⟨init, b, by simp⟩
  have hi : init.length = 27 := by simpa using hl
  obtain ⟨a, data, chk, h1, h2⟩ := DecState.feed_cells (d := d) init hm hh (by omega)
  rw [encodeCells_append, DecState.feed_append, h1]
  simp only [List.nil_append]
  have h3 := DecState.feed_lastCell (d := { d with
    a := a, prev := (encodeCells d.prev init).2, cell := d.cell + init.length, data := data, chk := chk }) b hm hh
    (by show d.cell + init.length = 27; omega)
  refine ⟨!(encodeCells d.prev init).2, ?_⟩
  have e1 : (encodeCells (encodeCells d.prev init).2 [b]).1
      = [(cellOf (encodeCells d.prev init).2 b).1, (cellOf (encodeCells d.prev init).2 b).2] := rfl
  have e2 : (encodeCells (encodeCells d.prev init).2 [b]).2 = (cellOf (encodeCells d.prev init).2 b).2 := rfl
  rw [e1, e2, h3]
  have hd : setBit data 27 b = ofSeq 28 (init ++ [b]) := by
    apply BitVec.eq_of_getLsbD_eq
    intro k hk
    rw [getLsbD_setBit _ _ _ _ hk, getLsbD_ofSeq, decide_eq_true hk, Bool.true_and, (h2 k hk).1]
    by_cases hk27 : k = 27
    · subst hk27
      simp [hi]
    · rw [if_neg hk27, if_pos (by omega), hc, Nat.sub_zero]
      simp [List.getD_eq_getElem?_getD, List.getElem?_append_left (show k < init.length by omega)]
  have hk : setBit chk 27 true = BitVec.allOnes 28 := by
    apply BitVec.eq_of_getLsbD_eq
    intro k hk
    rw [getLsbD_setBit _ _ _ _ hk, (h2 k hk).2, BitVec.getLsbD_allOnes, decide_eq_true hk]
    by_cases hk27 : k = 27
    · rw [if_pos hk27]
    · rw [if_neg hk27, if_pos (by omega)]
  rw [hd, hk]

/-- Half-cells at preamble position before the eighth are collected (R260). -/
theorem DecState.feed_partialPreamble {d : DecState} (hs : BitSeq) (hm : d.mode = .lockedPreamble)
    (hl : d.pbuf.length + hs.length < 8) : d.feed hs = ({ d with pbuf := d.pbuf ++ hs }, []) := by
  induction hs generalizing d with
  | nil => simp
  | cons h hs ih =>
    simp only [List.length_cons] at hl
    have h1 : d.advance h = ({ d with pbuf := d.pbuf ++ [h] }, []) := by
      rw [DecState.advance_preamble h hm]
      unfold preambleHalfCell
      have : ¬ (d.pbuf ++ [h]).length = Config.preHalf := by
        simp only [Config.preHalf, List.length_append, List.length_singleton]; omega
      simp only [this, if_false]
    have h2 := ih (d := { d with pbuf := d.pbuf ++ [h] }) hm (by
      simp only [List.length_append, List.length_singleton]; omega)
    rw [DecState.feed_cons, h1]
    simp only [List.nil_append]
    rw [h2]
    simp only [List.append_assoc, List.singleton_append]

/-- Eight half-cells at preamble position (R260): the pattern of a symbol after the level before them enters the data
part, anything else is fatal. -/
theorem DecState.feed_preamble {d : DecState} {hs : BitSeq} (hm : d.mode = .lockedPreamble) (hp : d.pbuf = [])
    (hl : hs.length = 8) :
    d.feed hs = match symAfter d.pl hs with
      | some s => ({ enterData s { d with pbuf := hs } with prev := hs.getLastD false }, [])
      | none => ({ d with pbuf := hs, mode := .fatal, fatalReason := some .unrecognizedPreamble },
          [.unrecognizedPreamble hs]) := by
  obtain ⟨init, h, rfl⟩ : ∃ init h, hs = init ++ [h] := by
    rcases List.eq_nil_or_concat hs with rfl | ⟨init, h, rfl⟩
    · simp at hl
    · exact ⟨init, h, by simp⟩
  have hil : init.length = 7 := by simpa using hl
  have h1 : ({ d with pbuf := d.pbuf ++ init } : DecState).advance h = _ :=
    DecState.advance_preamble (d := { d with pbuf := d.pbuf ++ init }) h hm
  rw [DecState.feed_append, DecState.feed_partialPreamble init hm (by simp [hp, hil])]
  simp only [List.nil_append, DecState.feed_cons, DecState.feed_nil, List.append_nil]
  rw [h1]
  unfold preambleHalfCell
  simp only [hp, List.nil_append, hl, Config.preHalf, if_true]
  cases symAfter d.pl (init ++ [h]) with
  | none => rfl
  | some s => simp

/-- The packed bytes of 64 half-cells put exactly those half-cells on the line (R227). -/
theorem unpack_packHalfCells (o : PackOrder) {h : BitSeq} (hl : h.length = 64) :
    (packHalfCells o h).flatMap (unpackByte o) = h := by
  unfold packHalfCells
  rw [List.flatMap_map]
  have : ∀ n < 8, unpackByte o (packByte o ((h.drop (8 * n)).take 8)) = (h.drop (8 * n)).take 8 := by
    intro n hn
    exact unpackByte_packByte o (by simp; omega)
  have e : (List.range Config.sfBytes).flatMap (fun n => unpackByte o (packByte o ((h.drop (8 * n)).take 8)))
      = (List.range Config.sfBytes).flatMap (fun n => (h.drop (8 * n)).take 8) := by
    apply List.flatMap_congr
    intro n hn
    exact this n (by simpa [Config.sfBytes] using hn)
  rw [e]
  have key : ∀ (n : Nat) (l : BitSeq), l.length = 8 * n →
      (List.range n).flatMap (fun n => (l.drop (8 * n)).take 8) = l := by
    intro n
    induction n with
    | zero => intro l hl; simp at hl; simp [hl]
    | succ n ih =>
      intro l hl
      rw [List.range_succ, List.flatMap_append]
      have h1 : (List.range n).flatMap (fun m => (l.drop (8 * m)).take 8)
          = (List.range n).flatMap (fun m => ((l.take (8 * n)).drop (8 * m)).take 8) := by
        apply List.flatMap_congr
        intro m hm
        have : m < n := by simpa using hm
        rw [List.drop_take, List.take_take]
        congr 1
        omega
      rw [h1, ih (l.take (8 * n)) (by simp; omega)]
      simp only [List.flatMap_cons, List.flatMap_nil, List.append_nil]
      have : (l.drop (8 * n)).take 8 = l.drop (8 * n) := List.take_of_length_le (by simp; omega)
      rw [this, List.take_append_drop]
  exact key 8 h hl

end Sys2Proof.Machine
end

