-- ==== Sys2Proof/Laws/Exec.lean ====
section
/-! SUPPORT. What any instruction does, said once over all of them. -/

namespace Sys2Proof.Machine

/-- Whatever the instruction and the state, `exec` answers a next state; it takes no command and writes no parameter;
it never clears the mark of R333; and it appends the events it returns to `EVT`, under the instruction's agent. -/
theorem exec_spec (i : Instr) (s : State) :
    ∃ t, exec i s = .next t ∧ t.cmds = s.cmds ∧ t.params = s.params ∧ (s.refused = true → t.refused = true)
      ∧ t.evt = s.evt ++ t.resp.events.map fun e => (agentOf i, e) := by
  cases i with
  | encConfigure c =>
    simp only [exec, execEncConfigure]
    split
    · split
      · exact ⟨_, rfl, rfl, rfl, id, rfl⟩
      · exact ⟨_, rfl, rfl, rfl, id, rfl⟩
    · exact ⟨_, rfl, rfl, rfl, fun _ => rfl, by simp⟩
  | encStep =>
    simp only [exec, execEncStep]
    split
    · exact ⟨_, rfl, rfl, rfl, fun _ => rfl, by simp⟩
    · exact ⟨_, rfl, rfl, rfl, id, rfl⟩
  | csBuild r =>
    simp only [exec, execCsBuild]
    split
    · exact ⟨_, rfl, rfl, rfl, id, rfl⟩
    · exact ⟨_, rfl, rfl, rfl, id, rfl⟩
  | sfAssemble j i =>
    simp only [exec, execSfAssemble]
    split
    · exact ⟨_, rfl, rfl, rfl, fun _ => rfl, by simp⟩
    · split
      · exact ⟨_, rfl, rfl, rfl, fun _ => rfl, by simp⟩
      · exact ⟨_, rfl, rfl, rfl, id, rfl⟩
  | reserved => exact ⟨_, rfl, rfl, rfl, fun _ => rfl, by simp⟩
  | _ => exact ⟨_, rfl, rfl, rfl, id, rfl⟩

/-- What `CS_BUILD` does (R141, R300): it answers the block and writes nothing, or it answers the first illegal field's
error, which it records in `enc_err` and reports. -/
theorem execCsBuild_spec (r : CsRecord) (s : State) :
    ∃ t, execCsBuild r s = .next t ∧ sameButEnc s t
      ∧ (∀ cs, buildCs s.params r = .ok cs → answers s t .enc (.csBlock cs) [] ∧ t.enc = s.enc)
      ∧ ∀ f, buildCs s.params r = .error f →
          answers s t .enc (.configError (csError f)) [.configError (csError f)]
          ∧ t.enc = s.enc.recordError (csError f) := by
  unfold execCsBuild
  cases buildCs s.params r with
  | ok cs => exact ⟨_, rfl, ⟨rfl, rfl, rfl, rfl⟩, fun _ h => by cases h; exact ⟨⟨rfl, rfl⟩, rfl⟩, nofun⟩
  | error f => exact ⟨_, rfl, ⟨rfl, rfl, rfl, rfl⟩, nofun, fun _ h => by cases h; exact ⟨⟨rfl, rfl⟩, rfl⟩⟩

/-- Only the encoder's commands write `ENC`; only a decoder's commands write its instance. -/
theorem exec_agent {i : Instr} {s t : State} (h : exec i s = .next t) :
    (agentOf i = .enc → t.decs = s.decs)
      ∧ ∀ n, agentOf i = .dec n → t.enc = s.enc ∧ ∀ m, m ≠ n → t.dec m = s.dec m := by
  cases i with
  | encConfigure c =>
    simp only [exec, execEncConfigure] at h
    refine ⟨fun _ => ?_, fun n hn => (nomatch hn)⟩
    split at h
    · split at h <;> (cases h; rfl)
    · cases h; rfl
  | encStep =>
    simp only [exec, execEncStep] at h
    refine ⟨fun _ => ?_, fun n hn => (nomatch hn)⟩
    split at h <;> (cases h; rfl)
  | csBuild r =>
    simp only [exec, execCsBuild] at h
    refine ⟨fun _ => ?_, fun n hn => (nomatch hn)⟩
    split at h <;> (cases h; rfl)
  | sfAssemble j i =>
    simp only [exec, execSfAssemble] at h
    refine ⟨fun _ => ?_, fun n hn => (nomatch hn)⟩
    split at h
    · cases h; rfl
    · split at h <;> (cases h; rfl)
  | decAdvance n _ | decFeedByte n _ | decReset n | decConfigure n _ | decFeed n _ | decFeedBytes n _
  | preambleZL0 n | preambleZL1 n | preambleXL0 n | preambleXL1 n | preambleYL0 n | preambleYL1 n
  | cellL0B0 n | cellL0B1 n | cellL1B0 n | cellL1B1 n | cellL0Illegal n _ | cellL1Illegal n _ =>
    cases h
    refine ⟨fun hn => (nomatch hn), fun k hk => ⟨rfl, fun m hm => ?_⟩⟩
    cases hk
    exact State.dec_setDec_other s _ hm
  | decStatus n =>
    cases h
    exact ⟨fun hn => (nomatch hn), fun k _ => ⟨rfl, fun m _ => rfl⟩⟩
  | _ => cases h; exact ⟨fun _ => rfl, fun n hn => (nomatch hn)⟩

end Sys2Proof.Machine
end

