-- ==== Sys2Proof/Laws/Resync.lean ====
section
/-! SUPPORT. Resynchronisation on an encoder stream (45_biphase_decoder.md rule R270): an instance in `SEARCHING` locks
within 71 half-cells, and one with an empty window then discards at most `192 · NCH - 1` subframes before the first it
reports. The second rests on 30_encoding.md rule R96: no window but a preamble's is a pattern. -/

namespace Sys2Proof.Machine

/-! ## The search window -/

theorem lastEight_of_short {w : BitSeq} (h : w.length ≤ 8) : lastEight w = w := by
  rw [lastEight, show w.length - Config.preHalf = 0 by simp only [Config.preHalf]; omega]
  rfl

theorem lastEight_append {w v : BitSeq} (h : v.length = 8) : lastEight (w ++ v) = v := by
  rw [lastEight, show (w ++ v).length - Config.preHalf = w.length by
    simp only [Config.preHalf, List.length_append]; omega]
  exact List.drop_left

theorem lastEight_lastEight (w : BitSeq) (h : Bool) : lastEight (lastEight w ++ [h]) = lastEight (w ++ [h]) := by
  by_cases hl : w.length ≤ 8
  · rw [lastEight_of_short hl]
  · have hd : lastEight w = w.drop (w.length - 8) := rfl
    have h9 : (w.drop (w.length - 8) ++ [h]).length = 9 := by
      simp only [List.length_append, List.length_drop, List.length_singleton]; omega
    have h1 : lastEight (w.drop (w.length - 8) ++ [h]) = (w.drop (w.length - 8) ++ [h]).drop 1 := by
      rw [lastEight, h9]
      rfl
    have h2 : lastEight (w ++ [h]) = (w ++ [h]).drop (w.length - 8 + 1) := by
      rw [lastEight, show (w ++ [h]).length - Config.preHalf = w.length - 8 + 1 by
        simp only [Config.preHalf, List.length_append, List.length_singleton]; omega]
    rw [hd, h1, h2, ← List.drop_drop, List.drop_append_of_le_length (l₁ := w) (by omega)]

/-- What `SEARCHING` does with half-cells: it acquires on one of them, where the window is a pattern, or the window
holds the last 8 and is no pattern (R244). -/
theorem DecState.feed_searching {d : DecState} (hs : BitSeq) (hm : d.mode = .searching) (hw : d.win.length ≤ 8) :
    (∃ k < hs.length, ∃ s L, lastEight (d.win ++ hs.take (k + 1)) = pat s L ∧ Event.lock s ∈ (d.feed hs).2)
      ∨ d.feed hs = ({ d with win := lastEight (d.win ++ hs) }, [])
        ∧ (hs ≠ [] → ∀ s L, lastEight (d.win ++ hs) ≠ pat s L) := by
  induction hs generalizing d with
  | nil => exact .inr ⟨by simp [lastEight_of_short hw], fun h => absurd rfl h⟩
  | cons h hs ih =>
    rw [DecState.feed_cons, DecState.advance_searching h hm, search]
    cases hsym : symOfWindow (lastEight (d.win ++ [h])) with
    | some s =>
      obtain ⟨L, hL⟩ := symOfWindow_eq_some.1 hsym
      exact .inl ⟨0, by simp, s, L, by simpa using hL, by simp [acquire_eq]⟩
    | none =>
      have hl : (lastEight (d.win ++ [h])).length ≤ 8 := by
        simp only [lastEight, Config.preHalf, List.length_drop]; omega
      have hwin : ∀ ks, lastEight (lastEight (d.win ++ [h]) ++ ks) = lastEight (d.win ++ h :: ks) := by
        intro ks
        induction ks using List.reverseRecOn with
        | nil => simp [lastEight_of_short hl]
        | append_singleton ks k ih =>
          rw [← List.append_assoc, ← lastEight_lastEight, ih, lastEight_lastEight, List.append_assoc, List.cons_append]
      rcases ih (d := { d with win := lastEight (d.win ++ [h]) }) hm hl with ⟨k, hk, s, L, h1, h2⟩ | ⟨h1, h2⟩
      · exact .inl ⟨k + 1, by simpa using hk, s, L, by rw [List.take_succ_cons, ← hwin]; exact h1, by simpa using h2⟩
      · right
        simp only at h1 h2 ⊢
        rw [h1, hwin]
        refine ⟨by simp, fun _ => ?_⟩
        by_cases he : hs = []
        · subst he; exact symOfWindow_eq_none.1 hsym
        · rw [← hwin]; exact h2 he

/-- A preamble anywhere in the input makes an instance in `SEARCHING` acquire no later than at its last half-cell,
whatever its window held before. -/
theorem DecState.locksWithin_preamble {d : DecState} (pre rest : BitSeq) (s : Sym) (L : Bool)
    (hm : d.mode = .searching) (hw : d.win.length ≤ 8) :
    locksWithin d (pre ++ (pat s L ++ rest)) (pre.length + 8) := by
  refine ⟨pre.length + 8, Nat.le_refl _, ?_⟩
  have ht : (pre ++ (pat s L ++ rest)).take (pre.length + 8) = pre ++ pat s L := by
    rw [← List.append_assoc, List.take_append_of_le_length (by simp), List.take_of_length_le (by simp)]
  rw [ht]
  rcases DecState.feed_searching (pre ++ pat s L) hm hw with h | ⟨-, h⟩
  · obtain ⟨-, -, s', -, -, h⟩ := h
    exact ⟨s', h⟩
  · refine absurd ?_ (h (by cases s <;> cases L <;> simp [pat, bitsOf]) s L)
    rw [← List.append_assoc, lastEight_append (pat_length s L)]

/-! ## The stream -/

theorem lineStream_cons (L : Bool) (sf : Sym × BitSeq) (sfs : List (Sym × BitSeq)) :
    lineStream L (sf :: sfs) = pat sf.1 L ++ ((encodeCells L sf.2).1 ++ lineStream L sfs) := by
  simp [lineStream, bmcEncode_eq]

/-- Every subframe of a stream has its 28 data bits, of even parity (R185). -/
def IsStream (sfs : List (Sym × BitSeq)) : Prop := ∀ sf ∈ sfs, sf.2.length = 28 ∧ xorAll sf.2 = false

/-- Input that starts anywhere in a stream is the end of one subframe, of at most 63 half-cells, and then whole
subframes. -/
theorem lineStream_drop (L : Bool) {sfs : List (Sym × BitSeq)} (h : IsStream sfs) (o : Nat) :
    (∃ i, (lineStream L sfs).drop o = lineStream L (sfs.drop i))
      ∨ ∃ i sf m, sf ∈ sfs ∧ 1 ≤ m ∧ m ≤ 63
          ∧ (lineStream L sfs).drop o = (bmcEncode sf.1 sf.2 L).1.drop m ++ lineStream L (sfs.drop i) := by
  induction sfs generalizing o with
  | nil => exact .inl ⟨0, by simp [lineStream]⟩
  | cons sf sfs ih =>
    have hl : (bmcEncode sf.1 sf.2 L).1.length = 64 := by
      rw [bmcEncode_length, (h sf (by simp)).1]
    have hc : lineStream L (sf :: sfs) = (bmcEncode sf.1 sf.2 L).1 ++ lineStream L sfs := rfl
    by_cases h64 : 64 ≤ o
    · have hd : (lineStream L (sf :: sfs)).drop o = (lineStream L sfs).drop (o - 64) := by
        rw [hc, List.drop_append, List.drop_of_length_le (by omega), hl]; rfl
      rw [hd]
      rcases ih (fun x hx => h x (by simp [hx])) (o - 64) with ⟨i, hi⟩ | ⟨i, sf', m, h1, h2, h3, h4⟩
      · exact .inl ⟨i + 1, hi⟩
      · exact .inr ⟨i + 1, sf', m, by simp [h1], h2, h3, h4⟩
    · by_cases h0 : o = 0
      · exact .inl ⟨0, by simp [h0]⟩
      · refine .inr ⟨1, sf, o, by simp, by omega, by omega, ?_⟩
        rw [hc, List.drop_append_of_le_length (by omega)]
        rfl

/-- R270, the bound to `LOCK`: on an encoder stream entered at any half-cell, an instance in `SEARCHING` acquires within
71 half-cells, whatever its window held. -/
theorem DecState.locksWithin_stream {d : DecState} {L : Bool} {sfs : List (Sym × BitSeq)} (h : IsStream sfs) (o : Nat)
    (ho : o + derivedLockBound ≤ (lineStream L sfs).length) (hm : d.mode = .searching) (hw : d.win.length ≤ 8) :
    locksWithin d ((lineStream L sfs).drop o) derivedLockBound := by
  have hlen : derivedLockBound ≤ ((lineStream L sfs).drop o).length := by rw [List.length_drop]; omega
  have key : ∀ (pre : BitSeq) (ts : List (Sym × BitSeq)), pre.length ≤ 63 →
      (lineStream L sfs).drop o = pre ++ lineStream L ts → locksWithin d ((lineStream L sfs).drop o) derivedLockBound := by
    intro pre ts hp he
    cases ts with
    | nil =>
      rw [he] at hlen
      simp only [lineStream, List.flatMap_nil, List.append_nil, derivedLockBound, Config.sfHalf, Config.preHalf] at hlen
      omega
    | cons sf ts =>
      rw [he, lineStream_cons]
      obtain ⟨k, hk, hl⟩ := DecState.locksWithin_preamble pre ((encodeCells L sf.2).1 ++ lineStream L ts) sf.1 L hm hw
      exact ⟨k, by simp only [derivedLockBound, Config.sfHalf, Config.preHalf]; omega, hl⟩
  rcases lineStream_drop L h o with ⟨i, hi⟩ | ⟨i, sf, m, hsf, h1, h2, hi⟩
  · exact key [] _ (by simp) hi
  · exact key _ _ (by rw [List.length_drop, bmcEncode_length, (h sf hsf).1]; omega) hi

/-! ## No window but a preamble's is a pattern (R96) -/

/-- Data cells, the level before them in front: the half-cell at an odd place is the complement of the one before. -/
theorem encodeCells_boundary (L : Bool) (bits : BitSeq) :
    (∀ c < bits.length,
      (L :: (encodeCells L bits).1)[2 * c + 1]? = ((L :: (encodeCells L bits).1)[2 * c]?).map (!·))
    ∧ (L :: (encodeCells L bits).1)[2 * bits.length]? = some (encodeCells L bits).2 := by
  induction bits generalizing L with
  | nil => exact ⟨fun c h => absurd h (Nat.not_lt_zero c), rfl⟩
  | cons b bits ih =>
    have he : (encodeCells L (b :: bits)).1 = (cellOf L b).1 :: (cellOf L b).2 :: (encodeCells (cellOf L b).2 bits).1 :=
      rfl
    obtain ⟨h1, h2⟩ := ih (cellOf L b).2
    rw [he]
    refine ⟨fun c hc => ?_, ?_⟩
    · cases c with
      | zero => rfl
      | succ c =>
        simp only [List.length_cons] at hc
        rw [show 2 * (c + 1) + 1 = (2 * c + 1) + 1 + 1 by omega, show 2 * (c + 1) = 2 * c + 1 + 1 by omega]
        simp only [List.getElem?_cons_succ]
        exact h1 c (by omega)
    · rw [List.length_cons, show 2 * (bits.length + 1) = 2 * bits.length + 1 + 1 by omega]
      simp only [List.getElem?_cons_succ]
      exact h2

/-- A pattern begins with three equal half-cells (R96). -/
theorem pat_run (s : Sym) (L : Bool) :
    (pat s L)[0]? = some (!L) ∧ (pat s L)[1]? = some (!L) ∧ (pat s L)[2]? = some (!L) := by
  cases s <;> cases L <;> exact ⟨rfl, rfl, rfl⟩

/-- The windows that start inside a preamble and end in the data part. -/
theorem window_in_preamble (s : Sym) (L : Bool) :
    ∀ b0 b1 b2 : Bool, ∀ m < 6, m ≠ 0 →
      symOfWindow (((pat s L ++ (encodeCells L [b0, b1, b2]).1).drop m).take 8) = none := by
  cases s <;> cases L <;> decide

/-- R96: in a subframe followed by a preamble of the same level form, a window of 8 half-cells that starts after the
subframe's first half-cell and before the next preamble is no pattern. -/
theorem window_no_pattern {s s' s'' : Sym} {bits : BitSeq} {L L'' : Bool} {m : Nat} (hl : bits.length = 28)
    (hx : xorAll bits = false) (h1 : 1 ≤ m) (h63 : m ≤ 63) :
    (((bmcEncode s bits L).1 ++ pat s' L).drop m).take 8 ≠ pat s'' L'' := by
  rw [bmcEncode_eq]
  by_cases hm : m < 6
  · intro he
    obtain ⟨b0, b1, b2, rest, rfl⟩ : ∃ b0 b1 b2 rest, bits = b0 :: b1 :: b2 :: rest := by
      match bits, hl with
      | b0 :: b1 :: b2 :: rest, _ => exact ⟨b0, b1, b2, rest, rfl⟩
    have hsplit : (encodeCells L (b0 :: b1 :: b2 :: rest)).1
        = (encodeCells L [b0, b1, b2]).1 ++ (encodeCells (encodeCells L [b0, b1, b2]).2 rest).1 := by
      rw [show b0 :: b1 :: b2 :: rest = [b0, b1, b2] ++ rest from rfl, encodeCells_append]
    have hw := window_in_preamble s L b0 b1 b2 m hm (by omega)
    rw [symOfWindow_eq_none] at hw
    refine hw s'' L'' ?_
    have h14 : (pat s L ++ (encodeCells L [b0, b1, b2]).1).length = 14 := by simp
    rw [← he, hsplit, List.append_assoc, List.append_assoc, ← List.append_assoc (pat s L),
      List.drop_append_of_le_length (l₁ := pat s L ++ (encodeCells L [b0, b1, b2]).1) (by omega),
      List.take_append_of_le_length (by rw [List.length_drop]; omega)]
  · intro he
    obtain ⟨hb, hlast⟩ := encodeCells_boundary L bits
    have hL : (encodeCells L bits).2 = L := by
      have := bmcEncode_level s L hl hx
      rwa [bmcEncode_eq] at this
    -- the half-cells from the preamble's last one on
    have hy : ∀ k, (pat s L ++ (encodeCells L bits).1 ++ pat s' L)[7 + k]?
        = ((L :: (encodeCells L bits).1) ++ pat s' L)[k]? := by
      intro k
      have : ∃ init : BitSeq, init.length = 7 ∧ pat s L = init ++ [L] := by
        refine ⟨(pat s L).take 7, by simp, ?_⟩
        cases s <;> cases L <;> rfl
      obtain ⟨init, hi, hp⟩ := this
      rw [hp, List.append_assoc, List.append_assoc, List.getElem?_append_right (by omega),
        show 7 + k - init.length = k by omega]
      rfl
    have hbound : ∀ c ≤ 28, (pat s L ++ (encodeCells L bits).1 ++ pat s' L)[7 + (2 * c + 1)]?
        = ((pat s L ++ (encodeCells L bits).1 ++ pat s' L)[7 + 2 * c]?).map (!·) := by
      intro c hc
      rw [hy, hy]
      have hlen : (L :: (encodeCells L bits).1).length = 57 := by simp [hl]
      by_cases h28 : c = 28
      · subst h28
        rw [List.getElem?_append_right (by omega), List.getElem?_append_left (by omega), hlen]
        rw [hl, hL] at hlast
        rw [hlast]
        exact (pat_run s' L).1
      · rw [List.getElem?_append_left (by omega), List.getElem?_append_left (by omega)]
        exact hb c (by omega)
    obtain ⟨r0, r1, r2⟩ := pat_run s'' L''
    rw [← he] at r0 r1 r2
    simp only [List.getElem?_take, List.getElem?_drop, show (0:Nat) < 8 by omega, show (1:Nat) < 8 by omega,
      show (2:Nat) < 8 by omega, if_true] at r0 r1 r2
    by_cases hpar : m % 2 = 1
    · have := hbound ((m - 7) / 2) (by omega)
      rw [show 7 + 2 * ((m - 7) / 2) = m + 0 by omega, show 7 + (2 * ((m - 7) / 2) + 1) = m + 1 by omega, r0, r1] at this
      cases L'' <;> cases this
    · have := hbound ((m - 6) / 2) (by omega)
      rw [show 7 + 2 * ((m - 6) / 2) = m + 1 by omega, show 7 + (2 * ((m - 6) / 2) + 1) = m + 2 by omega, r1, r2] at this
      cases L'' <;> cases this

/-! ## Discards before the first SUBFRAME -/

/-- The subframes of a stream before its first Z. -/
def beforeZ (sfs : List (Sym × BitSeq)) : Nat := (sfs.takeWhile fun sf => sf.1 != .z).length

theorem xorAll_ofSeq {bits : BitSeq} (hl : bits.length = 28) (hx : xorAll bits = false) :
    xorAll (toSeq (ofSeq 28 bits)) = false := by rw [toSeq_ofSeq hl]; exact hx

/-- From the data part of a subframe of even parity on, through the rest of a stream: nothing is discarded once
`started`, and before that at most this subframe and those before the next Z (R258). -/
theorem DecState.discards_from_data {d : DecState} {L : Bool} {bits : BitSeq} {sfs : List (Sym × BitSeq)}
    (hl : bits.length = 28) (hx : xorAll bits = false) (h : IsStream sfs) (hm : d.mode = .lockedData)
    (hh : d.half = false) (hc : d.cell = 0) (hp : d.prev = L) :
    discardsWithin d ((encodeCells L bits).1 ++ lineStream L sfs) (if d.started then 0 else beforeZ sfs + 1) := by
  induction sfs generalizing d bits with
  | nil =>
    obtain ⟨a, ha⟩ := DecState.feed_dataPart (d := d) hl hm hh hc
    rw [hp] at ha
    simp only [discardsWithin, lineStream, List.flatMap_nil, List.append_nil, ha, endSubframe_eq,
      xorAll_ofSeq hl hx]
    cases d.started <;> simp only [Bool.false_and, Bool.not_false, Bool.true_and, Bool.false_eq_true, if_false,
      if_true, decide_eq_true_eq] <;> split <;> simp [discardsBeforeSubframe, beforeZ]
  | cons sf sfs ih =>
    obtain ⟨hsl, hsx⟩ := h sf (by simp)
    obtain ⟨a, ha⟩ := DecState.feed_dataPart (d := d) hl hm hh hc
    have hlast : (encodeCells L bits).2 = L := by
      have := bmcEncode_level .z L hl hx
      rwa [bmcEncode_eq] at this
    rw [hp, hlast] at ha
    rw [discardsWithin, DecState.feed_append, ha, endSubframe_eq]
    simp only [xorAll_ofSeq hl hx, Bool.false_and, Bool.not_false, Bool.true_and, Bool.false_or, Bool.false_eq_true,
      if_false, decide_eq_true_eq]
    cases hs : d.started with
    | true =>
      simp only [if_true]
      split <;> exact Nat.le_refl _
    | false =>
      simp only [Bool.false_eq_true, if_false]
      by_cases hq : 192 ≤ zeroRun d.zero0 d.ch (fieldsOf (ofSeq 28 bits)).c
      · simp only [hq, if_true]
        rw [DecState.feed_terminal _ (.inl rfl)]
        simp [discardsBeforeSubframe]
      · simp only [hq, if_false, List.cons_append, List.nil_append, discardsBeforeSubframe]
        rw [lineStream_cons, DecState.feed_append, DecState.feed_preamble rfl rfl (pat_length sf.1 L)]
        simp only [symAfter_eq_some.2 rfl, enterData_eq, pat_getLastD, List.nil_append]
        refine Nat.succ_le_succ (Nat.le_trans (ih hsl hsx (fun x hx => h x (by simp [hx])) ?_ ?_ ?_ ?_) ?_)
        · rfl
        · rfl
        · rfl
        · rfl
        · cases hz : sf.1 <;> simp [beforeZ, hz]

/-- An instance with an empty window, fed half-cells in which no window before the end of the first whole preamble is a
pattern, and from that preamble on a stream, discards at most the subframes before the first Z. -/
theorem DecState.discards_from_search {d : DecState} {L : Bool} {pre : BitSeq} {sfs : List (Sym × BitSeq)}
    (h : IsStream sfs) (hm : d.mode = .searching) (hw : d.win = [])
    (hq : ∀ k < pre.length + 8, ∀ s s' L', lastEight ((pre ++ pat s L).take k) ≠ pat s' L') :
    discardsWithin d (pre ++ lineStream L sfs) (beforeZ sfs) := by
  cases sfs with
  | nil =>
    rcases DecState.feed_searching (d := d) (pre ++ lineStream L []) hm (by simp [hw]) with ⟨k, hk, s, L', h1, -⟩ | ⟨h1, -⟩
    · simp only [lineStream, List.flatMap_nil, List.append_nil, hw, List.nil_append] at hk h1
      refine absurd ?_ (hq (k + 1) (by omega) .z s L')
      rw [List.take_append_of_le_length (by omega), h1]
    · rw [discardsWithin, h1]
      exact Nat.zero_le _
  | cons sf sfs =>
    obtain ⟨hl, hx⟩ := h sf (by simp)
    obtain ⟨init, hi, hp⟩ : ∃ init : BitSeq, init.length = 7 ∧ pat sf.1 L = init ++ [L] := by
      refine ⟨(pat sf.1 L).take 7, by simp, ?_⟩
      cases sf.1 <;> cases L <;> rfl
    have hquiet : d.feed (pre ++ init) = ({ d with win := lastEight (pre ++ init) }, []) := by
      rcases DecState.feed_searching (d := d) (pre ++ init) hm (by simp [hw]) with ⟨k, hk, s, L', h1, -⟩ | ⟨h1, -⟩
      · simp only [List.length_append, hi, hw, List.nil_append] at hk h1
        refine absurd ?_ (hq (k + 1) (by omega) sf.1 s L')
        rw [hp, ← List.append_assoc, List.take_append_of_le_length (by simp only [List.length_append, hi]; omega), h1]
      · rw [h1, hw, List.nil_append]
    have hacq : ({ d with win := lastEight (pre ++ init) } : DecState).advance L
        = acquire sf.1 L { d with win := pat sf.1 L } := by
      rw [DecState.advance_searching (d := { d with win := lastEight (pre ++ init) }) L hm, search]
      have he : lastEight (lastEight (pre ++ init) ++ [L]) = pat sf.1 L := by
        rw [lastEight_lastEight, List.append_assoc, ← hp, lastEight_append (pat_length _ _)]
      simp only [he, symOfWindow_eq_some.2 ⟨L, rfl⟩]
    have hsplit : pre ++ lineStream L (sf :: sfs) = (pre ++ init) ++ (L :: ((encodeCells L sf.2).1 ++ lineStream L sfs)) := by
      rw [lineStream_cons, hp]
      simp
    rw [discardsWithin, hsplit, DecState.feed_append, hquiet, DecState.feed_cons, hacq, acquire_eq]
    simp only [List.nil_append, List.cons_append, discardsBeforeSubframe]
    refine Nat.le_trans (DecState.discards_from_data hl hx (fun x hx => h x (by simp [hx])) ?_ ?_ ?_ ?_) ?_
    · rfl
    · rfl
    · rfl
    · rfl
    · cases hz : sf.1 <;> simp [beforeZ, hz]

/-- R270, the bound to the first `SUBFRAME`: on an encoder stream entered at any half-cell, an instance in `SEARCHING`
with an empty window discards at most the subframes from its first whole one to the next Z. -/
theorem DecState.discardsWithin_stream {d : DecState} {L : Bool} {sfs : List (Sym × BitSeq)} (h : IsStream sfs) (o : Nat)
    (hm : d.mode = .searching) (hw : d.win = []) :
    ∃ i, discardsWithin d ((lineStream L sfs).drop o) (beforeZ (sfs.drop i)) := by
  have hd : ∀ i, IsStream (sfs.drop i) := fun i sf hsf => h sf (List.mem_of_mem_drop hsf)
  have hshort : ∀ (x : BitSeq) k s L', k < 8 → lastEight (x.take k) ≠ pat s L' := by
    intro x k s L' hk he
    have hlen := congrArg List.length he
    rw [lastEight_of_short (by rw [List.length_take]; omega), pat_length, List.length_take] at hlen
    omega
  rcases lineStream_drop L h o with ⟨i, hi⟩ | ⟨i, sf, m, hsf, h1, h2, hi⟩
  · refine ⟨i, ?_⟩
    rw [hi, ← List.nil_append (lineStream L (sfs.drop i))]
    exact DecState.discards_from_search (hd i) hm hw fun k hk s s' L' => hshort _ k s' L' (by simpa using hk)
  · obtain ⟨hl, hx⟩ := h sf hsf
    have h64 : (bmcEncode sf.1 sf.2 L).1.length = 64 := by rw [bmcEncode_length, hl]
    refine ⟨i, ?_⟩
    rw [hi]
    refine DecState.discards_from_search (hd i) hm hw fun k hk s s' L' => ?_
    by_cases h8 : k < 8
    · exact hshort _ k s' L' h8
    · rw [List.length_drop, h64] at hk
      have hw' := window_no_pattern (s := sf.1) (s' := s) (s'' := s') (L := L) (L'' := L') (m := m + (k - 8)) hl hx (by omega) (by omega)
      intro he
      refine hw' ?_
      rw [← he, lastEight, List.length_take, List.length_append, List.length_drop, h64, pat_length,
        show min k (64 - m + 8) = k by omega, List.drop_take, show k - (k - Config.preHalf) = 8 by
          simp only [Config.preHalf]; omega, ← List.drop_append_of_le_length (by omega), List.drop_drop]

/-! ## The stream of a configuration -/

/-- The subframes of a configuration, in output order (R203, R204). -/
def EncCfg.stream (c : EncCfg) : List (Sym × BitSeq) := (List.range c.total).filterMap c.subframeAt

theorem EncCfg.stream_isStream (c : EncCfg) : IsStream c.stream := by
  intro sf hsf
  obtain ⟨p, -, hp⟩ := List.mem_filterMap.1 hsf
  exact EncCfg.subframeAt_parity hp

/-- The symbol at an output position. -/
def EncCfg.symAt (c : EncCfg) (p : Nat) : Sym := preSelect (c.index p / c.nch) (c.index p % c.nch)

theorem EncCfg.stream_syms {c : EncCfg} (h : 0 < c.total) :
    c.stream.map Prod.fst = (List.range c.total).map c.symAt := by
  unfold EncCfg.stream
  induction List.range c.total with
  | nil => rfl
  | cons p ps ih =>
    obtain ⟨ch, -, hp⟩ := EncCfg.subframeAt_spec p h
    rw [List.filterMap_cons_some hp, List.map_cons, ih]
    rfl

theorem beforeZ_le {sfs : List (Sym × BitSeq)} : beforeZ sfs ≤ sfs.length := (List.takeWhile_sublist _).length_le

theorem beforeZ_le_of_z {sfs : List (Sym × BitSeq)} {j : Nat} (h : (sfs.map Prod.fst)[j]? = some .z) :
    beforeZ sfs ≤ j := by
  induction sfs generalizing j with
  | nil => cases h
  | cons sf sfs ih =>
    cases j with
    | zero =>
      have : sf.1 = .z := by simpa using h
      simp [beforeZ, this]
    | succ j =>
      have := ih (j := j) (by simpa using h)
      unfold beforeZ at this ⊢
      rw [List.takeWhile_cons]
      split
      · simpa using this
      · exact Nat.zero_le _

/-- In any `192 · nch` subframes of the output in a row there is a Z (R204, R207). -/
theorem EncCfg.z_within {c : EncCfg} (h : 0 < c.total) (i : Nat) :
    ∃ j < 192 * c.nch, c.symAt (i + j) = .z := by
  have hn : 0 < c.nch := by
    rcases Nat.eq_zero_or_pos c.nch with h0 | h0
    · simp [EncCfg.total, h0] at h
    · exact h0
  have hdvd : 192 * c.nch ∣ c.total := ⟨c.nblocks, by simp only [EncCfg.total, Config.blockFrames]; ring⟩
  have hW : 0 < 192 * c.nch := by omega
  let a := i + (c.total - c.rotation)
  refine ⟨(192 * c.nch - a % (192 * c.nch)) % (192 * c.nch), Nat.mod_lt _ hW, ?_⟩
  have hidx : c.index (i + (192 * c.nch - a % (192 * c.nch)) % (192 * c.nch)) % (192 * c.nch) = 0 := by
    unfold EncCfg.index
    rw [Nat.mod_mod_of_dvd _ hdvd,
      show i + (192 * c.nch - a % (192 * c.nch)) % (192 * c.nch) + (c.total - c.rotation)
        = a + (192 * c.nch - a % (192 * c.nch)) % (192 * c.nch) by simp only [a]; omega,
      Nat.add_mod, Nat.mod_mod, ← Nat.add_mod]
    have hlt := Nat.mod_lt a hW
    rw [Nat.add_mod, Nat.add_mod_mod, show a % (192 * c.nch) + (192 * c.nch - a % (192 * c.nch)) = 192 * c.nch by omega,
      Nat.mod_self]
  obtain ⟨m, hm⟩ := Nat.dvd_of_mod_eq_zero hidx
  rw [EncCfg.symAt, hm, show 192 * c.nch * m = 192 * m * c.nch by ring, Nat.mul_div_cancel _ hn, Nat.mul_mod_left]
  simp [preSelect, Config.blockFrames]

/-- R270: whatever the half-cell of its stream an instance with an empty window in `SEARCHING` is first given, it
acquires within 71 half-cells, when there are so many, and discards at most `192 · NCH - 1` subframes before the first
it reports. -/
theorem EncCfg.resync {c : EncCfg} {d : DecState} (h : 0 < c.total) (o : Nat) (hm : d.mode = .searching)
    (hw : d.win = []) :
    (o + derivedLockBound ≤ (lineStream c.initLevel c.stream).length →
        locksWithin d ((lineStream c.initLevel c.stream).drop o) derivedLockBound)
      ∧ discardsWithin d ((lineStream c.initLevel c.stream).drop o) (derivedDiscardBound c.nch) := by
  refine ⟨fun ho => DecState.locksWithin_stream c.stream_isStream o ho hm (by simp [hw]), ?_⟩
  obtain ⟨i, hi⟩ := DecState.discardsWithin_stream (L := c.initLevel) c.stream_isStream o hm hw
  refine Nat.le_trans hi ?_
  obtain ⟨j, hj, hz⟩ := EncCfg.z_within h i
  simp only [derivedDiscardBound, Config.blockFrames]
  by_cases hin : i + j < c.total
  · have : ((c.stream.drop i).map Prod.fst)[j]? = some .z := by
      rw [List.map_drop, EncCfg.stream_syms h, List.getElem?_drop, List.getElem?_map, List.getElem?_range hin]
      simp [hz]
    have := beforeZ_le_of_z this
    omega
  · have hl : c.stream.length = c.total := by
      have := congrArg List.length (EncCfg.stream_syms h)
      simpa using this
    have := beforeZ_le (sfs := c.stream.drop i)
    rw [List.length_drop, hl] at this
    omega

end Sys2Proof.Machine
end

