-- ==== Sys2Proof/Tests/Slice0.lean ====
section
/-! SUPPORT. Small tests. Expected values are those of spec/95_test_vectors.md and of the rules cited; and, for every
statement with hypotheses, a state and operands that meet them. -/

namespace Sys2Proof.Tests

-- One theorem at a time: each is a kernel evaluation, and many at once need many threads' stacks.
set_option Elab.async false

open Sys2Proof Sys2Proof.Machine

/-! ## Helpers -/

/-- What a command returns to HOST. -/
def returned (o : Host.Outcome State Fault Refusal) : Option Response :=
  match o with
  | .next t => some t.resp
  | .fault _ | .refused _ => none

/-- The state of an instance after a command. -/
def decAfter (n : Nat) (o : Host.Outcome State Fault Refusal) : Option DecState :=
  match o with
  | .next t => some (t.dec n)
  | .fault _ | .refused _ => none

/-- The engine after a command. -/
def encAfter (o : Host.Outcome State Fault Refusal) : Option EncState :=
  match o with
  | .next t => some t.enc
  | .fault _ | .refused _ => none

/-- Reset, with instance 0 in a given state. -/
def withDec (d : DecState) : State := { State.reset with decs := [(0, d)] }

/-- Reset, with the engine in a given state. -/
def withEnc (e : EncState) : State := { State.reset with enc := e }

/-- A channel-status record with the two required fields. -/
def rec' (rate depth : Int) : CsRecord := { sampleRate := .int rate, bitDepth := .int depth }

/-- The channel-status block of 95_test_vectors.md's `SCN`: bits 9, 25, 32, 33 and 35, integers 00 02 00 02 0B. -/
def scnBlock : CsBlock := 0x0B02000200#192

/-- A channel of `SCN`. -/
def scnChannel (step : Int) : Channel where
  policy := .ramp step
  seed := 0
  v := false
  u := false
  cscfg := rec' 48000 24
  cs := scnBlock

/-- The configuration `SCN` (95_test_vectors.md). -/
def scn : EncCfg where
  channels := [scnChannel (-7), scnChannel 5]
  nblocks := 2
  qs := 0
  initLevel := false

/-- The engine running `SCN` at output position `p`. -/
def scnAt (p : Nat) : State :=
  withEnc { status := .ready, err := none, cfg := some scn, p := p, level := false, out := [] }

/-- The record of `SCN` (95_test_vectors.md). -/
def scnRecord : EncConfig where
  channels := [{ name := .str "ramp", value := .int (-7) }, { name := .str "ramp", value := .int 5 }]
  nblocks := 2
  qs := 0
  initLevel := false
  seed := [0, 0]
  v := [false, false]
  u := [false, false]
  cs := .one (rec' 48000 24)

/-- A bit string as the spec writes it. -/
def bits (s : String) : BitSeq := s.toList.map (· == '1')

/-- Bytes as the spec writes them. -/
def bytes (l : List Nat) : List Byte := l.map fun (k : Nat) => BitVec.ofNat 8 k

/-- An instance that has just acquired on `11101000` (T-DEC-1). -/
def locked : DecState where
  mode := .lockedData
  win := bits "11101000"
  prev := false
  pl := false
  pbuf := []
  cell := 0
  half := false
  a := false
  data := 0
  chk := 0
  sym := .z
  ch := 0
  cont := false
  started := true
  frame := 0
  csRx := []
  zero0 := 0
  fatalReason := none
  nMissing := 0
  nMismatch := 0
  nDiscard := 0
  haltOnMismatch := false

/-- An instance at preamble position after a whole subframe that ended at level `L`. -/
def atPreamble (L : Bool) : DecState :=
  { locked with mode := .lockedPreamble, prev := L, pl := L, cell := 28, chk := BitVec.allOnes 28, cont := true }

/-! ## Well-formedness: an ill-formed term for each check of R333's row `ENC_CONFIGURE` -/

theorem test_wf_scn : (Instr.encConfigure scnRecord).wf = true := by decide +kernel
theorem test_wf_no_channel : (Instr.encConfigure { scnRecord with channels := [] }).wf = false := by decide +kernel
theorem test_wf_seed_length : (Instr.encConfigure { scnRecord with seed := [0] }).wf = false := by decide +kernel
theorem test_wf_v_length : (Instr.encConfigure { scnRecord with v := [false, false, false] }).wf = false := by decide +kernel
theorem test_wf_u_length : (Instr.encConfigure { scnRecord with u := [] }).wf = false := by decide +kernel
theorem test_wf_cs_length : (Instr.encConfigure { scnRecord with cs := .each [rec' 48000 24] }).wf = false := by decide +kernel

/-! ## Decoding: words written out from R90, R94, R95 and R107 -/

/-- The record of `SCN` as HOST writes it, every optional field left out. -/
def scnRaw : RawConfig where
  channels := some [{ name := .str "ramp", value := .int (-7) }, { name := .str "ramp", value := .int 5 }]
  nblocks := .int 2
  cs := .one (rec' 48000 24)

theorem test_decode_enc_configure : decode (.op 0b0001#4 0 [.encRecord scnRaw]) = .ok (.encConfigure scnRecord) := by
  decide +kernel
theorem test_decode_enc_engine : decode (.op 0b0010#4 0 []) = .ok .encStep ∧ decode (.op 0b0011#4 0 []) = .ok .encStatus
    ∧ decode (.op 0b0000#4 0 []) = .ok .reserved := by decide +kernel
theorem test_decode_gen_next : decode (.op 0b0100#4 0 [.none, .policy (.fixed (-1))]) = .ok (.genNext none (.fixed (-1)))
    ∧ decode (.op 0b0100#4 0 [.int 0xFFFFFF, .policy .none]) = .ok (.genNext (some 0xFFFFFF) .none) := by decide +kernel
theorem test_decode_cs_build : decode (.op 0b0101#4 0 [.csRecord (rec' 48000 24)]) = .ok (.csBuild (rec' 48000 24)) := by
  decide +kernel
theorem test_decode_select_assemble : decode (.op 0b0110#4 0 [.int 384, .int 1]) = .ok (.preSelect 384 1)
    ∧ decode (.op 0b0111#4 0 [.int 9, .int 0]) = .ok (.sfAssemble 9 0) := by decide +kernel
theorem test_decode_parity : decode (.op 0b1000#4 0 [.seq (1 :: 1 :: List.replicate 25 0)]) = .ok (.parity 3) := by decide +kernel
theorem test_decode_bmc_encode : decode (.op 0b1001#4 0 [.name "Y", .seq (1 :: List.replicate 27 0), .int 1])
    = .ok (.bmcEncode .y 1 true) := by decide +kernel
theorem test_decode_pack : decode (.op 0b1010#4 0 [.seq (0 :: 1 :: List.replicate 62 0)]) = .ok (.pack 2) := by decide +kernel
theorem test_decode_decoder : decode (.op 0b1011#4 3 [.int 1]) = .ok (.decAdvance 3 true)
    ∧ decode (.op 0b1100#4 3 [.int 0x17]) = .ok (.decFeedByte 3 0x17) ∧ decode (.op 0b1101#4 3 []) = .ok (.decReset 3)
    ∧ decode (.op 0b1110#4 3 [.int 1]) = .ok (.decConfigure 3 true) ∧ decode (.op 0b1111#4 3 []) = .ok (.decStatus 3) := by
  decide +kernel
theorem test_decode_pseudo : decode (.pseudo .encRun 0 []) = .ok .encRun
    ∧ decode (.pseudo .decFeed 1 [.seq [1, 1, 0, 1]]) = .ok (.decFeed 1 [true, true, false, true])
    ∧ decode (.pseudo .decFeedBytes 1 [.int 0x17, .int 0x4D]) = .ok (.decFeedBytes 1 [0x17, 0x4D]) := by decide +kernel
theorem test_decode_preambles : decode (.preamble 0 (bits "11101000")) = .ok (.preambleZL0 0)
    ∧ decode (.preamble 0 (bits "00010111")) = .ok (.preambleZL1 0)
    ∧ decode (.preamble 0 (bits "11100010")) = .ok (.preambleXL0 0)
    ∧ decode (.preamble 0 (bits "00011101")) = .ok (.preambleXL1 0)
    ∧ decode (.preamble 0 (bits "11100100")) = .ok (.preambleYL0 0)
    ∧ decode (.preamble 0 (bits "00011011")) = .ok (.preambleYL1 0) := by decide +kernel
theorem test_decode_cells : decode (.cell 0 false true true) = .ok (.cellL0B0 0)
    ∧ decode (.cell 0 false true false) = .ok (.cellL0B1 0) ∧ decode (.cell 0 true false false) = .ok (.cellL1B0 0)
    ∧ decode (.cell 0 true false true) = .ok (.cellL1B1 0) ∧ decode (.cell 0 false false true) = .ok (.cellL0Illegal 0 true)
    ∧ decode (.cell 0 true true false) = .ok (.cellL1Illegal 0 false) := by decide +kernel
/-- The words of spec/opcode_table.json, and a step after reset that performs one. -/
theorem test_decode_table_words : (List.range 16).map (fun w => (decodeTableWord 4 w).bind Instr.op)
    = (List.range 16).map (fun w => some (BitVec.ofNat 4 w))
    ∧ decodeTableWord 8 0xE8 = some (.preambleZL0 0) ∧ decodeTableWord 8 0x1B = some (.preambleYL1 0)
    ∧ decodeTableWord 2 0b10 = some (.cellL0B1 0) := by decide +kernel
theorem test_step_table_word : returned (step (State.reset.withFetchWord 8 0xE8)) = some ⟨.nothing, [.lock .z]⟩ := by decide +kernel
theorem test_decode_refuses : decode (.op 0b0010#4 0 [.none]) = .error .badOperands
    ∧ decode (.op 0b0001#4 0 [.encRecord { scnRaw with nblocks := .int (-1) }]) = .error .badShape
    ∧ decode (.preamble 0 (bits "11111111")) = .error .noSuchPattern := by decide +kernel

/-- One bad element refuses the whole pseudo-command (R92, R107). -/
theorem test_decode_refuses_pseudo : decode (.pseudo .decFeed 0 [.seq [1, 2]]) = .error .badOperands
    ∧ decode (.pseudo .decFeedBytes 0 [.int 0x17, .int 256]) = .error .badOperands := by decide +kernel

/-- The sizes of R7 fit together: slots, half-cells and bytes of a subframe. -/
theorem test_config_sizes : Config.preHalf / 2 + Config.dataCells = Config.slots ∧ 2 * Config.slots = Config.sfHalf
    ∧ Config.preHalf + 2 * Config.dataCells = Config.sfHalf ∧ 8 * Config.sfBytes = Config.sfHalf
    ∧ 8 * Config.csBytes = Config.blockFrames := by decide

/-! ## Instructions -/

theorem test_enc_configure : encAfter (exec (.encConfigure scnRecord) (scnAt 5)) = some (EncState.configured scn) := by decide +kernel
theorem test_enc_configure_error :
    returned (exec (.encConfigure { scnRecord with channels := [⟨.str "sine", .int 1⟩, ⟨.str "ramp", .int 1⟩]
                                                   cs := .one (rec' 32000 24) }) (scnAt 5))
      = some ⟨.nothing, [.configError ⟨.unsupportedPolicy, "policy[0]"⟩]⟩ := by decide +kernel
theorem test_enc_step_first : returned (exec .encStep (scnAt 0))
    = some ⟨.nothing, [.subframeOut (bytes [0x17, 0x4D, 0x55, 0x55, 0x55, 0x55, 0x55, 0x33])]⟩ := by decide +kernel
theorem test_enc_step_last : returned (exec .encStep (scnAt 767))
    = some ⟨.nothing, [.subframeOut (bytes [0x27, 0x33, 0xB3, 0x2A, 0x33, 0x33, 0x33, 0x33])]⟩
    ∧ (encAfter (exec .encStep (scnAt 767))).map (fun e => (e.status, e.p, e.level)) = some (.finished, 768, false) := by
  decide +kernel
theorem test_enc_status : returned (exec .encStatus (scnAt 5)) = some ⟨.encReport .ready none 5 768, []⟩ := by decide +kernel
theorem test_gen_next_wraps : returned (exec (.genNext (some 0x000003) (.ramp (-7))) State.reset)
    = some ⟨.sample (some 0xFFFFFC), []⟩ := by decide +kernel
theorem test_gen_next_fixed : returned (exec (.genNext none (.fixed 16777219)) State.reset)
    = some ⟨.sample (some 0x000003), []⟩ := by decide +kernel
theorem test_cs_build : returned (exec (.csBuild
    { (rec' 192000 12) with professional := .bool true, digitalAudio := .bool false, copyright := .bool false
                            preEmphasis := .str "100", mode := .str "01", lBit := .int 1, sourceNumber := .int 1
                            channelNumber := .int 2 }) State.reset) = some ⟨.csBlock 0x000E21828F#192, []⟩ := by decide +kernel
theorem test_cs_build_error : returned (exec (.csBuild (rec' 12345 99)) State.reset)
    = some ⟨.configError ⟨.unsupportedChannelStatusOption, "sample_rate"⟩,
        [.configError ⟨.unsupportedChannelStatusOption, "sample_rate"⟩]⟩
    ∧ (encAfter (exec (.csBuild (rec' 12345 99)) (scnAt 0))).map (fun e => (e.status, e.err, e.p))
      = some (.ready, some ⟨.unsupportedChannelStatusOption, "sample_rate"⟩, 0) := by decide +kernel
theorem test_pre_select : returned (exec (.preSelect 192 0) State.reset) = some ⟨.symbol .z, []⟩
    ∧ returned (exec (.preSelect 191 0) State.reset) = some ⟨.symbol .x, []⟩
    ∧ returned (exec (.preSelect 192 5) State.reset) = some ⟨.symbol .y, []⟩ := by decide +kernel
theorem test_sf_assemble : returned (exec (.sfAssemble 9 0) (scnAt 0))
    = some ⟨.subframe .x (ofSeq 28 (bits "0101110111111111111111110010")), []⟩ := by decide +kernel
theorem test_sf_assemble_range : returned (exec (.sfAssemble 384 0) (scnAt 0)) = some ⟨.refused .outOfRange, []⟩ := by decide +kernel
theorem test_parity : returned (exec (.parity (BitVec.allOnes 27)) State.reset) = some ⟨.bit true, []⟩
    ∧ returned (exec (.parity 0xFFFFF9) State.reset) = some ⟨.bit false, []⟩ := by decide +kernel
theorem test_bmc_encode_odd : returned (exec (.bmcEncode .y 1 true) State.reset)
    = some ⟨.halfCells (ofSeq 64 (bits "0001101101001100110011001100110011001100110011001100110011001100")) false, []⟩ := by
  decide +kernel
theorem test_pack : returned (exec (.pack (ofSeq 64 (bits "1110100010110010101010101010101010101010101010101010101011001100")))
    State.reset) = some ⟨.bytes (bytes [0x17, 0x4D, 0x55, 0x55, 0x55, 0x55, 0x55, 0x33]), []⟩ := by decide +kernel
theorem test_pack_msb_first : returned (exec (.pack (ofSeq 64 (bits "1110100010110010101010101010101010101010101010101010101011001100")))
    { State.reset with params := { Config.suggested with packOrder := .msbFirst } })
    = some ⟨.bytes (bytes [0xE8, 0xB2, 0xAA, 0xAA, 0xAA, 0xAA, 0xAA, 0xCC]), []⟩ := by decide +kernel
theorem test_dec_advance_missing : returned (exec (.decAdvance 0 false) (withDec locked))
    = some ⟨.nothing, [.missingTransition 0]⟩
    ∧ (decAfter 0 (exec (.decAdvance 0 false) (withDec locked))).map (fun d => (d.mode, d.win, d.nMissing))
      = some (.searching, [false], 1) := by decide +kernel
theorem test_dec_feed_byte : returned (exec (.decFeedByte 0 0x17) State.reset) = some ⟨.nothing, [.lock .z]⟩ := by decide +kernel
theorem test_dec_reset : decAfter 0 (exec (.decReset 0) (withDec { locked with haltOnMismatch := true, nDiscard := 3 }))
    = some { DecState.reset with haltOnMismatch := true } := by decide +kernel
/-- R268, R262: after a reset the descriptors of before are no part of the run. -/
theorem test_run_after_reset : runDescriptors
      { State.reset with evt := [(.dec 0, .subframe "A" ⟨0, false, false, false, false⟩)] }
      { State.reset with evt := [(.dec 0, .subframe "A" ⟨0, false, false, false, false⟩), (.dec 0, .lock .z),
          (.dec 1, .subframe "C" ⟨0, false, false, false, false⟩),
          (.dec 0, .subframe "B" ⟨0, false, false, false, false⟩)] } 0 = ["B"] := by decide +kernel
theorem test_dec_configure : decAfter 0 (exec (.decConfigure 0 true) (withDec locked))
    = some { locked with haltOnMismatch := true } := by decide +kernel
theorem test_dec_status : returned (exec (.decStatus 0) (withDec { locked with csRx := [(192, true), (193, false)] })) =
    some ⟨.decReport
      { mode := .lockedData, fatalReason := none, ch := 0, frame := 0, started := true, nMissing := 0, nMismatch := 0
        nDiscard := 0, haltOnMismatch := false
        csRx := [{ channel := 1, entries := some true :: some false :: List.replicate 190 none
                   bytes := List.replicate 24 none }] }, []⟩ := by decide +kernel
theorem test_reserved : returned (exec .reserved (scnAt 5)) = some ⟨.refused .reservedOp, []⟩ := by decide +kernel
theorem test_enc_run : returned (exec .encRun (scnAt 766)) = some ⟨.nothing,
    [.subframeOut (bytes [0x47, 0x33, 0xB3, 0xD2, 0xAA, 0xAA, 0xAA, 0x4C]),
     .subframeOut (bytes [0x27, 0x33, 0xB3, 0x2A, 0x33, 0x33, 0x33, 0x33])]⟩ := by decide +kernel
theorem test_dec_feed : returned (exec (.decFeed 0 (bits "1110100010110010101010101010101010101010101010101010101011001100"))
    State.reset) = some ⟨.nothing, [.lock .z,
      .subframe "0 [Z] - 100111111111111111111111 1111111111111111111111111111" ⟨0xFFFFF9, false, false, false, false⟩]⟩ := by
  decide +kernel
theorem test_dec_feed_bytes : returned (exec (.decFeedBytes 0 (bytes [0x17, 0x4D, 0x55, 0x55, 0x55, 0x55, 0x55, 0xB3, 0xD8,
    0xD2, 0xCC, 0xCC, 0xCC, 0xCC, 0xCC, 0xCC])) State.reset) = some ⟨.nothing, [.lock .z,
      .decodeMismatch (some "0 [Z] - 100111111111111111111111 1111111111111111111111111111")
        ⟨0xFFFFF9, false, false, false, true⟩,
      .subframe "0 [Y] - 101000000000000000000000 1111111111111111111111111111" ⟨5, false, false, false, false⟩]⟩ := by decide +kernel
theorem test_preamble_z : returned (exec (.preambleZL0 0) State.reset) = some ⟨.nothing, [.lock .z]⟩
    ∧ returned (exec (.preambleZL1 0) State.reset) = some ⟨.nothing, [.lock .z]⟩ := by decide +kernel
theorem test_preamble_x : returned (exec (.preambleXL0 0) State.reset) = some ⟨.nothing, [.lock .x]⟩
    ∧ returned (exec (.preambleXL1 0) (withDec (atPreamble true))) = some ⟨.nothing, []⟩ := by decide +kernel
theorem test_preamble_y : returned (exec (.preambleYL0 0) State.reset) = some ⟨.nothing, [.lock .y]⟩
    ∧ returned (exec (.preambleYL1 0) (withDec (atPreamble false)))
      = some ⟨.nothing, [.unrecognizedPreamble (bits "00011011")]⟩ := by decide +kernel
theorem test_cells_after_0 :
    (decAfter 0 (exec (.cellL0B0 0) (withDec locked))).map (fun d => (d.data, d.prev, d.cell)) = some (0, true, 1)
    ∧ (decAfter 0 (exec (.cellL0B1 0) (withDec locked))).map (fun d => (d.data, d.prev, d.cell)) = some (1, false, 1) := by
  decide +kernel
theorem test_cells_after_1 :
    (decAfter 0 (exec (.cellL1B0 0) (withDec { locked with prev := true }))).map (fun d => (d.data, d.prev)) = some (0, false)
    ∧ (decAfter 0 (exec (.cellL1B1 0) (withDec { locked with prev := true }))).map (fun d => (d.data, d.prev)) = some (1, true) := by
  decide +kernel
theorem test_cells_illegal : returned (exec (.cellL0Illegal 0 true) (withDec locked)) = some ⟨.nothing, [.missingTransition 0]⟩
    ∧ returned (exec (.cellL1Illegal 0 false) (withDec { locked with prev := true, cell := 27 }))
      = some ⟨.nothing, [.missingTransition 27]⟩ := by decide +kernel

/-! ## Witnesses: a state and operands that meet each statement's hypotheses, clause by clause -/

theorem scn_inv : (scnAt 0).Inv := by
  refine ⟨⟨⟨scn, rfl, by decide, by decide⟩, EncState.errFits_of_none rfl nofun, ?_, rfl⟩, rfl, fun e h => (nomatch h), fun n => ?_⟩
  · intro c hc
    cases hc
    refine ⟨rfl, fun ch hch => ?_⟩
    have hb : buildCs Config.suggested (rec' 48000 24) = .ok scnBlock := by decide +kernel
    simp only [scn, List.mem_cons, List.not_mem_nil, or_false] at hch
    rcases hch with rfl | rfl <;> exact hb
  · exact DecState.reset_inv

/-- Of EveryStepKeepsInvariant: an encoder in use that holds the error of a `CS_BUILD`. -/
theorem witness_inv_after_cs_build : ((scnAt 0).enc.recordError (csError .sampleRate)).Inv (scnAt 0).params :=
  scn_inv.1.recordError .sampleRate

theorem withDec_inv {d : DecState} (h : d.Inv) (hr : d ≠ DecState.reset) : (withDec d).Inv := by
  refine ⟨⟨⟨rfl, rfl⟩, EncState.errFits_of_none rfl nofun, fun c hc => (nomatch hc), rfl⟩, rfl, ?_, fun n => ?_⟩
  · intro e he
    cases List.mem_singleton.1 he
    exact hr
  · by_cases hn : n = 0
    · subst hn; exact h
    · have : (withDec d).dec n = DecState.reset := by
        simp only [withDec, State.dec, storeGet, if_neg (Ne.symm hn)]; rfl
      rw [this]
      exact DecState.reset_inv

theorem locked_inv : (withDec locked).Inv :=
  withDec_inv ⟨by decide, by decide, by decide, rfl, by decide, by decide, fun h => (nomatch h), fun h => (nomatch h),
    fun _ => rfl, by decide⟩ (by decide)

theorem legal_rec {rate depth : Int} (hr : FieldVal.isRate (.int rate) = true)
    (hd : FieldVal.inRange 1 24 (.int depth) = true) (f : CsField) : f.legal ((rec' rate depth).get f) = true := by
  cases f
  case sampleRate => exact hr
  case bitDepth => exact hd
  all_goals rfl

theorem witness_DecodeEncodeRoundTrip : (Instr.encConfigure scnRecord).wf = true ∧ (Instr.decStatus 7).wf = true := by
  decide

theorem witness_DecodedInstructionsAreWellFormed :
    decode (.op 1 0 [.encRecord scnRaw]) = .ok (.encConfigure scnRecord) := by decide

theorem witness_OpAloneSelectsOperation : decode (.op 0b0110#4 9 [.int 0, .int 0]) = .ok (.preSelect 0 0) := by decide

theorem witness_OperandsTakenAsGivenOrRefused :
    ((2 : Int) ≠ 0 ∧ (2 : Int) ≠ 1 ∧ (-1 : Int) ≠ 0 ∧ (-1 : Int) ≠ 1)
    ∧ (¬(0 ≤ (256 : Int) ∧ (256 : Int) ≤ 255) ∧ ¬(0 ≤ (-1 : Int) ∧ (-1 : Int) ≤ 255)) ∧ (0 ≤ 255 ∧ 255 ≤ 255)
    ∧ ((-1 : Int) < 0 ∨ (0 : Int) < 0) ∧ ((0 : Int) < 0 ∨ (-1 : Int) < 0)
    ∧ (List.replicate 26 (0 : Int)).length ≠ 27 ∧ (List.replicate 28 (0 : Int)).length ≠ 27
    ∧ (List.replicate 63 (0 : Int)).length ≠ 64 ∧ (List.replicate 65 (0 : Int)).length ≠ 64
    ∧ ((List.replicate 27 (0 : Int)).length ≠ 28 ∨ ((0 : Int) ≠ 0 ∧ (0 : Int) ≠ 1))
    ∧ ((List.replicate 28 (0 : Int)).length ≠ 28 ∨ ((2 : Int) ≠ 0 ∧ (2 : Int) ≠ 1))
    ∧ (List.replicate 26 (0 : Int) ++ [1]).length = 27
    ∧ ∀ k < 27, (List.replicate 26 (0 : Int) ++ [1])[k]? = some (if (0x4000000#27).getLsbD k then 1 else 0) := by
  decide +kernel

/-- Its clauses on byte lists, samples, symbols, elements that are no bits, and records. -/
theorem witness_OperandsTakenAsGivenOrRefused_more :
    Operand.int 256 ∈ [Operand.int 0x17, .int 256]
    ∧ (¬(0 ≤ (0x1000000 : Int) ∧ (0x1000000 : Int) ≤ 0xFFFFFF) ∧ ¬(0 ≤ (-1 : Int) ∧ (-1 : Int) ≤ 0xFFFFFF))
    ∧ (0xFFFFFF ≤ 0xFFFFFF) ∧ ("W" ≠ "Z" ∧ "W" ≠ "X" ∧ "W" ≠ "Y") ∧ ((2 : Int) ∈ [0, 2] ∧ (2 : Int) ≠ 0 ∧ (2 : Int) ≠ 1)
    ∧ decode (.op 0b0001#4 0 [.encRecord scnRaw]) = .ok (.encConfigure scnRecord)
    ∧ ∀ c, decode (.op 0b0001#4 0 [.encRecord { scnRaw with cs := .missing }]) ≠ .ok (.encConfigure c) := by
  refine ⟨by decide, by decide, by decide, by decide, by decide, by decide, fun c h => ?_⟩
  have : decode (.op 0b0001#4 0 [.encRecord { scnRaw with cs := .missing }]) = .error .badShape := by decide
  rw [this] at h
  cases h

/-- Its clauses on the kinds and the number of operands, one list for each shape of R90's table. -/
theorem witness_OperandsTakenAsGivenOrRefused_kinds :
    (∀ r, [Operand.int 0] ≠ [.encRecord r]) ∧ [Operand.none] ≠ [] ∧ (∀ x p, [Operand.none, .int 0] ≠ [x, .policy p])
    ∧ (∀ r, [Operand.none] ≠ [.csRecord r]) ∧ (∀ j i, [Operand.int 0] ≠ [.int j, .int i])
    ∧ (∀ d, [Operand.int 0] ≠ [.seq d]) ∧ (∀ s d l, [Operand.name "Z", .seq []] ≠ [.name s, .seq d, .int l])
    ∧ (∀ h, [Operand.int 0, .int 0] ≠ [.int h]) ∧ (Operand.none ∈ [Operand.int 0, .none] ∧ ∀ b, Operand.none ≠ .int b) := by
  simp

/-- Its clauses on sequences taken as given, of 64 and of 28 bits. -/
theorem witness_OperandsTakenAsGivenOrRefused_seqs :
    ((List.replicate 63 (0 : Int) ++ [1]).length = 64
      ∧ ∀ k < 64, (List.replicate 63 (0 : Int) ++ [1])[k]? = some (if (0x8000000000000000#64).getLsbD k then 1 else 0))
    ∧ (List.replicate 27 (0 : Int) ++ [1]).length = 28
      ∧ ∀ k < 28, (List.replicate 27 (0 : Int) ++ [1])[k]? = some (if (0x8000000#28).getLsbD k then 1 else 0) := by
  decide +kernel

theorem witness_StepPerformsOldestCommand :
    ({ State.reset with cmds := [.op 2 0 []] } : State).cmds = [.op 2 0 []] ∧ decode (.op 2 0 []) = .ok .encStep
    ∧ decode (.op 2 0 [.none]) = .error .badOperands ∧ State.reset.cmds = [] := by decide

/-- Each row of R333's table that depends on the state: refused, and not refused. -/
theorem witness_RefusedExactlyByTheTable : State.reset.Inv ∧ (scnAt 0).Inv ∧ refusedWhen State.reset .encStep
    ∧ ¬refusedWhen (scnAt 0) .encStep ∧ refusedWhen State.reset .reserved
    ∧ refusedWhen State.reset (.encConfigure { scnRecord with v := [] })
    ∧ ¬refusedWhen State.reset (.encConfigure scnRecord) ∧ refusedWhen State.reset (.sfAssemble 0 0)
    ∧ refusedWhen (scnAt 0) (.sfAssemble 384 0) ∧ refusedWhen (scnAt 0) (.sfAssemble 0 2)
    ∧ ¬refusedWhen (scnAt 0) (.sfAssemble 383 1) ∧ ¬refusedWhen State.reset (.decStatus 0) := by
  refine ⟨⟨⟨⟨rfl, rfl⟩, EncState.errFits_of_none rfl nofun, fun c h => (nomatch h), rfl⟩, rfl, fun e h => (nomatch h), fun _ => DecState.reset_inv⟩,
    scn_inv, .inl rfl, ?_, trivial, by unfold refusedWhen; decide, by unfold refusedWhen; decide, .inl (.inl rfl),
    .inr ⟨scn, rfl, by decide⟩, .inr ⟨scn, rfl, by decide⟩, ?_, id⟩
  · rintro (h | h) <;> cases h
  · rintro ((h | h) | ⟨c, hc, h⟩)
    · cases h
    · cases h
    · cases hc
      exact h (by decide)

theorem witness_RefusalMarkIsKept : ({ State.reset with refused := true } : State).refused = true
    ∧ core.run 2 ({ State.reset with refused := true } : State) = .next { State.reset with refused := true } := ⟨rfl, rfl⟩

/-- Of EventsAreAppendedToEvt, ParametersAreFixed, InputIsConsumedFrontFirst and EveryStepKeepsInvariant. -/
theorem witness_step_hypotheses : (State.reset.withFetchWord 8 0xE8).cmds = [commandOfWord 8 0xE8]
    ∧ decode (commandOfWord 8 0xE8) = .ok (.preambleZL0 0) ∧ (∃ t, step (State.reset.withFetchWord 8 0xE8) = .next t)
    ∧ (State.reset.withFetchWord 8 0xE8).Inv :=
  ⟨rfl, by decide, ⟨_, rfl⟩,
    ⟨⟨⟨rfl, rfl⟩, EncState.errFits_of_none rfl nofun, fun c h => (nomatch h), rfl⟩, rfl, fun e h => (nomatch h), fun _ => DecState.reset_inv⟩⟩

/-- The second and third clauses of InputIsConsumedFrontFirst: instructions that feed instance 0, and that do not. -/
theorem witness_InputIsConsumedFrontFirst : agentOf (.cellL0B0 0) = .dec 0 ∧ Instr.cellL0B0 0 ≠ .decReset 0
    ∧ (∀ halt, Instr.cellL0B0 0 ≠ .decConfigure 0 halt) ∧ Instr.cellL0B0 0 ≠ .decStatus 0
    ∧ agentOf .encRun ≠ .dec 0 ∧ agentOf (.cellL0B0 1) ≠ .dec 0 :=
  ⟨rfl, fun h => (nomatch h), fun _ h => (nomatch h), fun h => (nomatch h), fun h => (nomatch h), by decide⟩

/-- The encoder and an instance; and two instances. -/
theorem witness_CommandsToDifferentAgentsCommute :
    (agentOf .encStep ≠ agentOf (.decFeedByte 0 0x17)
      ∧ ∃ s1 t1 s2 t2, exec .encStep (scnAt 0) = .next s1 ∧ exec (.decFeedByte 0 0x17) s1 = .next t1
        ∧ exec (.decFeedByte 0 0x17) (scnAt 0) = .next s2 ∧ exec .encStep s2 = .next t2)
    ∧ agentOf (.decReset 0) ≠ agentOf (.decReset 1)
      ∧ ∃ s1 t1 s2 t2, exec (.decReset 0) State.reset = .next s1 ∧ exec (.decReset 1) s1 = .next t1
        ∧ exec (.decReset 1) State.reset = .next s2 ∧ exec (.decReset 0) s2 = .next t2 := by
  refine ⟨⟨by decide, ?_⟩, by decide, ⟨_, _, _, _, rfl, rfl, rfl, rfl⟩⟩
  obtain ⟨s1, h1, -⟩ := exec_spec .encStep (scnAt 0)
  obtain ⟨s2, h2, -⟩ := exec_spec (.decFeedByte 0 0x17) (scnAt 0)
  obtain ⟨t1, h3, -⟩ := exec_spec (.decFeedByte 0 0x17) s1
  obtain ⟨t2, h4, -⟩ := exec_spec .encStep s2
  exact ⟨s1, t1, s2, t2, h1, h3, h2, h4⟩

/-- The four values `enc_status` can have after the command, and a state in which a first configuration has failed. -/
theorem witness_UnspecifiedResetValuesAreUnobservable : State.reset.enc.status = .unconfigured
    ∧ (withEnc (EncState.reset.reject ⟨.unsupportedPolicy, "policy[0]"⟩)).enc.status = .configError
    ∧ (encAfter (exec (.encConfigure scnRecord) (withEnc (EncState.reset.reject ⟨.unsupportedPolicy, "policy[0]"⟩)))).map
      (·.status) = some .ready
    ∧ (encAfter (exec .encStep State.reset)).map (·.status) = some .unconfigured
    ∧ (encAfter (exec (.encConfigure { scnRecord with cs := .one (rec' 32000 24) }) State.reset)).map (·.status)
      = some .configError
    ∧ (encAfter (exec (.encConfigure scnRecord) State.reset)).map (·.status) = some .ready
    ∧ (encAfter (exec (.encConfigure { scnRecord with nblocks := 0 }) State.reset)).map (·.status) = some .finished := by
  decide +kernel

theorem witness_PolicyConstruction : (∀ k, FieldVal.str "1" ≠ .int k) ∧ (∀ k, FieldVal.missing ≠ .int k)
    ∧ FieldVal.str "sine" ≠ .str "none" ∧ FieldVal.str "sine" ≠ .str "fixed" ∧ FieldVal.str "sine" ≠ .str "ramp"
    ∧ FieldVal.int 0 ≠ .str "none" ∧ FieldVal.int 0 ≠ .str "fixed" ∧ FieldVal.int 0 ≠ .str "ramp" :=
  ⟨fun _ h => (nomatch h), fun _ h => (nomatch h), by decide, by decide, by decide, by decide, by decide, by decide⟩

theorem witness_GenNextResult : (∃ x : Sample, (some 0xFFFFFF#24 : Option Sample) = some x)
    ∧ (none : Option Sample) = none := ⟨⟨_, rfl⟩, rfl⟩

/-- The depths where the clauses of byte 4 meet, and 19 extra bytes. -/
theorem witness_CsBuildBlock : (∀ f : CsField, f.legal ((rec' 44100 15).get f) = true)
    ∧ (∀ f : CsField, f.legal ((rec' 22050 16).get f) = true) ∧ (∀ f : CsField, f.legal ((rec' 192000 20).get f) = true)
    ∧ (∀ f : CsField, f.legal ((rec' 48000 21).get f) = true)
    ∧ (let r := { (rec' 48000 24) with extraBytes := .ints (List.replicate 19 255), sourceNumber := .int 15 }
       (∀ f : CsField, f.legal (r.get f) = true) ∧ r.get .professional = .bool false ∧ r.get .digitalAudio = .bool true
       ∧ r.get .copyright = .bool true ∧ r.get .preEmphasis = .str "000" ∧ r.get .mode = .str "00"
       ∧ r.get .lBit = .int 0 ∧ r.get .sourceNumber = .int 15 ∧ r.get .channelNumber = .int 0
       ∧ r.get .sampleRate = .int 48000 ∧ r.get .bitDepth = .int 24
       ∧ r.get .extraBytes = .ints (List.replicate 19 255)) := by
  refine ⟨legal_rec (by decide) (by decide), legal_rec (by decide) (by decide), legal_rec (by decide) (by decide),
    legal_rec (by decide) (by decide), fun f => ?_, rfl, rfl, rfl, rfl, rfl, rfl, rfl, rfl, rfl, rfl, rfl⟩
  cases f <;> decide

/-- A record with every field left out. -/
theorem witness_CsFieldLegalValues :
    let r : CsRecord := {}
    r.professional = .missing ∧ r.digitalAudio = .missing ∧ r.copyright = .missing ∧ r.preEmphasis = .missing
    ∧ r.mode = .missing ∧ r.categoryCode = .missing ∧ r.category = .missing ∧ r.lBit = .missing
    ∧ r.sourceNumber = .missing ∧ r.channelNumber = .missing ∧ r.sampleRate = .missing ∧ r.clockAccuracy = .missing
    ∧ r.bitDepth = .missing ∧ r.originalSampleRate = .missing ∧ r.extraBytes = .missing := by decide

/-- The first field and the last. -/
theorem witness_CsBuildNamesFirstIllegalField :
    (csFieldOrder = [] ++ .professional :: csFieldOrder.tail
      ∧ CsField.professional.legal (({ professional := .int 1 } : CsRecord).get .professional) = false)
    ∧ csFieldOrder = csFieldOrder.dropLast ++ .extraBytes :: []
      ∧ (∀ g ∈ csFieldOrder.dropLast,
          g.legal (({ (rec' 48000 24) with extraBytes := .ints [256] } : CsRecord).get g) = true)
      ∧ CsField.extraBytes.legal (({ (rec' 48000 24) with extraBytes := .ints [256] } : CsRecord).get .extraBytes) = false := by
  decide

/-- A sample, at the last frame and channel; and no sample. -/
theorem witness_SfAssembleSubframe : (scnAt 0).enc.status = .ready ∧ (scnAt 0).enc.cfg = some scn
    ∧ scn.channels[1]? = some (scnChannel 5) ∧ 383 < 192 * scn.nblocks
    ∧ sampleAt (scnChannel 5).policy (scnChannel 5).seed 383 = some 0x000780
    ∧ sampleAt ({ scnChannel 5 with policy := .none } : Channel).policy 0 0 = none
    ∧ 192 * scn.nblocks ≤ 384 ∧ scn.channels.length ≤ 2 := by decide +kernel

/-- Also of EncStepEmitsNextSubframe: no command yet, and a rejected configuration. -/
theorem witness_notConfigured : notConfigured State.reset
    ∧ notConfigured (withEnc { EncState.reset with status := .configError, err := some ⟨.unsupportedPolicy, "policy[0]"⟩ }) :=
  ⟨.inl rfl, .inr rfl⟩

theorem witness_LevelInvariance : popcount (toSeq (0b11#28)) % 2 = 0 ∧ popcount (toSeq (1#28)) % 2 = 1 := by decide

theorem witness_PackBytes : (packHalfCells .lsbFirst (toSeq (1#64)))[0]? = some 1#8
    ∧ (packHalfCells .msbFirst (toSeq (1#64)))[7]? = some 0#8 ∧ State.reset.params.packOrder = .lsbFirst
    ∧ ({ State.reset with params := { Config.suggested with packOrder := .msbFirst } } : State).params.packOrder
      = .msbFirst := by decide

theorem witness_EncConfigureTakesConfiguration : scnRecord.wf = true
    ∧ (∀ p ∈ scnRecord.channels, (constructPolicy p).isSome)
    ∧ ∀ r ∈ scnRecord.csRecords, ∀ f : CsField, f.legal (r.get f) = true := by
  refine ⟨by decide, by decide, fun r hr => ?_⟩
  rw [List.eq_of_mem_replicate hr]
  exact legal_rec (by decide) (by decide)

theorem witness_EncConfigureReportsFirstBadPolicy :
    let bad : PolicySpec := ⟨.str "sine", .int 1⟩
    let good : PolicySpec := ⟨.str "ramp", .int 1⟩
    ({ scnRecord with channels := [good, bad] } : EncConfig).wf = true
    ∧ ({ scnRecord with channels := [good, bad] } : EncConfig).channels = [good] ++ bad :: []
    ∧ (∀ q ∈ [good], (constructPolicy q).isSome)
    ∧ bad.name ≠ .str "none" ∧ bad.name ≠ .str "fixed" ∧ bad.name ≠ .str "ramp" := by decide

/-- The second cause of R301: a `fixed` and a `ramp` whose value is no integer, as the only channel. -/
theorem witness_EncConfigureReportsFirstBadPolicy_value : ∀ name ∈ ["fixed", "ramp"],
    let c : EncConfig := { scnRecord with channels := [⟨.str name, .missing⟩], seed := [0], v := [false], u := [false] }
    c.wf = true ∧ c.channels = [] ++ ⟨.str name, .missing⟩ :: []
    ∧ (FieldVal.str name = .str "fixed" ∨ FieldVal.str name = .str "ramp") ∧ ∀ k, FieldVal.missing ≠ .int k := by
  intro name hn
  refine ⟨rfl, rfl, ?_, fun _ h => (nomatch h)⟩
  simp only [List.mem_cons, List.not_mem_nil, or_false] at hn
  rcases hn with rfl | rfl
  · exact .inl rfl
  · exact .inr rfl

theorem witness_EncConfigureReportsFirstBadRecord :
    let c : EncConfig := { scnRecord with cs := .each [rec' 48000 24, rec' 48000 25] }
    c.wf = true ∧ (∀ q ∈ c.channels, (constructPolicy q).isSome)
    ∧ c.csRecords = [rec' 48000 24] ++ rec' 48000 25 :: []
    ∧ (∀ q ∈ [rec' 48000 24], ∀ g : CsField, g.legal (q.get g) = true)
    ∧ (rec' 48000 25).firstIllegal = some .bitDepth := by
  refine ⟨by decide, by decide, rfl, fun q hq => ?_, by decide⟩
  rw [List.mem_singleton.1 hq]
  exact legal_rec (by decide) (by decide)

/-- Of EncStepEmitsNextSubframe, EncRunEmitsWholeStream and EncRunRepeatsEncStep. -/
theorem witness_enc_ready : (scnAt 0).Inv ∧ (scnAt 0).enc.status = .ready ∧ (scnAt 0).enc.cfg = some scn
    ∧ (∃ u, exec .encStep (scnAt 0) = .next u ∧ ∃ v, exec .encRun u = .next v) ∧ (∃ t, exec .encRun (scnAt 0) = .next t)
    ∧ State.reset.enc.status ≠ .ready := by
  obtain ⟨u, hu, -⟩ := exec_spec .encStep (scnAt 0)
  obtain ⟨v, hv, -⟩ := exec_spec .encRun u
  obtain ⟨t, ht, -⟩ := exec_spec .encRun (scnAt 0)
  exact ⟨scn_inv, rfl, rfl, ⟨u, hu, v, hv⟩, ⟨t, ht⟩, by decide⟩

/-- `OUT` holding `n` bytes. -/
def zeroBytes (n : Nat) : Memory := (List.range n).map fun a => (a, 0#8)

theorem zeroBytes_keys (n : Nat) : (zeroBytes n).map Prod.fst = List.range n := by
  rw [zeroBytes, List.map_map]
  exact List.map_id _

/-- The engine running `SCN` at output position `p`, with `OUT` as long as the invariant asks. -/
def scnFrom (p : Nat) : State := withEnc { (scnAt p).enc with out := zeroBytes (8 * p) }

theorem scnFrom_inv {p : Nat} (hp : p < scn.total) : (scnFrom p).Inv :=
  ⟨⟨⟨scn, rfl, by decide, hp⟩, scn_inv.1.2.1, scn_inv.1.2.2.1, zeroBytes_keys _⟩, rfl, fun e h => (nomatch h),
    fun _ => DecState.reset_inv⟩

/-- Of EncStepEmitsNextSubframe: the step that finishes the stream. -/
theorem witness_enc_last : (scnFrom 767).Inv ∧ (scnFrom 767).enc.status = .ready ∧ (scnFrom 767).enc.cfg = some scn
    ∧ (scnFrom 767).enc.p + 1 = scn.total := ⟨scnFrom_inv (by decide), rfl, rfl, by decide⟩

/-- Of EncStepEmitsNextSubframe: a stream already emitted. -/
theorem witness_enc_finished :
    (withEnc { (scnAt 768).enc with status := .finished }).enc.status = .finished
    ∧ (withEnc { (scnAt 768).enc with status := .finished }).enc.cfg = some scn := ⟨rfl, rfl⟩

theorem witness_EncStatusReport : State.reset.enc.cfg = none ∧ (scnAt 0).enc.cfg = some scn := ⟨rfl, rfl⟩

theorem witness_RotationPermutesSubframes : 0 < scn.total ∧ 0 < ({ scn with qs := 5 } : EncCfg).total ∧ 767 < scn.total := by
  decide

/-- A window that is no pattern, and the eighth half-cell of one. -/
theorem witness_SearchingHalfCell : (withDec { locked with mode := .searching, win := bits "1110100" }).dec 0
      = { locked with mode := .searching, win := bits "1110100" }
    ∧ bits "1110100" ++ [false] = pat .z false ∧ (∀ sym L, bits "1110100" ++ [true] ≠ pat sym L)
    ∧ ((bits "11110100" ++ [false]).drop 1 = pat .z false) := by
  refine ⟨rfl, by decide, fun sym L => ?_, by decide⟩
  cases sym <;> cases L <;> decide

/-- Cells 0 and 27, with a boundary transition and without. -/
theorem witness_FirstHalfCellOfDataCell : ((withDec locked).dec 0).mode = .lockedData
    ∧ ((withDec locked).dec 0).half = false ∧ true ≠ ((withDec locked).dec 0).prev ∧ false = ((withDec locked).dec 0).prev
    ∧ ((withDec { locked with cell := 27 }).dec 0).half = false := by decide

theorem witness_SecondHalfCellOfDataCell :
    let d : DecState := { locked with half := true, a := true, prev := true }
    ((withDec d).dec 0).mode = .lockedData ∧ ((withDec d).dec 0).half = true ∧ ((withDec d).dec 0).cell < 27
    ∧ ((withDec { d with cell := 26 }).dec 0).cell < 27 := by decide

/-- The last half-cell of a subframe: even parity and odd; before the first Z and after it; the 192nd zero C bit. -/
theorem witness_EndOfSubframe :
    let d : DecState := { locked with half := true, a := true, prev := true, cell := 27, chk := BitVec.allOnes 28 }
    ((withDec d).dec 0).mode = .lockedData ∧ ((withDec d).dec 0).half = true ∧ ((withDec d).dec 0).cell = 27
    ∧ popcount (toSeq (setBit d.data 27 (true != d.a))) % 2 = 0
    ∧ popcount (toSeq (setBit d.data 27 (false != d.a))) % 2 = 1
    ∧ d.haltOnMismatch = false ∧ ({ d with haltOnMismatch := true } : DecState).haltOnMismatch = true
    ∧ ({ d with started := false } : DecState).started = false ∧ ({ d with zero0 := 191 } : DecState).zero0 + 1 = 192 := by
  decide

/-- The seventh half-cell; the eighth of a pattern; the eighth of the other level's pattern. -/
theorem witness_PreamblePositionHalfCell :
    ((withDec { atPreamble false with pbuf := bits "111010" }).dec 0).mode = .lockedPreamble
    ∧ (bits "111010" ++ [false]).length ≠ 8 ∧ (bits "1110100" ++ [false]).length = 8
    ∧ bits "1110100" ++ [false] = pat .z (atPreamble false).pl
    ∧ (bits "0001101" ++ [true]).length = 8 ∧ ∀ sym, bits "0001101" ++ [true] ≠ pat sym (atPreamble false).pl := by
  refine ⟨by decide, by decide, by decide, by decide, by decide, fun sym => ?_⟩
  cases sym <;> decide

theorem witness_TerminalModesAbsorb : ((withDec { locked with mode := .done }).dec 0).mode = .done
    ∧ ((withDec { locked with mode := .fatal }).dec 0).mode = .fatal ∧ agentOf (.decAdvance 0 true) = .dec 0
    ∧ Instr.decAdvance 0 true ≠ .decReset 0 ∧ (∀ halt, Instr.decAdvance 0 true ≠ .decConfigure 0 halt)
    ∧ Instr.decAdvance 0 true ≠ .decStatus 0 ∧ Instr.decConfigure 0 true ≠ .decReset 0
    ∧ ∃ t, exec (.decConfigure 0 true) (withDec { locked with mode := .fatal }) = .next t :=
  ⟨rfl, rfl, rfl, fun h => (nomatch h), fun _ h => (nomatch h), fun h => (nomatch h), fun h => (nomatch h), _, rfl⟩

/-- A block with an entry recorded; a whole byte recorded; a byte with one entry missing. -/
theorem witness_DecStatusReport :
    let m := (List.range 8).map fun b => (192 + b, b == 1)
    csRxRead m 1 0 ≠ none ∧ (∀ b < 8, csRxRead m 1 (8 * 0 + b) = some ((2#8).getLsbD b))
    ∧ ∃ b < 8, csRxRead m 1 (8 * 23 + b) = none := by decide

theorem witness_FeedingIsRepeatedAdvance :
    (Instr.decFeed 0 [true] = .decFeed 0 [true])
    ∧ (∃ b, Instr.decFeedByte 0 0x17 = .decFeedByte 0 b ∧ unpackByte .lsbFirst 0x17 = unpackByte .lsbFirst b)
    ∧ (∃ bs, Instr.decFeedBytes 0 [] = .decFeedBytes 0 bs ∧ [] = bs.flatMap (unpackByte .lsbFirst))
    ∧ (Instr.cellL1B1 0, [false, true]) ∈ [(Instr.cellL1B0 0, [false, false]), (.cellL1B1 0, [false, true])]
    ∧ ∃ x, (Instr.cellL1Illegal 0 true, [true, true]) ∈ [(Instr.cellL1Illegal 0 x, [true, x])] :=
  ⟨rfl, ⟨_, rfl, rfl⟩, ⟨[], rfl, rfl⟩, by decide, true, by decide⟩

theorem witness_PreambleRowsOnTheLine : (State.reset.dec 0).mode = .searching ∧ (State.reset.dec 0).win = []
    ∧ ((withDec (atPreamble false)).dec 0).mode = .lockedPreamble ∧ ((withDec (atPreamble false)).dec 0).pbuf = []
    ∧ ((withDec (atPreamble false)).dec 0).pl = false ∧ ((withDec (atPreamble true)).dec 0).pl = !false := by decide

/-- Of DataCellRowsOnTheLine at cells 0 and 26, and of IllegalCellRowsOnTheLine. -/
theorem witness_cell_rows : ((withDec locked).dec 0).mode = .lockedData ∧ ((withDec locked).dec 0).half = false
    ∧ ((withDec locked).dec 0).cell < 27 ∧ ((withDec locked).dec 0).prev = false
    ∧ ((withDec { locked with prev := true, cell := 26 }).dec 0).cell < 27
    ∧ ((withDec { locked with prev := true, cell := 26 }).dec 0).prev = true := by decide

/-- The last half-cell of a subframe with even parity, and with odd. -/
theorem witness_DescriptorsHaveTheLiteralForm :
    let d : DecState := { locked with half := true, a := true, prev := true, cell := 27, chk := BitVec.allOnes 28, frame := 41 }
    ((withDec d).dec 0).Inv
    ∧ (∃ t, exec (.decAdvance 0 true) (withDec d) = .next t
      ∧ .subframe "41 [Z] - 000000000000000000000000 1111111111111111111111111111" ⟨0, false, false, false, false⟩
        ∈ t.resp.events)
    ∧ ∃ t, exec (.decAdvance 0 false) (withDec d) = .next t
      ∧ .decodeMismatch (some "41 [Z] - 000000000000000000000000 1111111111111111111111111111")
          ⟨0, false, false, false, true⟩ ∈ t.resp.events := by
  refine ⟨⟨by decide, by decide, by decide, rfl, by decide, by decide, fun _ => rfl, fun h => (nomatch h), fun _ => rfl,
    by decide⟩, ⟨_, rfl, ?_⟩, _, rfl, ?_⟩ <;> decide +kernel

/-- Of ReadOnlyCommandsFrame and OtherAgentsAreUntouched. -/
theorem witness_frames : (rec' 12345 99).firstIllegal = some .sampleRate
    ∧ (∀ f : CsField, f.legal ((rec' 48000 24).get f) = true) ∧ (∃ t, exec .encStatus State.reset = .next t) ∧ agentOf .encStatus = .enc
    ∧ (∃ t, exec (.decReset 3) State.reset = .next t) ∧ agentOf (.decReset 3) = .dec 3 :=
  ⟨by decide, legal_rec (by decide) (by decide), ⟨_, rfl⟩, rfl, ⟨_, rfl⟩, rfl⟩

theorem witness_EncodedSubframeIsRecovered : ((withDec (atPreamble true)).dec 0).mode = .lockedPreamble
    ∧ ((withDec (atPreamble true)).dec 0).pbuf = [] ∧ ((withDec (atPreamble true)).dec 0).pl = true
    ∧ popcount (toSeq (0x8000001#28)) % 2 = 0 := by decide

theorem witness_EncoderStreamRoundTrip : (scnAt 0).Inv ∧ (scnAt 0).enc.status = .ready ∧ (scnAt 0).enc.cfg = some scn
    ∧ (scnAt 0).enc.p = 0 ∧ scn.qs % scn.total = 0
    ∧ (scnAt 0).dec 5 = { DecState.reset with haltOnMismatch := false }
    ∧ ∀ ch, scn.channels[0]? = some ch → ch.cs ≠ 0 := by
  refine ⟨scn_inv, rfl, rfl, rfl, by decide, rfl, fun ch hch => ?_⟩
  cases hch
  decide

/-- Of the same, an instance that halts on a mismatch. -/
theorem witness_EncoderStreamRoundTrip_halt :
    let s := (scnAt 0).setDec 5 { DecState.reset with haltOnMismatch := true }
    s.Inv ∧ s.enc.status = .ready ∧ s.enc.cfg = some scn ∧ s.enc.p = 0
    ∧ s.dec 5 = { DecState.reset with haltOnMismatch := true } := by
  refine ⟨⟨scn_inv.1, by decide, fun e he => ?_, fun n => ?_⟩, rfl, rfl, rfl, by decide⟩
  · have he' : e ∈ [(5, { DecState.reset with haltOnMismatch := true })] := he
    cases List.mem_singleton.1 he'
    decide
  · by_cases hn : n = 5
    · subst hn
      rw [State.dec_setDec]
      exact DecState.reset_inv
    · rw [State.dec_setDec_other _ _ hn]
      exact DecState.reset_inv

end Sys2Proof.Tests
end

/-! # Scope (00_scope.md): parameters, agents, the errors of `CS_BUILD`

What a step does, what a command writes and reads by agent, and which field `CS_BUILD` names; then the statements of
this family. -/

namespace Sys2Proof.Machine

/-! ## One step -/

/-- What one step does (R84, R92, R318): nothing with no command issued; else the oldest command is decoded and
performed, or refused. -/
theorem step_cases {s t : State} (h : step s = .next t) :
    (s.cmds = [] ∧ t = s)
      ∨ ∃ c rest, s.cmds = c :: rest
        ∧ ((∃ i, decode c = .ok i ∧ exec i { s with cmds := rest } = .next t)
          ∨ ∃ why, decode c = .error why ∧ t = { s with cmds := rest }.refuse why) := by
  unfold step at h
  split at h
  · next hc => exact .inl ⟨hc, (Host.Outcome.next.inj h).symm⟩
  · next c rest hc =>
    refine .inr ⟨c, rest, hc, ?_⟩
    split at h
    · next i hd => exact .inl ⟨i, hd, h⟩
    · next why hd => exact .inr ⟨why, hd, (Host.Outcome.next.inj h).symm⟩

/-- What every command does, of the state it answers (`exec_spec`). -/
theorem exec_next {i : Instr} {s t : State} (h : exec i s = .next t) :
    t.cmds = s.cmds ∧ t.params = s.params ∧ t.evt = s.evt ++ t.resp.events.map fun e => (agentOf i, e) := by
  obtain ⟨t', ht', hcmds, hparams, -, hevt⟩ := exec_spec i s
  cases h.symm.trans ht'
  exact ⟨hcmds, hparams, hevt⟩

/-- Settles O12: a refusal writes no parameter, and neither does any command. -/
theorem parametersAreFixed : Obligations.ParametersAreFixed := by
  intro s t h
  obtain ⟨-, rfl⟩ | ⟨c, rest, -, ⟨i, -, hi⟩ | ⟨why, -, rfl⟩⟩ := step_cases h
  · rfl
  · obtain ⟨-, hparams, -⟩ := exec_next hi
    exact hparams
  · rfl

/-! ## Frames by agent -/

/-- Settles O58: the frame of a command, `exec_agent`; `OUT` is a register of `ENC`. -/
theorem otherAgentsAreUntouched : Obligations.OtherAgentsAreUntouched := by
  intro s t i h
  obtain ⟨hEnc, hDec⟩ := exec_agent h
  refine ⟨hEnc, fun n hn => ?_⟩
  obtain ⟨henc, hothers⟩ := hDec n hn
  exact ⟨henc, hothers, fun a => by rw [henc]⟩

/-! ## CS_BUILD -/

/-- The field a record is rejected for: every field before it in the order of R140 is legal, and it is not. -/
theorem CsRecord.firstIllegal_eq_some {r : CsRecord} {before after : List CsField} {f : CsField}
    (ho : csFieldOrder = before ++ f :: after) (hb : ∀ g ∈ before, g.legal (r.get g) = true)
    (hf : f.legal (r.get f) = false) : r.firstIllegal = some f := by
  rw [CsRecord.firstIllegal, List.find?_eq_some_iff_append]
  exact ⟨by simp [hf], before, after, ho, fun g hg => by simp [hb g hg]⟩

/-- Settles O24: `CS_BUILD` answers, records and reports the error of the first illegal field. -/
theorem csBuildNamesFirstIllegalField : Obligations.CsBuildNamesFirstIllegalField := by
  intro s r before after f ho hb hf
  obtain ⟨t, ht, hframe, -, herror⟩ := execCsBuild_spec r s
  obtain ⟨hanswers, henc⟩ := herror f (buildCs_eq_error.2 (CsRecord.firstIllegal_eq_some ho hb hf))
  exact ⟨t, ht, hanswers, hframe, henc⟩

/-! ## Commutation -/

/-- The registers of an agent (R3): the engine's, or those of a decoder. -/
def State.registersOf (s : State) : Agent → EncState ⊕ DecState
  | .enc => .inl s.enc
  | .dec n => .inr (s.dec n)

/-- A command leaves the registers of every other agent as they were. -/
theorem exec_registersOf_other {i : Instr} {s t : State} (h : exec i s = .next t) {a : Agent} (ha : a ≠ agentOf i) :
    t.registersOf a = s.registersOf a := by
  obtain ⟨hEnc, hDec⟩ := exec_agent h
  cases hi : agentOf i with
  | enc =>
    cases a with
    | enc => exact absurd hi.symm ha
    | dec m => simp only [State.registersOf, State.dec, hEnc hi]
  | dec n =>
    obtain ⟨henc, hothers⟩ := hDec n hi
    cases a with
    | enc => simp only [State.registersOf, henc]
    | dec m =>
      have hm : m ≠ n := fun hmn => ha (by rw [hi, hmn])
      simp only [State.registersOf, hothers m hm]

/-- From `s` to `t` and from `s'` to `t'` the same was done: the agent ends with the same registers, HOST is answered
the same, and the mark of R333 is set in both or in neither. -/
def SameEffect (a : Agent) (s t s' t' : State) : Prop :=
  t'.registersOf a = t.registersOf a ∧ t'.resp = t.resp
    ∧ ∃ mark, t.refused = (s.refused || mark) ∧ t'.refused = (s'.refused || mark)

section
variable {s s' : State}

/-- The same answer, no register written. -/
theorem SameEffect.respond {a : Agent} (h : s'.registersOf a = s.registersOf a) (v : Value) (es : List Event) :
    SameEffect a s (s.respond a v es) s' (s'.respond a v es) :=
  ⟨by cases a <;> exact h, rfl, false, by simp, by simp⟩

/-- The same refusal. -/
theorem SameEffect.refuse {a : Agent} (h : s'.registersOf a = s.registersOf a) (why : RefusedWhy) :
    SameEffect a s (s.refuse why) s' (s'.refuse why) :=
  ⟨by cases a <;> exact h, rfl, true, by simp, by simp⟩

/-- The same engine written, with the same answer. -/
theorem SameEffect.writeEnc (e : EncState) (v : Value) (es : List Event) :
    SameEffect .enc s ({ s with enc := e }.respond .enc v es) s' ({ s' with enc := e }.respond .enc v es) :=
  ⟨rfl, rfl, false, by simp, by simp⟩

/-- The same decoder written, with the same answer. -/
theorem SameEffect.writeDec (n : Nat) (d : DecState) (v : Value) (es : List Event) :
    SameEffect (.dec n) s ((s.setDec n d).respond (.dec n) v es) s' ((s'.setDec n d).respond (.dec n) v es) :=
  ⟨by simp [State.registersOf], rfl, false, by simp, by simp⟩

/-- The same half-cells on the line of a decoder with the same registers. -/
theorem SameEffect.feedDec {n : Nat} (h : s'.dec n = s.dec n) (hs : BitSeq) :
    SameEffect (.dec n) s (s.feedDec n hs) s' (s'.feedDec n hs) := by
  simp only [State.feedDec, h]
  exact .writeDec n _ _ _

/-- What a command of the engine does depends on the parameters and the engine only. -/
theorem exec_enc_sameEffect {i : Instr} (ha : agentOf i = .enc) (hp : s'.params = s.params) (he : s'.enc = s.enc) :
    ∃ t t', exec i s = .next t ∧ exec i s' = .next t' ∧ SameEffect .enc s t s' t' := by
  have hr : s'.registersOf .enc = s.registersOf .enc := by simp only [State.registersOf, he]
  cases i with
  | encConfigure c =>
    simp only [exec, execEncConfigure, State.takeConfigError, hp, he]
    cases c.wf with
    | false => exact ⟨_, _, rfl, rfl, .refuse hr _⟩
    | true => cases acceptConfig s.params c <;> exact ⟨_, _, rfl, rfl, .writeEnc _ _ _⟩
  | encStep =>
    simp only [exec, execEncStep, hp, he]
    cases s.enc.advance s.params with
    | none => exact ⟨_, _, rfl, rfl, .refuse hr _⟩
    | some r => exact ⟨_, _, rfl, rfl, .writeEnc _ _ _⟩
  | csBuild r =>
    simp only [exec, execCsBuild, hp, he]
    cases buildCs s.params r with
    | ok cs => exact ⟨_, _, rfl, rfl, .respond hr _ _⟩
    | error f => exact ⟨_, _, rfl, rfl, .writeEnc _ _ _⟩
  | sfAssemble j k =>
    simp only [exec, execSfAssemble, he]
    cases s.enc.inUse with
    | none => exact ⟨_, _, rfl, rfl, .refuse hr _⟩
    | some c =>
      dsimp only
      cases assemble c j k with
      | none => exact ⟨_, _, rfl, rfl, .refuse hr _⟩
      | some sf => exact ⟨_, _, rfl, rfl, .respond hr _ _⟩
  | encRun =>
    simp only [exec, execEncRun, hp, he]
    exact ⟨_, _, rfl, rfl, .writeEnc _ _ _⟩
  | encStatus =>
    simp only [exec, execEncStatus, he]
    exact ⟨_, _, rfl, rfl, .respond hr _ _⟩
  | pack h =>
    simp only [exec, execPack, hp]
    exact ⟨_, _, rfl, rfl, .respond hr _ _⟩
  | reserved => exact ⟨_, _, rfl, rfl, .refuse hr _⟩
  | genNext _ _ | preSelect _ _ | parity _ | bmcEncode _ _ _ => exact ⟨_, _, rfl, rfl, .respond hr _ _⟩
  | _ => cases ha

/-- What a command of a decoder does depends on the parameters and that decoder only. -/
theorem exec_dec_sameEffect {i : Instr} {n : Nat} (ha : agentOf i = .dec n) (hp : s'.params = s.params)
    (hd : s'.dec n = s.dec n) :
    ∃ t t', exec i s = .next t ∧ exec i s' = .next t' ∧ SameEffect (.dec n) s t s' t' := by
  cases i with
  | decAdvance m h =>
    cases ha
    simp only [exec, execDecAdvance, hd]
    exact ⟨_, _, rfl, rfl, .writeDec _ _ _ _⟩
  | decReset m =>
    cases ha
    simp only [exec, execDecReset, hd]
    exact ⟨_, _, rfl, rfl, .writeDec _ _ _ _⟩
  | decConfigure m halt =>
    cases ha
    simp only [exec, execDecConfigure, hd]
    exact ⟨_, _, rfl, rfl, .writeDec _ _ _ _⟩
  | decStatus m =>
    cases ha
    simp only [exec, execDecStatus, hd]
    exact ⟨_, _, rfl, rfl, .respond (by simp only [State.registersOf, hd]) _ _⟩
  | decFeedByte m b =>
    cases ha
    simp only [exec, execDecFeedByte, hp]
    exact ⟨_, _, rfl, rfl, .feedDec hd _⟩
  | decFeedBytes m bs =>
    cases ha
    simp only [exec, execDecFeedBytes, hp]
    exact ⟨_, _, rfl, rfl, .feedDec hd _⟩
  | decFeed m _ | preambleZL0 m | preambleZL1 m | preambleXL0 m | preambleXL1 m | preambleYL0 m | preambleYL1 m
  | cellL0B0 m | cellL0B1 m | cellL1B0 m | cellL1B1 m | cellL0Illegal m _ | cellL1Illegal m _ =>
    cases ha
    exact ⟨_, _, rfl, rfl, .feedDec hd _⟩
  | _ => cases ha

end

/-- A command reads the parameters and its own agent's registers only: from two states that agree on those it has the
same effect. -/
theorem exec_sameEffect {i : Instr} {s t s' t' : State} (hp : s'.params = s.params)
    (hr : s'.registersOf (agentOf i) = s.registersOf (agentOf i)) (h : exec i s = .next t) (h' : exec i s' = .next t') :
    SameEffect (agentOf i) s t s' t' := by
  have key : ∃ u u', exec i s = .next u ∧ exec i s' = .next u' ∧ SameEffect (agentOf i) s u s' u' := by
    cases ha : agentOf i with
    | enc =>
      rw [ha] at hr
      exact exec_enc_sameEffect ha hp (Sum.inl.inj hr)
    | dec n =>
      rw [ha] at hr
      exact exec_dec_sameEffect ha hp (Sum.inr.inj hr)
  obtain ⟨u, u', hu, hu', hsame⟩ := key
  cases h.symm.trans hu
  cases h'.symm.trans hu'
  exact hsame

/-- Two commands of different agents have the same effect in either order, each command's own taken apart. -/
theorem exec_swap {i k : Instr} {s s1 t1 s2 t2 : State} (hik : agentOf i ≠ agentOf k) (hi : exec i s = .next s1)
    (hk1 : exec k s1 = .next t1) (hk : exec k s = .next s2) (hi2 : exec i s2 = .next t2) :
    SameEffect (agentOf i) s s1 s2 t2 ∧ SameEffect (agentOf k) s s2 s1 t1 := by
  obtain ⟨-, hp1, -⟩ := exec_next hi
  obtain ⟨-, hp2, -⟩ := exec_next hk
  exact ⟨exec_sameEffect hp2 (exec_registersOf_other hk hik) hi hi2,
    exec_sameEffect hp1 (exec_registersOf_other hi hik.symm) hk hk1⟩

/-- Two commands of different agents leave every agent with the same registers in either order. -/
theorem exec_swap_registersOf {i k : Instr} {s s1 t1 s2 t2 : State} (hik : agentOf i ≠ agentOf k)
    (hi : exec i s = .next s1) (hk1 : exec k s1 = .next t1) (hk : exec k s = .next s2) (hi2 : exec i s2 = .next t2)
    (a : Agent) : t1.registersOf a = t2.registersOf a := by
  obtain ⟨⟨hri, -⟩, hrk, -⟩ := exec_swap hik hi hk1 hk hi2
  by_cases hai : a = agentOf i
  · subst hai
    exact (exec_registersOf_other hk1 hik).trans hri.symm
  · by_cases hak : a = agentOf k
    · subst hak
      exact hrk.trans (exec_registersOf_other hi2 hai).symm
    · calc t1.registersOf a = s1.registersOf a := exec_registersOf_other hk1 hak
        _ = s.registersOf a := exec_registersOf_other hi hai
        _ = s2.registersOf a := (exec_registersOf_other hk hak).symm
        _ = t2.registersOf a := (exec_registersOf_other hi2 hai).symm

/-- No event of one agent is another's. -/
theorem filter_events_other {a c : Agent} (h : a ≠ c) (es : List Event) :
    (es.map fun e => (a, e)).filter (fun e => decide (e.1 = c)) = [] := by
  simp [List.filter_eq_nil_iff, h]

/-- Events of two different agents appended in either order: each agent's own stand in the same order. -/
theorem filter_events_swap {a b : Agent} (hab : a ≠ b) (old : List (Agent × Event)) (es fs : List Event)
    (c : Agent) :
    (old ++ (es.map fun e => (a, e)) ++ fs.map fun e => (b, e)).filter (fun e => decide (e.1 = c))
      = (old ++ (fs.map fun e => (b, e)) ++ es.map fun e => (a, e)).filter (fun e => decide (e.1 = c)) := by
  simp only [List.filter_append]
  by_cases hac : a = c
  · simp [filter_events_other (fun hbc => hab (hac.trans hbc.symm) : b ≠ c)]
  · simp [filter_events_other hac]

/-- Settles O14: a command writes its own agent's registers only (`exec_registersOf_other`) and reads no other's
(`exec_sameEffect`). -/
theorem commandsToDifferentAgentsCommute : Obligations.CommandsToDifferentAgentsCommute := by
  intro i k s s1 t1 s2 t2 hik hi hk1 hk hi2
  obtain ⟨⟨-, hrespI, x, hx1, hx2⟩, -, hrespK, y, hy2, hy1⟩ := exec_swap hik hi hk1 hk hi2
  have hregs := exec_swap_registersOf hik hi hk1 hk hi2
  obtain ⟨hc1, hp1, he1⟩ := exec_next hi
  obtain ⟨hc2, hp2, he2⟩ := exec_next hk
  obtain ⟨hc3, hp3, he3⟩ := exec_next hk1
  obtain ⟨hc4, hp4, he4⟩ := exec_next hi2
  refine ⟨?params, Sum.inl.inj (hregs .enc), fun n => Sum.inr.inj (hregs (.dec n)), ?refused, ?cmds, hrespI.symm,
    hrespK, fun a => ?evt⟩
  case params => rw [hp3, hp1, hp4, hp2]
  case refused => rw [hy1, hx1, hx2, hy2, Bool.or_right_comm]
  case cmds => rw [hc3, hc1, hc4, hc2]
  case evt =>
    rw [he3, he1, he4, he2, hrespI, hrespK]
    exact filter_events_swap hik s.evt _ _ a

end Sys2Proof.Machine

/-! # State (10_state.md): the invariant of the block, the output position, the decoder's counters

What keeps the invariant, operation by operation; what a configuration and a step of the engine leave; how the counters
of a decoder grow; then the statements of this family. -/

namespace Sys2Proof.Machine

/-! ## The invariant of the engine -/

/-- The engine before any command meets its invariant. -/
theorem EncState.reset_inv (P : Params) : EncState.reset.Inv P :=
  ⟨⟨rfl, rfl⟩, EncState.errFits_of_none rfl nofun, nofun, rfl⟩

/-- A rejected configuration leaves an engine that meets its invariant, whatever it was before. -/
theorem EncState.reject_inv (P : Params) (e : EncState) (x : ConfigError) : (e.reject x).Inv P :=
  ⟨⟨rfl, rfl⟩, ⟨fun _ => nofun, fun h => absurd rfl h⟩, nofun, rfl⟩

/-- `enc_status` after a configuration matches the configuration at position 0 (R202). -/
theorem EncState.configured_statusFits {c : EncCfg} (h : 1 ≤ c.nch) : (EncState.configured c).statusFits := by
  by_cases ht : c.total = 0
  · have hs : (EncState.configured c).status = .finished := if_pos ht
    rw [EncState.statusFits, hs]
    exact ⟨c, rfl, h, ht.symm⟩
  · have hs : (EncState.configured c).status = .ready := if_neg ht
    rw [EncState.statusFits, hs]
    exact ⟨c, rfl, h, Nat.pos_of_ne_zero ht⟩

/-- The configuration an accepted record gives leaves an engine that meets its invariant. -/
theorem EncState.configured_inv {P : Params} {c : EncConfig} {cfg : EncCfg} (hw : c.wf = true)
    (h : acceptConfig P c = .ok cfg) : (EncState.configured cfg).Inv P := by
  obtain ⟨hnch, -, -, -, hch⟩ := acceptConfig_ok hw h
  obtain ⟨hpos, -⟩ := EncConfig.wf_iff.1 hw
  refine ⟨configured_statusFits (hnch ▸ hpos), errFits_of_none rfl ?_, ?_, rfl⟩
  · show statusAfterConfigure cfg ≠ .configError
    unfold statusAfterConfigure
    split <;> nofun
  · rintro _ ⟨⟩
    refine ⟨rfl, fun ch hmem => ?_⟩
    obtain ⟨i, hi⟩ := List.mem_iff_getElem?.1 hmem
    obtain ⟨-, -, -, -, -, hcs⟩ := hch i ch hi
    exact hcs

/-- `ENC_STEP` keeps the engine's invariant: the 8 bytes of the subframe extend `OUT`, and the level comes back. -/
theorem EncState.advance_inv {P : Params} {e e' : EncState} {es : List Event} (hi : e.Inv P)
    (h : e.advance P = some (e', es)) : e'.Inv P := by
  obtain ⟨-, rfl, -⟩ | ⟨c, sf, hr, hc, -, -, rfl⟩ := EncState.advance_cases h
  · exact hi
  · obtain ⟨hstatus, ⟨-, herr⟩, hcfg, hout⟩ := hi
    have herr := herr (by simp [hr])
    rw [EncState.statusFits, hr] at hstatus
    obtain ⟨c', hc', hnch, hp⟩ := hstatus
    cases hc.symm.trans hc'
    have hout' := (Memory.keys_writeBytes_append (packHalfCells P.packOrder (bmcEncode sf.1 sf.2 e.level).1) hout).1
    rw [packHalfCells_length] at hout'
    by_cases hlast : e.p + 1 = c.total
    · rw [if_pos hlast]
      exact ⟨⟨c, hc, hnch, hlast⟩, ⟨nofun, fun _ => herr⟩, hcfg, hout'⟩
    · rw [if_neg hlast]
      exact ⟨⟨c, hc, hnch, Nat.lt_of_le_of_ne hp hlast⟩, ⟨nofun, fun _ => herr⟩, hcfg, hout'⟩

/-- `ENC_RUN` keeps the engine's invariant: it is repeated `ENC_STEP`. -/
theorem EncState.run_inv {P : Params} (fuel : Nat) {e : EncState} (hi : e.Inv P) : (e.run P fuel).1.Inv P := by
  induction fuel generalizing e with
  | zero => exact hi
  | succ fuel ih =>
    unfold EncState.run
    split
    · split
      · exact hi
      · next hadv => exact ih (EncState.advance_inv hi hadv)
    · exact hi

/-! ## The invariant of a decoder -/

/-- The invariant does not speak of `halt_on_mismatch`. -/
theorem DecState.Inv.setHalt {d : DecState} (h : d.Inv) (halt : Bool) : { d with haltOnMismatch := halt }.Inv := h

/-- `DEC_RESET` gives a decoder that meets the invariant, whatever it was before. -/
theorem DecState.restart_inv (d : DecState) : d.restart.Inv := DecState.reset_inv.setHalt _

/-! ## The invariant of the block -/

section
variable {s : State}

/-- The invariant speaks of the parameters, the engine and the decoders only. -/
theorem State.Inv.respond (h : s.Inv) (a : Agent) (v : Value) (es : List Event) : (s.respond a v es).Inv := h

theorem State.Inv.refuse (h : s.Inv) (why : RefusedWhy) : (s.refuse why).Inv := h

theorem State.Inv.setCmds (h : s.Inv) (cmds : List Command) : { s with cmds := cmds }.Inv := h

/-- Where only the engine was written, and meets its invariant, the block meets its own. -/
theorem State.Inv.writeEnc {t : State} (h : s.Inv) (hframe : sameButEnc s t) (he : t.enc.Inv s.params) : t.Inv := by
  obtain ⟨hparams, hdecs, -, -⟩ := hframe
  obtain ⟨-, hrest⟩ := h
  refine ⟨by rwa [hparams], ?_⟩
  simpa only [State.dec, hdecs] using hrest

/-- Writing a decoder that meets its invariant keeps the block's: the list stays in canonical form, and no decoder
in its reset state is listed (R316). -/
theorem State.Inv.setDec (h : s.Inv) (n : Nat) {d : DecState} (hd : d.Inv) : (s.setDec n d).Inv := by
  obtain ⟨henc, hkeys, hreset, hdecs⟩ := h
  refine ⟨henc, ?keys, ?reset, fun m => ?decs⟩
  case keys =>
    unfold State.setDec
    split
    · exact risingKeys_storeDrop n hkeys
    · exact risingKeys_storePut n d hkeys
  case reset =>
    unfold State.setDec
    split
    · exact fun e he => hreset e (List.mem_of_mem_filter he)
    · next hne =>
      intro e he
      obtain rfl | he := mem_keys_storePut he
      · exact hne
      · exact hreset e he
  case decs =>
    by_cases hm : m = n
    · rw [hm, State.dec_setDec]
      exact hd
    · rw [State.dec_setDec_other s d hm]
      exact hdecs m

/-- The invariant of the block's engine. -/
theorem State.Inv.enc (h : s.Inv) : s.enc.Inv s.params := h.1

/-- The invariant of one decoder of the block. -/
theorem State.Inv.dec (h : s.Inv) (n : Nat) : (s.dec n).Inv := h.2.2.2 n

/-- Half-cells on a decoder's line keep the invariant. -/
theorem State.Inv.feedDec (h : s.Inv) (n : Nat) (hs : BitSeq) : (s.feedDec n hs).Inv :=
  (h.setDec n (DecState.feed_inv hs (h.dec n))).respond _ _ _

end

/-- Settles O17: the engine and every decoder are in their reset states. -/
theorem resetMeetsInvariant : Obligations.ResetMeetsInvariant :=
  ⟨EncState.reset_inv _, rfl, fun _ he => absurd he List.not_mem_nil, fun _ => DecState.reset_inv⟩

/-! ## What `ENC_CONFIGURE` and `ENC_STEP` answer -/

/-- `ENC_CONFIGURE` with an accepted record (R202). -/
theorem exec_encConfigure_ok {s : State} {c : EncConfig} {cfg : EncCfg} (hw : c.wf = true)
    (h : acceptConfig s.params c = .ok cfg) :
    exec (.encConfigure c) s = .next ({ s with enc := EncState.configured cfg }.respond .enc .nothing []) := by
  simp only [exec, execEncConfigure, if_pos hw, h]

/-- `ENC_CONFIGURE` with a record that raises an error (R202, R306). -/
theorem exec_encConfigure_error {s : State} {c : EncConfig} {x : ConfigError} (hw : c.wf = true)
    (h : acceptConfig s.params c = .error x) : exec (.encConfigure c) s = .next (s.takeConfigError x) := by
  simp only [exec, execEncConfigure, if_pos hw, h]

/-- `ENC_CONFIGURE` with a record that has not its shape (R333). -/
theorem exec_encConfigure_badShape {s : State} {c : EncConfig} (hw : ¬c.wf = true) :
    exec (.encConfigure c) s = .next (s.refuse .badShape) := by
  simp only [exec, execEncConfigure, if_neg hw]

/-- `ENC_STEP` with a configuration in use (R203). -/
theorem exec_encStep_some {s : State} {e : EncState} {es : List Event} (h : s.enc.advance s.params = some (e, es)) :
    exec .encStep s = .next ({ s with enc := e }.respond .enc .nothing es) := by
  simp only [exec, execEncStep, h]

/-- `ENC_STEP` without one (R333). -/
theorem exec_encStep_none {s : State} (h : s.enc.advance s.params = none) :
    exec .encStep s = .next (s.refuse .notConfigured) := by
  simp only [exec, execEncStep, h]

/-! ## Every step -/

/-- A command of the engine keeps the invariant. -/
theorem exec_enc_inv {i : Instr} {s t : State} (ha : agentOf i = .enc) (hi : s.Inv) (h : exec i s = .next t) :
    t.Inv := by
  cases i with
  | encConfigure c =>
    by_cases hw : c.wf = true
    · cases hc : acceptConfig s.params c with
      | ok cfg =>
        cases (exec_encConfigure_ok hw hc).symm.trans h
        exact hi.writeEnc ⟨rfl, rfl, rfl, rfl⟩ (EncState.configured_inv hw hc)
      | error x =>
        cases (exec_encConfigure_error hw hc).symm.trans h
        exact hi.writeEnc ⟨rfl, rfl, rfl, rfl⟩ (EncState.reject_inv _ _ x)
    · cases (exec_encConfigure_badShape hw).symm.trans h
      exact hi.refuse _
  | encStep =>
    cases hadv : s.enc.advance s.params with
    | none =>
      cases (exec_encStep_none hadv).symm.trans h
      exact hi.refuse _
    | some r =>
      cases (exec_encStep_some hadv).symm.trans h
      exact hi.writeEnc ⟨rfl, rfl, rfl, rfl⟩ (EncState.advance_inv hi.enc hadv)
  | encRun =>
    cases h
    exact hi.writeEnc ⟨rfl, rfl, rfl, rfl⟩ (EncState.run_inv _ hi.enc)
  | csBuild r =>
    obtain ⟨t', ht', hframe, hok, herror⟩ := execCsBuild_spec r s
    cases ht'.symm.trans h
    cases hb : buildCs s.params r with
    | ok cs =>
      obtain ⟨-, henc⟩ := hok cs hb
      exact hi.writeEnc hframe (henc ▸ hi.enc)
    | error f =>
      obtain ⟨-, henc⟩ := herror f hb
      exact hi.writeEnc hframe (henc ▸ hi.enc.recordError f)
  | sfAssemble j k =>
    simp only [exec, execSfAssemble] at h
    split at h
    · cases h
      exact hi.refuse _
    · split at h
      · cases h
        exact hi.refuse _
      · cases h
        exact hi.respond _ _ _
  | reserved =>
    cases h
    exact hi.refuse _
  | encStatus | genNext _ _ | preSelect _ _ | parity _ | bmcEncode _ _ _ | pack _ =>
    cases h
    exact hi.respond _ _ _
  | _ => cases ha

/-- A command of a decoder keeps the invariant. -/
theorem exec_dec_inv {i : Instr} {n : Nat} {s t : State} (ha : agentOf i = .dec n) (hi : s.Inv)
    (h : exec i s = .next t) : t.Inv := by
  cases i with
  | decAdvance m b =>
    cases h
    exact (hi.setDec m (DecState.advance_inv b (hi.dec m))).respond _ _ _
  | decReset m =>
    cases h
    exact (hi.setDec m (DecState.restart_inv _)).respond _ _ _
  | decConfigure m halt =>
    cases h
    exact (hi.setDec m ((hi.dec m).setHalt halt)).respond _ _ _
  | decStatus m =>
    cases h
    exact hi.respond _ _ _
  | decFeedByte m _ | decFeed m _ | decFeedBytes m _ | preambleZL0 m | preambleZL1 m | preambleXL0 m
  | preambleXL1 m | preambleYL0 m | preambleYL1 m | cellL0B0 m | cellL0B1 m | cellL1B0 m | cellL1B1 m
  | cellL0Illegal m _ | cellL1Illegal m _ =>
    cases h
    exact hi.feedDec m _
  | _ => cases ha

/-- Settles O18: the command performed is the engine's (`exec_enc_inv`) or a decoder's (`exec_dec_inv`), or it is
refused. -/
theorem everyStepKeepsInvariant : Obligations.EveryStepKeepsInvariant := by
  intro s t hi h
  obtain ⟨-, rfl⟩ | ⟨c, rest, -, ⟨i, -, hexec⟩ | ⟨why, -, rfl⟩⟩ := step_cases h
  · exact hi
  · cases ha : agentOf i with
    | enc => exact exec_enc_inv ha (hi.setCmds rest) hexec
    | dec n => exact exec_dec_inv ha (hi.setCmds rest) hexec
  · exact (hi.setCmds rest).refuse why

/-! ## A configuration taken -/

/-- A record whose policies are all constructed and whose channel-status records are all legal is accepted. -/
theorem acceptConfig_isOk {c : EncConfig} (P : Params) (hp : ∀ p ∈ c.channels, (constructPolicy p).isSome)
    (hr : ∀ r ∈ c.csRecords, ∀ f : CsField, f.legal (r.get f) = true) : ∃ cfg, acceptConfig P c = .ok cfg := by
  obtain ⟨qs, hqs⟩ := constructPolicies_isOk (i := 0) hp
  obtain ⟨css, hcss⟩ := buildBlocks_isOk (P := P) hr
  simp only [acceptConfig, hqs, hcss]
  exact ⟨_, rfl⟩

/-- Settles O32: the record is accepted, and the engine holds what `acceptConfig_ok` says. -/
theorem encConfigureTakesConfiguration : Obligations.EncConfigureTakesConfiguration := by
  intro s c hw hp hr
  obtain ⟨cfg, hcfg⟩ := acceptConfig_isOk s.params hp hr
  obtain ⟨hnch, hnb, hqs, hinit, hch⟩ := acceptConfig_ok hw hcfg
  have hstatus : statusAfterConfigure cfg = if 192 * c.nblocks * c.nch = 0 then .finished else .ready := by
    rw [statusAfterConfigure, EncCfg.total, hnb, hnch]
  exact ⟨_, cfg, exec_encConfigure_ok hw hcfg, ⟨rfl, rfl⟩, ⟨rfl, rfl, rfl, rfl⟩, hstatus, rfl, rfl, rfl, hinit, rfl,
    hnch, hnb, hqs, hinit, hch⟩

/-! ## The rotation -/

/-- The index at an output position, `k` written out (R37, R204). -/
theorem EncCfg.index_eq_sub_qs {c : EncCfg} (p : Nat) (h : 0 < c.total) :
    (c.index p : Int) = ((p : Int) - (c.qs % c.total : Nat)) % (c.total : Int) := by
  rw [EncCfg.index_eq p h, EncCfg.rotation, if_neg h.ne']

/-- The output position of the subframe with an index, `(q + k) mod N`: the inverse of `EncCfg.index`. -/
def EncCfg.positionOf (c : EncCfg) (q : Nat) : Nat := (q + c.rotation) % c.total

theorem EncCfg.index_positionOf {c : EncCfg} {q : Nat} (hq : q < c.total) : c.index (c.positionOf q) = q := by
  have hk := EncCfg.rotation_lt (Nat.zero_lt_of_lt hq)
  rw [EncCfg.index, EncCfg.positionOf, Nat.mod_add_mod,
    show q + c.rotation + (c.total - c.rotation) = q + c.total by omega, Nat.add_mod_right, Nat.mod_eq_of_lt hq]

theorem EncCfg.positionOf_index {c : EncCfg} {p : Nat} (hp : p < c.total) : c.positionOf (c.index p) = p := by
  have hk := EncCfg.rotation_lt (Nat.zero_lt_of_lt hp)
  rw [EncCfg.index, EncCfg.positionOf, Nat.mod_add_mod,
    show p + (c.total - c.rotation) + c.rotation = p + c.total by omega, Nat.add_mod_right, Nat.mod_eq_of_lt hp]

/-- Settles O39: `EncCfg.positionOf` inverts the index on both sides. -/
theorem rotationPermutesSubframes : Obligations.RotationPermutesSubframes := by
  intro c h
  refine ⟨fun p _ => EncCfg.index_eq_sub_qs p h, fun q hq => ?_⟩
  refine ⟨c.positionOf q, Nat.mod_lt _ h, EncCfg.index_positionOf hq, fun p' hp' hindex => ?_⟩
  rw [← hindex, EncCfg.positionOf_index hp']

/-! ## One subframe emitted -/

/-- While `READY` the engine emits the subframe at `p`, and the level comes back (R203, R226). -/
theorem EncState.advance_emits {P : Params} {e : EncState} {c : EncCfg} {sf : Sym × BitSeq} (hr : e.status = .ready)
    (hc : e.cfg = some c) (ht : 0 < c.total) (hsf : c.subframeAt e.p = some sf) :
    e.advance P = some ({ e with
        out := e.out.writeBytes (8 * e.p) (packHalfCells P.packOrder (bmcEncode sf.1 sf.2 e.level).1)
        level := e.level
        p := e.p + 1
        status := if e.p + 1 = c.total then .finished else .ready },
      [.subframeOut (packHalfCells P.packOrder (bmcEncode sf.1 sf.2 e.level).1)]) := by
  obtain ⟨e', es, hadv⟩ := EncState.advance_ready (P := P) hr hc ht
  obtain ⟨hf, -⟩ | ⟨c', sf', -, hc', hsf', rfl, rfl⟩ := EncState.advance_cases hadv
  · exact absurd (hr.symm.trans hf) nofun
  · cases hc.symm.trans hc'
    cases hsf.symm.trans hsf'
    exact hadv

/-- In `FINISHED` the engine does nothing (R203). -/
theorem EncState.advance_finished {P : Params} {e : EncState} {c : EncCfg} (hf : e.status = .finished)
    (hc : e.cfg = some c) : e.advance P = some (e, []) := by
  simp only [EncState.advance, EncState.inUse_eq_some.2 ⟨.inr hf, hc⟩, if_pos hf]

/-- Settles O35: `READY` is `EncState.advance_emits` at the index of R204, with the level of the invariant. -/
theorem encStepEmitsNextSubframe : Obligations.EncStepEmitsNextSubframe := by
  refine ⟨?ready, ?finished, ?notConfigured⟩
  case ready =>
    intro s c hi hr hc q
    obtain ⟨⟨hstatus, -, hcfg, -⟩, -⟩ := hi
    obtain ⟨hlevel, -⟩ := hcfg c hc
    rw [EncState.statusFits, hr] at hstatus
    obtain ⟨c', hc', -, hp⟩ := hstatus
    cases hc.symm.trans hc'
    have ht : 0 < c.total := Nat.zero_lt_of_lt hp
    have hq : q = c.index s.enc.p := by
      show Int.toNat _ = _
      rw [← EncCfg.index_eq_sub_qs _ ht, Int.toNat_natCast]
    obtain ⟨ch, hch, hsf⟩ := EncCfg.subframeAt_spec s.enc.p ht
    rw [← hq] at hch hsf
    refine ⟨_, ch, hch, exec_encStep_some (EncState.advance_emits hr hc ht hsf),
      ⟨⟨rfl, rfl⟩, packHalfCells_length _ _, fun k hk => ?stored, ?level⟩, fun a ha => ?kept, rfl, hlevel, hc, rfl,
      rfl, rfl, rfl, rfl, rfl⟩
    case stored => exact Memory.readByte_writeBytes_inside _ _ _ _ (by rwa [packHalfCells_length])
    case level => exact (bmcEncode_level _ _ (subframeBits_length _ _) (xorAll_subframeBits _ _)).symm
    case kept => exact Memory.readByte_writeBytes_outside _ _ _ _ (by rwa [packHalfCells_length])
  case finished =>
    intro s c hf hc
    exact ⟨_, exec_encStep_some (EncState.advance_finished hf hc), ⟨rfl, rfl⟩, rfl, rfl, rfl, rfl, rfl⟩
  case notConfigured =>
    intro s h
    exact ⟨_, exec_encStep_none (EncState.advance_eq_none h), s.refuse_isRefusal _⟩

/-! ## DEC_RESET and DEC_CONFIGURE -/

theorem DecState.restart_hasResetValues (d : DecState) : d.restart.hasResetValues :=
  ⟨rfl, rfl, rfl, rfl, rfl, rfl, rfl, rfl, rfl, rfl, rfl, rfl, fun _ _ => rfl, rfl, rfl, rfl, rfl⟩

/-- Settles O47: the decoder is written with its restart, and `halt_on_mismatch` is what a restart keeps. -/
theorem decResetKeepsOnlyHalt : Obligations.DecResetKeepsOnlyHalt := by
  intro s n
  obtain ⟨hdec, hanswers, hframe⟩ := s.setDec_respond_spec n (s.dec n).restart []
  refine ⟨_, rfl, hanswers, hframe, ?_⟩
  rw [hdec]
  exact ⟨DecState.restart_hasResetValues _, rfl⟩

/-- Settles O48: the decoder is written with `halt_on_mismatch` changed. -/
theorem decConfigureWritesHalt : Obligations.DecConfigureWritesHalt := by
  intro s n halt
  obtain ⟨hdec, hanswers, hframe⟩ := s.setDec_respond_spec n { s.dec n with haltOnMismatch := halt } []
  exact ⟨_, rfl, hanswers, hframe, hdec⟩

/-! ## The counters -/

/-- From `d` to `d'` a decoder returned `es`: each counter grew by the number of its events among them (R56), and
`halt_on_mismatch` is as it was (R57). -/
def DecState.Counted (d d' : DecState) (es : List Event) : Prop :=
  d'.nMissing = d.nMissing + es.countP (fun e => match e with | .missingTransition _ => true | _ => false)
    ∧ d'.nMismatch = d.nMismatch + es.countP (fun e => match e with | .decodeMismatch _ _ => true | _ => false)
    ∧ d'.nDiscard = d.nDiscard + es.countP (fun e => match e with | .discard _ => true | _ => false)
    ∧ d'.haltOnMismatch = d.haltOnMismatch

theorem DecState.Counted.append {d d' d'' : DecState} {es es' : List Event} (h : d.Counted d' es)
    (h' : d'.Counted d'' es') : d.Counted d'' (es ++ es') := by
  obtain ⟨h1, h2, h3, h4⟩ := h
  obtain ⟨h1', h2', h3', h4'⟩ := h'
  refine ⟨?_, ?_, ?_, h4'.trans h4⟩ <;> rw [List.countP_append] <;> omega

theorem search_counted (d : DecState) (h : Bool) : d.Counted (search d h).1 (search d h).2 := by
  unfold search
  dsimp only
  split
  · rw [acquire_eq]
    exact ⟨rfl, rfl, rfl, rfl⟩
  · exact ⟨rfl, rfl, rfl, rfl⟩

theorem firstHalf_counted (d : DecState) (h : Bool) : d.Counted (firstHalf d h).1 (firstHalf d h).2 := by
  unfold firstHalf
  split <;> exact ⟨rfl, rfl, rfl, rfl⟩

/-- A subframe not reported yet is reported or counted as a discard. -/
theorem finishSubframe_counted (reported : Bool) (f : Fields) (desc : Option String) (d : DecState) :
    d.Counted (finishSubframe reported f desc d).1 (finishSubframe reported f desc d).2 := by
  unfold finishSubframe
  cases reported <;> cases desc <;> simp only [Bool.false_eq_true, if_true, if_false] <;> split <;>
    exact ⟨rfl, rfl, rfl, rfl⟩

/-- A subframe of odd parity is counted as a mismatch, whether or not it halts the decoder. -/
theorem parityCheck_counted (f : Fields) (desc : Option String) (d : DecState) :
    d.Counted (parityCheck f desc d).1 (parityCheck f desc d).2 := by
  have hmismatch : d.Counted (d.takeDecodeMismatch desc f).1 (d.takeDecodeMismatch desc f).2 := ⟨rfl, rfl, rfl, rfl⟩
  unfold parityCheck
  split
  · dsimp only
    split
    · exact hmismatch
    · exact hmismatch.append (finishSubframe_counted true f desc _)
  · exact finishSubframe_counted false f desc d

theorem endSubframe_counted (d : DecState) : d.Counted (endSubframe d).1 (endSubframe d).2 := by
  unfold endSubframe
  dsimp only
  split
  · exact parityCheck_counted _ _ { d with csRx := _ }
  · exact parityCheck_counted _ _ d

theorem secondHalf_counted (d : DecState) (h : Bool) : d.Counted (secondHalf d h).1 (secondHalf d h).2 := by
  unfold secondHalf
  dsimp only
  split
  · exact endSubframe_counted { d with data := _, prev := _, half := _, cell := _ }
  · exact ⟨rfl, rfl, rfl, rfl⟩

theorem preambleHalfCell_counted (d : DecState) (h : Bool) :
    d.Counted (preambleHalfCell d h).1 (preambleHalfCell d h).2 := by
  unfold preambleHalfCell
  dsimp only
  split
  · split
    · rw [enterData_eq]
      exact ⟨rfl, rfl, rfl, rfl⟩
    · exact ⟨rfl, rfl, rfl, rfl⟩
  · exact ⟨rfl, rfl, rfl, rfl⟩

/-- Every half-cell counts its events, in any state. -/
theorem DecState.advance_counted (d : DecState) (h : Bool) : d.Counted (d.advance h).1 (d.advance h).2 := by
  cases hm : d.mode with
  | done =>
    rw [DecState.advance_terminal h (.inl hm)]
    exact ⟨rfl, rfl, rfl, rfl⟩
  | fatal =>
    rw [DecState.advance_terminal h (.inr hm)]
    exact ⟨rfl, rfl, rfl, rfl⟩
  | searching =>
    rw [DecState.advance_searching h hm]
    exact search_counted d h
  | lockedPreamble =>
    rw [DecState.advance_preamble h hm]
    exact preambleHalfCell_counted d h
  | lockedData =>
    cases hh : d.half with
    | false =>
      rw [DecState.advance_first h hm hh]
      exact firstHalf_counted d h
    | true =>
      rw [DecState.advance_second h hm hh]
      exact secondHalf_counted d h

/-- Every sequence of half-cells counts its events. -/
theorem DecState.feed_counted (d : DecState) (hs : BitSeq) : d.Counted (d.feed hs).1 (d.feed hs).2 := by
  induction hs generalizing d with
  | nil => exact ⟨rfl, rfl, rfl, rfl⟩
  | cons h hs ih => exact (d.advance_counted h).append (ih _)

/-- Settles O54: the decoder is fed and answers the events of the feeding, which `DecState.feed_counted` counts. -/
theorem countersCountEvents : Obligations.CountersCountEvents := by
  intro s n hs
  obtain ⟨hdec, ⟨hresp, -⟩, -⟩ := s.feedDec_spec n hs
  refine ⟨_, rfl, ?_⟩
  rw [hdec, hresp]
  exact (s.dec n).feed_counted hs

end Sys2Proof.Machine

/-! # Memory (20_memory.md): the queue of commands, `EVT`, `IN` and `CSRX`

What one step does with the oldest command, what a command puts on a decoder's line, and what a reported block of
`cs_rx` holds; then the statements of this family. -/

namespace Sys2Proof.Machine

/-! ## The oldest command -/

section
variable {s : State} {c : Command} {rest : List Command}

theorem step_eq_exec {i : Instr} (hc : s.cmds = c :: rest) (hd : decode c = .ok i) :
    step s = exec i { s with cmds := rest } := by
  simp only [step, hc, hd]

theorem step_eq_refuse {why : RefusedWhy} (hc : s.cmds = c :: rest) (hd : decode c = .error why) :
    step s = .next ({ s with cmds := rest }.refuse why) := by
  simp only [step, hc, hd]

theorem step_eq_self (hc : s.cmds = []) : step s = .next s := by
  simp only [step, hc]

end

/-- Settles O6: the three equations of `step`. -/
theorem stepPerformsOldestCommand : Obligations.StepPerformsOldestCommand :=
  ⟨fun _ _ _ _ => step_eq_exec, fun _ _ _ _ hc hd => ⟨_, step_eq_refuse hc hd, State.refuse_isRefusal _ _⟩,
    fun _ => step_eq_self⟩

/-! ## `EVT` -/

/-- Settles O11: a command performed appends its events under its own agent (`exec_next`); a refusal has none. -/
theorem eventsAreAppendedToEvt : Obligations.EventsAreAppendedToEvt := by
  intro s t c rest hc h
  obtain ⟨hnil, -⟩ | ⟨_, rest', -, ⟨i, -, hi⟩ | ⟨why, -, rfl⟩⟩ := step_cases h
  · exact absurd (hc.symm.trans hnil) (List.cons_ne_nil _ _)
  · obtain ⟨-, -, hevt⟩ := exec_next hi
    exact ⟨agentOf i, hevt⟩
  · exact ⟨.enc, by simp⟩

/-! ## `IN` -/

/-- A command that is not routed to a decoder puts nothing on its line (R91). -/
theorem lineInput_eq_nil_of_agentOf_ne {i : Instr} {n : Nat} (o : PackOrder) (h : agentOf i ≠ .dec n) :
    lineInput o n i = [] := by
  cases i with
  | decAdvance m _ | decFeedByte m _ | decFeed m _ | decFeedBytes m _ | preambleZL0 m | preambleZL1 m
  | preambleXL0 m | preambleXL1 m | preambleYL0 m | preambleYL1 m | cellL0B0 m | cellL0B1 m | cellL1B0 m
  | cellL1B1 m | cellL0Illegal m _ | cellL1Illegal m _ => exact if_neg fun hm => h (congrArg Agent.dec hm)
  | _ => rfl

/-- `DEC_ADVANCE` puts one half-cell on the line. -/
theorem exec_decAdvance (s : State) (n : Nat) (h : Bool) : exec (.decAdvance n h) s = .next (s.feedDec n [h]) := by
  simp only [exec, execDecAdvance, State.feedDec, DecState.feed_cons, DecState.feed_nil, List.append_nil]

/-- Every command of a decoder but `DEC_RESET`, `DEC_CONFIGURE` and `DEC_STATUS` puts its half-cells on the line of
the decoder, and that is all it does (R107, R240, R264). -/
theorem exec_eq_feedDec {i : Instr} {n : Nat} (s : State) (ha : agentOf i = .dec n) (hreset : i ≠ .decReset n)
    (hconf : ∀ halt, i ≠ .decConfigure n halt) (hstatus : i ≠ .decStatus n) :
    exec i s = .next (s.feedDec n (lineInput s.params.packOrder n i)) := by
  cases i with
  | decAdvance m h =>
    cases ha
    rw [lineInput, if_pos rfl]
    exact exec_decAdvance s n h
  | decFeedByte m _ | decFeed m _ | decFeedBytes m _ | preambleZL0 m | preambleZL1 m
  | preambleXL0 m | preambleXL1 m | preambleYL0 m | preambleYL1 m | cellL0B0 m | cellL0B1 m | cellL1B0 m
  | cellL1B1 m | cellL0Illegal m _ | cellL1Illegal m _ =>
    cases ha
    rw [lineInput, if_pos rfl]
    rfl
  | decReset m =>
    cases ha
    exact absurd rfl hreset
  | decConfigure m halt =>
    cases ha
    exact absurd rfl (hconf halt)
  | decStatus m =>
    cases ha
    exact absurd rfl hstatus
  | _ => cases ha

/-- A step with a command that decodes takes its half-cells from the front of every decoder's stream (R73, R81). -/
theorem inStream_step {s t : State} {c : Command} {rest : List Command} {i : Instr} (n : Nat)
    (hc : s.cmds = c :: rest) (hd : decode c = .ok i) (h : step s = .next t) :
    s.inStream n = lineInput s.params.packOrder n i ++ t.inStream n := by
  obtain ⟨hcmds, hparams, -⟩ := exec_next ((step_eq_exec hc hd).symm.trans h)
  simp only [State.inStream, hc, List.flatMap_cons, hd, hcmds, hparams]

/-- Settles O13: the stream is `inStream_step`, the feeding is `exec_eq_feedDec`, and `lineInput` is read off. -/
theorem inputIsConsumedFrontFirst : Obligations.InputIsConsumedFrontFirst := by
  refine ⟨fun s t c rest i n => inStream_step n, fun s n i ha hreset hconf hstatus => ?fed, fun o n =>
    ⟨fun h => if_pos rfl, fun b => ?byte, ?none⟩⟩
  case fed => exact ⟨_, exec_eq_feedDec s ha hreset hconf hstatus, s.feedDec_spec n _⟩
  case byte => rw [lineInput, if_pos rfl, unpackByte_length]
  case none =>
    rintro i (ha | rfl | ⟨halt, rfl⟩ | rfl)
    · exact lineInput_eq_nil_of_agentOf_ne o ha
    all_goals rfl

/-! ## `CSRX` as `DEC_STATUS` reports it -/

theorem mem_dedupRuns {k : Nat} {l : List Nat} : k ∈ dedupRuns l ↔ k ∈ l := by
  induction l using dedupRuns.induct with
  | case1 => rfl
  | case2 => rfl
  | case3 k' t ih => simp [dedupRuns, ih]
  | case4 k' k'' t hne ih => simp [dedupRuns, hne, ih]

/-- A key that reads as a value is listed. -/
theorem exists_mem_of_storeGet_ne_none {α : Type} {m : List (Nat × α)} {k : Nat} (h : storeGet m k ≠ none) :
    ∃ e ∈ m, e.1 = k := by
  induction m with
  | nil => exact absurd rfl h
  | cons e m ih =>
    by_cases he : e.1 = k
    · exact ⟨e, List.mem_cons_self, he⟩
    · rw [storeGet, if_neg he] at h
      obtain ⟨e', hmem, hkey⟩ := ih h
      exact ⟨e', List.mem_cons_of_mem e hmem, hkey⟩

/-- A channel with an entry recorded is listed (R53). -/
theorem mem_csRxChannels {m : List (Nat × Bool)} {c b : Nat} (hb : b < 192) (h : csRxRead m c b ≠ none) :
    c ∈ csRxChannels m := by
  obtain ⟨e, hmem, hkey⟩ := exists_mem_of_storeGet_ne_none h
  rw [csRxChannels, mem_dedupRuns, List.mem_map]
  refine ⟨e, hmem, ?_⟩
  rw [hkey, csRxKey, Config.blockFrames]
  omega

theorem seqNat_toSeq {w : Nat} (x : BitVec w) : seqNat (toSeq x) = x.toNat := by
  have hlt := seqNat_lt (toSeq x)
  rw [toSeq_length] at hlt
  calc seqNat (toSeq x) = (ofSeq w (toSeq x)).toNat := by rw [ofSeq, BitVec.toNat_ofNat, Nat.mod_eq_of_lt hlt]
    _ = x.toNat := by rw [ofSeq_toSeq]

/-- Entries that are all bits have their integer value (R76). -/
theorem byteValue_map_some (s : BitSeq) : byteValue (s.map some) = some (seqNat s) := by
  have h : (s.map some).mapM id = some s := by
    induction s with
    | nil => rfl
    | cons b s ih => simp [ih]
  rw [byteValue, h, Option.map_some]

/-- Entries of which one is missing have none (R266). -/
theorem byteValue_eq_none {l : List (Option Bool)} (h : none ∈ l) : byteValue l = none := by
  have hm : l.mapM id = none := by
    induction l with
    | nil => cases h
    | cons x l ih =>
      cases x with
      | none => rfl
      | some b => simp [ih (by simpa using h)]
  rw [byteValue, hm, Option.map_none]

section
variable (m : List (Nat × Bool)) (c : Nat)

theorem csRxBlock_entries_length : (csRxBlock m c).entries.length = 192 := by simp [csRxBlock]

theorem csRxBlock_bytes_length : (csRxBlock m c).bytes.length = 24 := by simp [csRxBlock]

theorem csRxBlock_entries_getElem? {b : Nat} (hb : b < 192) :
    (csRxBlock m c).entries[b]? = some (csRxRead m c b) := by
  simp [csRxBlock, hb]

/-- Byte `n` of a block is read from its entries `8n .. 8n + 7` (R266). -/
theorem csRxBlock_bytes_getElem? {n : Nat} (hn : n < 24) :
    (csRxBlock m c).bytes[n]? = some (byteValue ((List.range 8).map fun b => csRxRead m c (8 * n + b))) := by
  have hentries : (((csRxBlock m c).entries.drop (8 * n)).take 8)
      = (List.range 8).map fun b => csRxRead m c (8 * n + b) := by
    apply List.ext_getElem?
    intro b
    by_cases hb : b < 8
    · rw [List.getElem?_take_of_lt hb, List.getElem?_drop, csRxBlock_entries_getElem? m c (by omega)]
      simp [hb]
    · simp [hb]
  rw [← hentries]
  simp [csRxBlock, hn]

variable {m c}

/-- A byte whose 8 entries are the bits of `x`. -/
theorem csRxBlock_byte_of_bits {n : Nat} (hn : n < 24) {x : Byte}
    (h : ∀ b < 8, csRxRead m c (8 * n + b) = some (x.getLsbD b)) :
    (csRxBlock m c).bytes[n]? = some (some x.toNat) := by
  have hbits : ((List.range 8).map fun b => csRxRead m c (8 * n + b)) = (toSeq x).map some := by
    rw [toSeq, List.map_map]
    exact List.map_congr_left fun b hb => h b (List.mem_range.1 hb)
  rw [csRxBlock_bytes_getElem? m c hn, hbits, byteValue_map_some, seqNat_toSeq]

/-- A byte of which an entry is missing. -/
theorem csRxBlock_byte_of_missing {n b : Nat} (hn : n < 24) (hb : b < 8) (h : csRxRead m c (8 * n + b) = none) :
    (csRxBlock m c).bytes[n]? = some none := by
  rw [csRxBlock_bytes_getElem? m c hn, byteValue_eq_none (List.mem_map.2 ⟨b, List.mem_range.2 hb, h⟩)]

end

/-- Settles O49: the registers are those of the report, and each block listed is a `csRxBlock`. -/
theorem decStatusReport : Obligations.DecStatusReport := by
  intro s n
  refine ⟨_, (s.dec n).report, rfl, State.respond_answers _ _ _ _, State.respond_frame _ _ _ _, rfl, rfl, rfl, rfl,
    rfl, rfl, rfl, rfl, rfl, fun c b hb h => ?listed, fun k hk => ?block⟩
  case listed => exact ⟨_, List.mem_map_of_mem (mem_csRxChannels hb h), rfl⟩
  case block =>
    obtain ⟨c, -, rfl⟩ := List.mem_map.1 hk
    exact ⟨csRxBlock_entries_length _ _, fun b => csRxBlock_entries_getElem? _ _, csRxBlock_bytes_length _ _,
      fun m hm => ⟨fun x => csRxBlock_byte_of_bits hm, fun ⟨b, hb, h⟩ => csRxBlock_byte_of_missing hm hb h⟩⟩

end Sys2Proof.Machine

/-! # Encoding (30_encoding.md): operands, the command map, the encoder; and the commands that are others repeated

What each operand check reads, what the command map answers, what a record of `ENC_CONFIGURE` is read as; what
`ENC_RUN` and the commands that feed a decoder repeat; what a subframe's end, a preamble and a data cell do on the line;
then the statements of this family. -/


namespace Sys2Proof

open Machine

/-! ## What each operand check reads -/

/-- `g` reads exactly what `e` writes: it answers `y` on the operand of `y` and on no other. -/
def Reads {α β : Type} (g : α → Option β) (e : β → α) : Prop := ∀ x y, g x = some y ↔ x = e y

section
variable {α β : Type} {g : α → Option β} {e : β → α}

theorem Reads.read (h : Reads g e) (y : β) : g (e y) = some y := (h _ y).2 rfl

theorem Reads.injective (h : Reads g e) : Function.Injective e := fun y z hyz =>
  Option.some.inj ((h.read y).symm.trans ((congrArg g hyz).trans (h.read z)))

/-- An operand list is read exactly when each of its elements is. -/
theorem Reads.mapM (h : Reads g e) : Reads (fun l => l.mapM g) (List.map e) := by
  intro xs ys
  induction xs generalizing ys with
  | nil => cases ys <;> simp
  | cons x xs ih => cases ys <;> simp [Option.bind_eq_some_iff, h _ _, ih]

/-- One element that is not read refuses the whole list (log 20). -/
theorem mapM_eq_none {x : α} {l : List α} (hx : x ∈ l) (h : g x = none) : l.mapM g = none := by
  induction l with
  | nil => cases hx
  | cons y l ih =>
    obtain rfl | hx := List.mem_cons.1 hx
    · simp [h]
    · simp [ih hx]

end

theorem bitOf_reads : Reads bitOf bitOperand := by
  intro n b
  unfold bitOf
  split
  · next h0 => subst h0; cases b <;> simp [bitOperand]
  · split
    · next h1 => subst h1; cases b <;> simp [bitOperand]
    · next h0 h1 => cases b <;> simp [bitOperand, h0, h1]

theorem natOf_reads : Reads natOf (fun k : Nat => (k : Int)) := by
  intro n k
  unfold natOf
  split
  · simp only [Option.some.injEq]; omega
  · simp only [false_iff, reduceCtorEq]; omega

theorem wordOf_reads (w : Nat) : Reads (wordOf w) (fun x => (x.toNat : Int)) := by
  intro n x
  constructor
  · intro h
    unfold wordOf at h
    split at h
    · next hn =>
      obtain ⟨h0, hlt⟩ := hn
      cases h
      simp only [BitVec.toNat_ofNat, Nat.mod_eq_of_lt hlt, Int.toNat_of_nonneg h0]
    · cases h
  · rintro rfl
    exact wordOf_toNat w x

theorem bitSeqOf_reads : Reads bitSeqOf seqOperand := bitOf_reads.mapM

theorem wordOf_eq_none {w : Nat} {n : Int} (h : ¬(0 ≤ n ∧ n < 2 ^ w)) : wordOf w n = none := by
  refine if_neg fun ⟨h0, hlt⟩ => h ⟨h0, ?_⟩
  rw [← Int.toNat_of_nonneg h0]
  exact_mod_cast hlt

theorem natOf_eq_none {n : Int} (h : n < 0) : natOf n = none := if_neg (by omega)

theorem wordOf_natCast {w k : Nat} (h : k < 2 ^ w) : wordOf w (k : Int) = some (BitVec.ofNat w k) := by
  rw [wordOf, Int.toNat_natCast, if_pos ⟨Int.natCast_nonneg k, h⟩]

theorem byteOfOperand_eq_none {x : Operand} (h : ∀ b, x ≠ .int b) : byteOfOperand x = none := by
  cases x with
  | int b => exact absurd rfl (h b)
  | _ => rfl

theorem symOf_eq_none {s : String} (hz : s ≠ "Z") (hx : s ≠ "X") (hy : s ≠ "Y") : symOf s = none := by
  simp only [symOf, hz, hx, hy, if_false]

/-- One element that is no bit refuses a bit sequence, whatever its length. -/
theorem bitSeqOf_eq_none {l : List Int} {x : Int} (hx : x ∈ l) (h0 : x ≠ 0) (h1 : x ≠ 1) : bitSeqOf l = none :=
  mapM_eq_none hx (bitOf_eq_none h0 h1)

theorem bitsWordOf_eq_none_of_mem {w : Nat} {l : List Int} {x : Int} (hx : x ∈ l) (h0 : x ≠ 0) (h1 : x ≠ 1) :
    bitsWordOf w l = none := by
  simp only [bitsWordOf, bitSeqOf_eq_none hx h0 h1]

/-- A list that holds the bits of a word, element by element, is the operand of that word. -/
theorem bitsWordOf_of_bits {w : Nat} {l : List Int} {b : BitVec w} (hl : l.length = w)
    (h : ∀ k < w, l[k]? = some (if b.getLsbD k then 1 else 0)) : bitsWordOf w l = some b := by
  have he : l = seqOperand (toSeq b) := by
    apply List.ext_getElem?
    intro k
    rw [seqOperand, List.getElem?_map, toSeq_getElem?]
    by_cases hk : k < w
    · rw [h k hk, if_pos hk]; rfl
    · rw [if_neg hk, List.getElem?_eq_none (by omega)]; rfl
  rw [he, bitsWordOf_seqOperand]

/-! ## The command map (R90): one equation per op with operands -/

section
variable (n : Nat)

theorem decode_encConfigure (r : RawConfig) : decode (.op 1#4 n [.encRecord r]) = decodeConfigure r := rfl

theorem decode_genNext (x : Operand) (p : Policy) :
    decode (.op 4#4 n [x, .policy p]) = orBad ((prevOf x).map fun x => .genNext x p) := rfl

theorem decode_preSelect (j i : Int) :
    decode (.op 6#4 n [.int j, .int i])
      = orBad ((natOf j).bind fun j => (natOf i).bind fun i => some (.preSelect j i)) := rfl

theorem decode_sfAssemble (j i : Int) :
    decode (.op 7#4 n [.int j, .int i])
      = orBad ((natOf j).bind fun j => (natOf i).bind fun i => some (.sfAssemble j i)) := rfl

theorem decode_parity (d : List Int) :
    decode (.op 8#4 n [.seq d]) = orBad ((bitsWordOf 27 d).map .parity) := rfl

theorem decode_bmcEncode (s : String) (d : List Int) (l : Int) :
    decode (.op 9#4 n [.name s, .seq d, .int l])
      = orBad ((symOf s).bind fun s => (bitsWordOf 28 d).bind fun d => (bitOf l).bind fun l =>
          some (.bmcEncode s d l)) := rfl

theorem decode_pack (h : List Int) : decode (.op 10#4 n [.seq h]) = orBad ((bitsWordOf 64 h).map .pack) := rfl

theorem decode_decAdvance (h : Int) :
    decode (.op 11#4 n [.int h]) = orBad ((bitOf h).map (.decAdvance n)) := rfl

theorem decode_decFeedByte (b : Int) :
    decode (.op 12#4 n [.int b]) = orBad ((wordOf 8 b).map (.decFeedByte n)) := rfl

theorem decode_decConfigure (h : Int) :
    decode (.op 14#4 n [.int h]) = orBad ((bitOf h).map (.decConfigure n)) := rfl

theorem decode_decFeed (d : List Int) :
    decode (.pseudo .decFeed n [.seq d]) = orBad ((bitSeqOf d).map (.decFeed n)) := rfl

theorem decode_decFeedBytes (bs : List Operand) :
    decode (.pseudo .decFeedBytes n bs) = orBad ((bs.mapM byteOfOperand).map (.decFeedBytes n)) := rfl

end

@[simp] theorem orBad_some (i : Instr) : orBad (some i) = .ok i := rfl
@[simp] theorem orBad_none : orBad none = .error .badOperands := rfl

/-! ## Decoding what was encoded -/

/-- Settles O2: an `ENC_CONFIGURE` record is read back field by field (`configOf_rawOfConfig`), every other operand by
its own check. -/
theorem decodeEncodeRoundTrip : Obligations.DecodeEncodeRoundTrip := by
  intro i hw
  cases i with
  | encConfigure c => exact decodeConfigure_eq_ok.2 ⟨c, configOf_rawOfConfig c, hw, rfl⟩
  | genNext prev p =>
    cases prev with
    | none => rfl
    | some x => exact (decode_genNext 0 _ p).trans (by simp [prevOf])
  | preSelect j i => exact (decode_preSelect 0 _ _).trans (by simp)
  | sfAssemble j i => exact (decode_sfAssemble 0 _ _).trans (by simp)
  | parity d => exact (decode_parity 0 _).trans (by simp)
  | bmcEncode s d l => exact (decode_bmcEncode 0 _ _ _).trans (by simp)
  | pack h => exact (decode_pack 0 _).trans (by simp)
  | decAdvance n h => exact (decode_decAdvance n _).trans (by simp)
  | decFeedByte n b => exact (decode_decFeedByte n _).trans (by simp)
  | decConfigure n halt => exact (decode_decConfigure n _).trans (by simp)
  | decFeed n s => exact (decode_decFeed n _).trans (by simp)
  | decFeedBytes n bs => exact (decode_decFeedBytes n _).trans (by rw [mapM_byteOfOperand]; rfl)
  | cellL0Illegal n x => cases x <;> rfl
  | cellL1Illegal n x => cases x <;> rfl
  | _ => rfl

/-- Settles O1: the decoder is run on each of the ten commands. -/
theorem writtenOutCommandsDecode : Obligations.WrittenOutCommandsDecode :=
  ⟨rfl, rfl, rfl, rfl, rfl, rfl, rfl, rfl, rfl, rfl⟩

/-! ## What is decoded -/

/-- The map of R90, row by row: the op, operands that have the types of the row, and the instruction they spell at
routing `n`. -/
inductive Spells (n : Nat) : BitVec 4 → List Operand → Instr → Prop where
  | reserved (args : List Operand) : Spells n 0#4 args .reserved
  | encConfigure {r : RawConfig} {c : EncConfig} : configOf r = some c → c.wf = true →
      Spells n 1#4 [.encRecord r] (.encConfigure c)
  | encStep : Spells n 2#4 [] .encStep
  | encStatus : Spells n 3#4 [] .encStatus
  | genNext {x : Operand} {prev : Option Sample} {p : Policy} : prevOf x = some prev →
      Spells n 4#4 [x, .policy p] (.genNext prev p)
  | csBuild (r : CsRecord) : Spells n 5#4 [.csRecord r] (.csBuild r)
  | preSelect {j i : Int} {j' i' : Nat} : natOf j = some j' → natOf i = some i' →
      Spells n 6#4 [.int j, .int i] (.preSelect j' i')
  | sfAssemble {j i : Int} {j' i' : Nat} : natOf j = some j' → natOf i = some i' →
      Spells n 7#4 [.int j, .int i] (.sfAssemble j' i')
  | parity {l : List Int} {d : BitVec 27} : bitsWordOf 27 l = some d → Spells n 8#4 [.seq l] (.parity d)
  | bmcEncode {s : String} {l : List Int} {x : Int} {sym : Sym} {d : DataBits} {level : Bool} : symOf s = some sym →
      bitsWordOf 28 l = some d → bitOf x = some level →
      Spells n 9#4 [.name s, .seq l, .int x] (.bmcEncode sym d level)
  | pack {l : List Int} {h : BitVec 64} : bitsWordOf 64 l = some h → Spells n 10#4 [.seq l] (.pack h)
  | decAdvance {x : Int} {h : Bool} : bitOf x = some h → Spells n 11#4 [.int x] (.decAdvance n h)
  | decFeedByte {x : Int} {b : Byte} : wordOf 8 x = some b → Spells n 12#4 [.int x] (.decFeedByte n b)
  | decReset : Spells n 13#4 [] (.decReset n)
  | decConfigure {x : Int} {halt : Bool} : bitOf x = some halt → Spells n 14#4 [.int x] (.decConfigure n halt)
  | decStatus : Spells n 15#4 [] (.decStatus n)

/-- What the command map answers on an op, said once: an instruction only by a row of R90. -/
theorem spells_of_decode {code : BitVec 4} {n : Nat} {args : List Operand} {i : Instr}
    (h : decode (.op code n args) = .ok i) : Spells n code args i := by
  have hcode : ∀ k : Nat, code.toNat = k → code = BitVec.ofNat 4 k := fun k hk => by
    rw [← hk, BitVec.ofNat_toNat, BitVec.setWidth_eq]
  simp only [decode, decodeOp] at h
  split at h
  case h_1 hc | h_4 hc | h_5 hc | h_7 hc | h_15 hc | h_17 hc =>
    obtain rfl := hcode _ hc
    cases h
    constructor
  case h_2 hc =>
    obtain rfl := hcode _ hc
    obtain ⟨c, hread, hw, rfl⟩ := decodeConfigure_eq_ok.1 h
    exact .encConfigure hread hw
  case h_6 hc | h_10 hc | h_12 hc | h_13 hc | h_14 hc | h_16 hc =>
    obtain rfl := hcode _ hc
    obtain ⟨x, hx, rfl⟩ := Option.map_eq_some_iff.1 (orBad_eq_ok.1 h)
    constructor
    exact hx
  case h_8 hc | h_9 hc =>
    obtain rfl := hcode _ hc
    obtain ⟨j, hj, hrest⟩ := Option.bind_eq_some_iff.1 (orBad_eq_ok.1 h)
    obtain ⟨i, hi, hout⟩ := Option.bind_eq_some_iff.1 hrest
    cases hout
    constructor
    · exact hj
    · exact hi
  case h_11 hc =>
    obtain rfl := hcode _ hc
    obtain ⟨s, hs, hrest⟩ := Option.bind_eq_some_iff.1 (orBad_eq_ok.1 h)
    obtain ⟨d, hd, hrest⟩ := Option.bind_eq_some_iff.1 hrest
    obtain ⟨l, hl, hout⟩ := Option.bind_eq_some_iff.1 hrest
    cases hout
    exact .bmcEncode hs hd hl
  case h_3 | h_18 => cases h

/-- Settles O4: each row of R90 names its own op. -/
theorem opAloneSelectsOperation : Obligations.OpAloneSelectsOperation := by
  intro code n args i h
  cases spells_of_decode h <;> rfl

/-- The row of `ENC_CONFIGURE` asks for the shape of R202; no other row has a record to check. -/
theorem Spells.wf {n : Nat} {code : BitVec 4} {args : List Operand} {i : Instr} (h : Spells n code args i) :
    i.wf = true := by
  cases h with
  | encConfigure _ hw => exact hw
  | _ => rfl

theorem op_of_decodePseudo {p : Pseudo} {n : Nat} {args : List Operand} {i : Instr}
    (h : decodePseudo p n args = .ok i) : i.op = none := by
  simp only [decodePseudo] at h
  split at h
  · cases h; rfl
  · obtain ⟨s, -, rfl⟩ := Option.map_eq_some_iff.1 (orBad_eq_ok.1 h); rfl
  · obtain ⟨bs, -, rfl⟩ := Option.map_eq_some_iff.1 (orBad_eq_ok.1 h); rfl
  · cases h
  · cases h

theorem op_preambleRow (n : Nat) (s : Sym) (L : Bool) : (preambleRow n s L).op = none := by
  cases s <;> cases L <;> rfl

theorem op_of_decodePreamble {n : Nat} {h : BitSeq} {i : Instr} (hd : decodePreamble n h = .ok i) :
    i.op = none := by
  unfold decodePreamble at hd
  split at hd
  · cases hd; exact op_preambleRow _ _ _
  · cases hd; exact op_preambleRow _ _ _
  · cases hd

theorem op_decodeCell (n : Nat) (L h1 h2 : Bool) : (decodeCell n L h1 h2).op = none := by
  cases L <;> cases h1 <;> cases h2 <;> rfl

/-- An instruction without an op has only operands that its types check. -/
theorem wf_of_op_eq_none {i : Instr} (h : i.op = none) : i.wf = true :=
  wf_of_not_configure fun c hc => by subst hc; cases h

/-- Settles O3: an op decodes by a row of R90 (`Spells.wf`); what has no op carries no record. -/
theorem decodedInstructionsAreWellFormed : Obligations.DecodedInstructionsAreWellFormed := by
  intro c i h
  cases c with
  | op code n args => exact (spells_of_decode h).wf
  | pseudo p n args => exact wf_of_op_eq_none (op_of_decodePseudo h)
  | preamble n pattern => exact wf_of_op_eq_none (op_of_decodePreamble h)
  | cell n L h1 h2 =>
    cases h
    exact wf_of_op_eq_none (op_decodeCell n L h1 h2)

/-! ## Operands refused or taken as given -/

/-- Operands that no row of R90 takes are refused. -/
theorem decode_op_eq_error {code : BitVec 4} {n : Nat} {args : List Operand} (h : ∀ i, ¬Spells n code args i) :
    ∃ why, decode (.op code n args) = .error why := by
  cases hd : decode (.op code n args) with
  | ok i => exact absurd (spells_of_decode hd) (h i)
  | error why => exact ⟨why, rfl⟩

theorem prevOf_kind {x : Operand} {prev : Option Sample} (h : prevOf x = some prev) :
    x = .none ∨ ∃ k, x = .int k := by
  cases x with
  | none => exact .inl rfl
  | int k => exact .inr ⟨k, rfl⟩
  | _ => cases h

/-! ### The record of `ENC_CONFIGURE` -/

/-- A field as given, or the default of a field left out. -/
theorem orDefault_eq_iff {f d v : FieldVal} (hv : v ≠ .missing) :
    f.orDefault d = v ↔ f = v ∨ f = .missing ∧ d = v := by
  cases f <;> simp [FieldVal.orDefault, hv.symm]

section
variable {f : FieldVal}

theorem toInt?_eq_some {k : Int} : f.toInt? = some k ↔ f = .int k := by
  cases f <;> simp [FieldVal.toInt?]

theorem toInts?_eq_some {l : List Int} : f.toInts? = some l ↔ f = .ints l := by
  cases f <;> simp [FieldVal.toInts?]

variable {β : Type} {g : Int → Option β} {e : β → Int}

/-- An integer field is read exactly when it holds the operand. -/
theorem toInt?_bind_eq_some (h : Reads g e) {y : β} : f.toInt?.bind g = some y ↔ f = .int (e y) := by
  simp [Option.bind_eq_some_iff, toInt?_eq_some, h _ _]

theorem orDefault_toInt?_bind_eq_some (h : Reads g e) {y z : β} {k : Int} (hz : e z = k) :
    (f.orDefault (.int k)).toInt?.bind g = some y ↔ f = .int (e y) ∨ f = .missing ∧ y = z := by
  rw [toInt?_bind_eq_some h, orDefault_eq_iff FieldVal.noConfusion, FieldVal.int.injEq, ← hz, h.injective.eq_iff,
    eq_comm (a := z)]

theorem orDefault_toInts?_bind_eq_some (h : Reads g e) {ys : List β} {z : β} {n : Nat} (hz : e z = 0) :
    (f.orDefault (.ints (List.replicate n 0))).toInts?.bind (fun l => l.mapM g) = some ys
      ↔ f = .ints (ys.map e) ∨ f = .missing ∧ ys = List.replicate n z := by
  have hread : ∀ v : FieldVal, v.toInts?.bind (fun l => l.mapM g) = some ys ↔ v = .ints (ys.map e) := fun v => by
    simp [Option.bind_eq_some_iff, toInts?_eq_some, h.mapM _ _]
  rw [hread, orDefault_eq_iff FieldVal.noConfusion, FieldVal.ints.injEq, ← hz, ← List.map_replicate,
    (List.map_injective_iff.2 h.injective).eq_iff, eq_comm (a := List.replicate n z)]

end

theorem csArgOf_eq_some {x : RawCs} {a : CsArg} :
    csArgOf x = some a ↔ (∃ q, x = .one q ∧ a = .one q) ∨ ∃ l, x = .each l ∧ a = .each l := by
  cases x <;> simp [csArgOf, eq_comm]

/-- A raw record is read exactly when each of its fields is. -/
theorem configOf_eq_some_iff_fields {r : RawConfig} {c : EncConfig} :
    configOf r = some c ↔
      r.channels = some c.channels
      ∧ r.nblocks.toInt?.bind natOf = some c.nblocks
      ∧ (r.qs.orDefault (.int 0)).toInt?.bind natOf = some c.qs
      ∧ (r.initLevel.orDefault (.int 0)).toInt?.bind bitOf = some c.initLevel
      ∧ (r.seed.orDefault (.ints (List.replicate c.channels.length 0))).toInts?.bind
          (fun l => l.mapM (wordOf 24)) = some c.seed
      ∧ (r.v.orDefault (.ints (List.replicate c.channels.length 0))).toInts?.bind bitSeqOf = some c.v
      ∧ (r.u.orDefault (.ints (List.replicate c.channels.length 0))).toInts?.bind bitSeqOf = some c.u
      ∧ csArgOf r.cs = some c.cs := by
  constructor
  · intro h
    obtain ⟨channels, hch, h⟩ := Option.bind_eq_some_iff.1 h
    obtain ⟨nblocks, hnb, h⟩ := Option.bind_eq_some_iff.1 h
    obtain ⟨qs, hqs, h⟩ := Option.bind_eq_some_iff.1 h
    obtain ⟨initLevel, hil, h⟩ := Option.bind_eq_some_iff.1 h
    obtain ⟨seed, hseed, h⟩ := Option.bind_eq_some_iff.1 h
    obtain ⟨v, hv, h⟩ := Option.bind_eq_some_iff.1 h
    obtain ⟨u, hu, h⟩ := Option.bind_eq_some_iff.1 h
    obtain ⟨cs, hcs, h⟩ := Option.bind_eq_some_iff.1 h
    cases h
    exact ⟨hch, hnb, hqs, hil, hseed, hv, hu, hcs⟩
  · rintro ⟨hch, hnb, hqs, hil, hseed, hv, hu, hcs⟩
    simp only [configOf, hch, hnb, hqs, hil, hseed, hv, hu, hcs, Option.bind_eq_bind, Option.bind_some,
      Option.pure_def]

/-- What record a raw record is read as: every field as given, or R202's default of one left out. -/
theorem configOf_eq_some {r : RawConfig} {c : EncConfig} :
    configOf r = some c ↔
      r.channels = some c.channels ∧ r.nblocks = .int c.nblocks
      ∧ (r.qs = .int c.qs ∨ r.qs = .missing ∧ c.qs = 0)
      ∧ (r.initLevel = .int (bitOperand c.initLevel) ∨ r.initLevel = .missing ∧ c.initLevel = false)
      ∧ (r.seed = .ints (c.seed.map fun x => (x.toNat : Int))
        ∨ r.seed = .missing ∧ c.seed = List.replicate c.channels.length 0)
      ∧ (r.v = .ints (seqOperand c.v) ∨ r.v = .missing ∧ c.v = List.replicate c.channels.length false)
      ∧ (r.u = .ints (seqOperand c.u) ∨ r.u = .missing ∧ c.u = List.replicate c.channels.length false)
      ∧ ((∃ q, r.cs = .one q ∧ c.cs = .one q) ∨ ∃ l, r.cs = .each l ∧ c.cs = .each l) := by
  have hbits : ∀ (f : FieldVal) (s : BitSeq),
      (f.orDefault (.ints (List.replicate c.channels.length 0))).toInts?.bind bitSeqOf = some s
        ↔ f = .ints (seqOperand s) ∨ f = .missing ∧ s = List.replicate c.channels.length false :=
    fun _ _ => orDefault_toInts?_bind_eq_some bitOf_reads rfl
  rw [configOf_eq_some_iff_fields, toInt?_bind_eq_some natOf_reads,
    orDefault_toInt?_bind_eq_some natOf_reads (k := 0) (z := 0) rfl,
    orDefault_toInt?_bind_eq_some bitOf_reads (k := 0) (z := false) rfl,
    orDefault_toInts?_bind_eq_some (wordOf_reads 24) (z := 0) rfl, hbits, hbits, csArgOf_eq_some]

/-- The shape of R202, field by field. -/
theorem EncConfig.wf_iff_lengths {c : EncConfig} :
    c.wf = true ↔ c.channels ≠ [] ∧ c.seed.length = c.channels.length ∧ c.v.length = c.channels.length
      ∧ c.u.length = c.channels.length ∧ ∀ l, c.cs = .each l → l.length = c.channels.length := by
  unfold EncConfig.wf EncConfig.nch
  cases c.cs <;> simp [CsArg.fits, List.length_pos_iff, and_assoc]

theorem decode_encConfigure_eq_ok {n : Nat} {r : RawConfig} {c : EncConfig} :
    decode (.op 0b0001#4 n [.encRecord r]) = .ok (.encConfigure c) ↔ configOf r = some c ∧ c.wf = true := by
  rw [decode_encConfigure, decodeConfigure_eq_ok]
  constructor
  · rintro ⟨_, hread, hw, ⟨⟩⟩
    exact ⟨hread, hw⟩
  · rintro ⟨hread, hw⟩
    exact ⟨c, hread, hw, rfl⟩

/-- A record that is not taken is refused for its shape. -/
theorem decode_encConfigure_eq_badShape {n : Nat} {r : RawConfig}
    (h : ∀ c : EncConfig, decode (.op 0b0001#4 n [.encRecord r]) ≠ .ok (.encConfigure c)) :
    decode (.op 0b0001#4 n [.encRecord r]) = .error .badShape := by
  rw [decode_encConfigure, decodeConfigure]
  cases hread : configOf r with
  | none => rfl
  | some c => exact if_neg fun hw => h c (decode_encConfigure_eq_ok.2 ⟨hread, hw⟩)

/-- A list at its default has the right length, so the length is asked of a list that is given only. -/
theorem given_or_default_iff {given dflt len : Prop} (h : dflt → len) :
    (given ∨ dflt) ∧ len ↔ given ∧ len ∨ dflt := by tauto

/-- Which records are taken, and as what configuration (R202, R333). -/
theorem decode_encConfigure_iff (n : Nat) (r : RawConfig) (c : EncConfig) :
    decode (.op 0b0001#4 n [.encRecord r]) = .ok (.encConfigure c) ↔
      r.channels = some c.channels ∧ c.channels ≠ [] ∧ r.nblocks = .int c.nblocks
      ∧ (r.qs = .int c.qs ∨ r.qs = .missing ∧ c.qs = 0)
      ∧ (r.initLevel = .int (if c.initLevel then 1 else 0) ∨ r.initLevel = .missing ∧ c.initLevel = false)
      ∧ (r.seed = .ints (c.seed.map fun x => (x.toNat : Int)) ∧ c.seed.length = c.channels.length
        ∨ r.seed = .missing ∧ c.seed = List.replicate c.channels.length 0)
      ∧ (r.v = .ints (c.v.map fun b => if b then 1 else 0) ∧ c.v.length = c.channels.length
        ∨ r.v = .missing ∧ c.v = List.replicate c.channels.length false)
      ∧ (r.u = .ints (c.u.map fun b => if b then 1 else 0) ∧ c.u.length = c.channels.length
        ∨ r.u = .missing ∧ c.u = List.replicate c.channels.length false)
      ∧ ((∃ q, r.cs = .one q ∧ c.cs = .one q)
        ∨ ∃ l, r.cs = .each l ∧ c.cs = .each l ∧ l.length = c.channels.length) := by
  have hlen : ∀ {β : Type} {f : FieldVal} {ys : List β} {z : β},
      f = .missing ∧ ys = List.replicate c.channels.length z → ys.length = c.channels.length := by
    rintro β f ys z ⟨-, rfl⟩
    exact List.length_replicate
  rw [decode_encConfigure_eq_ok, configOf_eq_some, EncConfig.wf_iff_lengths, ← given_or_default_iff hlen,
    ← given_or_default_iff hlen, ← given_or_default_iff hlen]
  constructor
  · rintro ⟨⟨hch, hnb, hqs, hil, hseed, hv, hu, hcs⟩, hne, hls, hlv, hlu, hlcs⟩
    refine ⟨hch, hne, hnb, hqs, hil, ⟨hseed, hls⟩, ⟨hv, hlv⟩, ⟨hu, hlu⟩, hcs.imp_right ?_⟩
    rintro ⟨l, hr, hc⟩
    exact ⟨l, hr, hc, hlcs l hc⟩
  · rintro ⟨hch, hne, hnb, hqs, hil, ⟨hseed, hls⟩, ⟨hv, hlv⟩, ⟨hu, hlu⟩, hcs⟩
    refine ⟨⟨hch, hnb, hqs, hil, hseed, hv, hu, hcs.imp_right ?_⟩, hne, hls, hlv, hlu, fun l hl => ?_⟩
    · rintro ⟨l, hr, hc, -⟩
      exact ⟨l, hr, hc⟩
    · obtain ⟨q, -, hq⟩ | ⟨l', -, hl', hlen'⟩ := hcs
      · cases hq.symm.trans hl
      · cases hl'.symm.trans hl
        exact hlen'

/-- `BMC_ENCODE` with one operand outside its type is refused, whatever the other two. -/
theorem decode_bmcEncode_eq_badOperands (n : Nat) {s : String} {d : List Int} {l : Int}
    (h : symOf s = none ∨ bitsWordOf 28 d = none ∨ bitOf l = none) :
    decode (.op 9#4 n [.name s, .seq d, .int l]) = .error .badOperands := by
  rw [decode_bmcEncode]
  obtain hs | hd | hl := h
  · rw [hs]
    rfl
  · rw [hd]
    cases symOf s <;> rfl
  · rw [hl]
    cases symOf s <;> cases bitsWordOf 28 d <;> rfl

/-- Settles O5: the kinds are those of the rows (`Spells`); each value is what its check reads, and the record what
`configOf_eq_some` says. -/
theorem operandsTakenAsGivenOrRefused : Obligations.OperandsTakenAsGivenOrRefused := by
  intro n
  refine ⟨fun code args h0 h => decode_op_eq_error fun i hs => h ?kinds, fun args => ⟨?encRun, ?decFeed, ?bytes⟩,
    ⟨rfl, rfl, rfl, rfl, fun _ => rfl, fun _ => rfl, fun j i => ?naturals, fun h => ?bits⟩, fun h h0 h1 => ?badBit,
    fun b hb => ⟨?badByte, fun bs hbs => ?badBytes⟩, fun b hb => ?byte, fun x p hx => ?badPrev, fun x p hx => ?prev,
    fun j i hneg => ?negative, fun d hd => ?shortParity, fun h hh => ?shortPack, fun s d l hbad' => ?badBmc,
    fun d x hx h0 h1 => ?badElement, fun d b hl hd => ?parity, fun d b hl hd => ?pack,
    fun d b l s sym hl hd hs => ?bmc, fun r => ⟨decode_encConfigure_iff n r, decode_encConfigure_eq_badShape⟩⟩
  case kinds =>
    cases hs with
    | reserved => exact absurd rfl h0
    | genNext hprev => obtain rfl | ⟨k, rfl⟩ := prevOf_kind hprev <;> simp
    | _ => simp
  case encRun =>
    intro hne
    cases args with
    | nil => exact absurd rfl hne
    | cons x xs => rfl
  case decFeed =>
    intro hne
    simp only [decode, decodePseudo]
  case bytes =>
    intro x hx hne
    rw [decode_decFeedBytes, mapM_eq_none hx (byteOfOperand_eq_none hne)]
    rfl
  case naturals =>
    rw [decode_preSelect, decode_sfAssemble, natOf_natCast, natOf_natCast]
    exact ⟨rfl, rfl⟩
  case bits =>
    rw [decode_decAdvance, decode_decConfigure]
    exact ⟨congrArg _ (congrArg _ (bitOf_bitOperand h)), congrArg _ (congrArg _ (bitOf_bitOperand h))⟩
  case badBit =>
    rw [decode_decAdvance, decode_decConfigure, bitOf_eq_none h0 h1]
    exact ⟨rfl, rfl⟩
  case badByte =>
    rw [decode_decFeedByte, wordOf_eq_none (by omega)]
    rfl
  case badBytes =>
    rw [decode_decFeedBytes, mapM_eq_none hbs (wordOf_eq_none (by omega))]
    rfl
  case byte =>
    rw [decode_decFeedByte, wordOf_natCast (by omega)]
    rfl
  case badPrev =>
    rw [decode_genNext, prevOf, wordOf_eq_none (by omega)]
    rfl
  case prev =>
    rw [decode_genNext, prevOf, wordOf_natCast (by omega)]
    rfl
  case negative =>
    rw [decode_preSelect, decode_sfAssemble]
    obtain hj | hi := hneg
    · rw [natOf_eq_none hj]
      exact ⟨rfl, rfl⟩
    · rw [natOf_eq_none hi]
      cases natOf j <;> exact ⟨rfl, rfl⟩
  case shortParity =>
    rw [decode_parity, bitsWordOf_eq_none hd]
    rfl
  case shortPack =>
    rw [decode_pack, bitsWordOf_eq_none hh]
    rfl
  case badBmc =>
    exact decode_bmcEncode_eq_badOperands n
      (hbad'.imp (fun ⟨hz, hx, hy⟩ => symOf_eq_none hz hx hy)
        (Or.imp bitsWordOf_eq_none fun ⟨h0, h1⟩ => bitOf_eq_none h0 h1))
  case badElement =>
    rw [decode_parity, decode_pack, decode_decFeed, bitsWordOf_eq_none_of_mem hx h0 h1,
      bitsWordOf_eq_none_of_mem hx h0 h1, bitSeqOf_eq_none hx h0 h1]
    exact ⟨rfl, rfl, fun s l => decode_bmcEncode_eq_badOperands n (.inr (.inl (bitsWordOf_eq_none_of_mem hx h0 h1))),
      rfl⟩
  case parity =>
    rw [decode_parity, bitsWordOf_of_bits hl hd]
    rfl
  case pack =>
    rw [decode_pack, bitsWordOf_of_bits hl hd]
    rfl
  case bmc =>
    have hsym : s = sym.letter := by
      simp only [List.mem_cons, Prod.mk.injEq, List.not_mem_nil, or_false] at hs
      obtain ⟨rfl, rfl⟩ | ⟨rfl, rfl⟩ | ⟨rfl, rfl⟩ := hs <;> rfl
    rw [decode_bmcEncode, hsym, symOf_letter, bitsWordOf_of_bits hl hd, ← bitOperand, bitOf_bitOperand]
    rfl

end Sys2Proof

namespace Sys2Proof.Machine

/-! ## Op 0000 -/

/-- Settles O9: the refusal is `State.refuse`. -/
theorem reservedOpIsAlwaysRefused : Obligations.ReservedOpIsAlwaysRefused :=
  fun s => ⟨_, rfl, s.refuse_isRefusal _⟩

/-! ## ENC_RUN -/

theorem exec_encRun (s : State) :
    exec .encRun s = .next ({ s with enc := (s.enc.run s.params (s.enc.total - s.enc.p)).1 }.respond .enc .nothing
      (s.enc.run s.params (s.enc.total - s.enc.p)).2) := rfl

/-- `ENC_RUN` repeats nothing unless `READY` (R205, log 7). -/
theorem EncState.run_of_ne_ready {P : Params} {e : EncState} (fuel : Nat) (h : e.status ≠ .ready) :
    e.run P fuel = (e, []) := by
  cases fuel with
  | zero => rfl
  | succ fuel => rw [EncState.run, if_neg h]

/-- `ENC_RUN` in `READY` begins with one `ENC_STEP` (R107). -/
theorem EncState.run_succ {P : Params} {e e' : EncState} {es : List Event} (fuel : Nat) (hr : e.status = .ready)
    (h : e.advance P = some (e', es)) : e.run P (fuel + 1) = ((e'.run P fuel).1, es ++ (e'.run P fuel).2) := by
  rw [EncState.run, if_pos hr, h]

/-- While `READY`, one `ENC_STEP` emits and leaves one step fewer to `FINISHED` (R203, R205). -/
theorem EncState.advance_remaining {P : Params} {e : EncState} (hi : e.statusFits) (hr : e.status = .ready) :
    ∃ e' es, e.advance P = some (e', es) ∧ e.total - e.p = (e'.total - e'.p) + 1 := by
  rw [EncState.statusFits, hr] at hi
  obtain ⟨c, hc, -, hp⟩ := hi
  obtain ⟨ch, -, hsf⟩ := EncCfg.subframeAt_spec e.p (Nat.zero_lt_of_lt hp)
  refine ⟨_, _, EncState.advance_emits hr hc (Nat.zero_lt_of_lt hp) hsf, ?_⟩
  simp only [EncState.total, hc]
  omega

/-- Settles O38: the fuel of `ENC_RUN` is the steps that remain, and `READY` takes the first of them. -/
theorem encRunRepeatsEncStep : Obligations.EncRunRepeatsEncStep := by
  refine ⟨fun s t u v hi hr hu hv ht => ?ready, fun s h => ?other⟩
  case ready =>
    obtain ⟨hstatus, -⟩ := hi.enc
    obtain ⟨e', es, hadv, hremaining⟩ := EncState.advance_remaining (P := s.params) hstatus hr
    have hrun := EncState.run_succ (e'.total - e'.p) hr hadv
    rw [← hremaining] at hrun
    cases (exec_encStep_some hadv).symm.trans hu
    cases (exec_encRun _).symm.trans hv
    cases (exec_encRun _).symm.trans ht
    simp only [hrun, State.respond_enc, State.respond_params, State.respond_evt, List.map_append, List.append_assoc,
      and_self]
  case other =>
    refine ⟨_, exec_encRun s, ?_⟩
    rw [EncState.run_of_ne_ready _ h]
    exact ⟨⟨rfl, rfl⟩, rfl, rfl, rfl, rfl, rfl⟩

/-! ## `DONE` and `FATAL` -/

/-- Settles O46: what is put on the line is absorbed (`DecState.feed_terminal`); `DEC_STATUS` and `DEC_CONFIGURE` write
neither register, and a command of another agent writes none of this decoder. -/
theorem terminalModesAbsorb : Obligations.TerminalModesAbsorb := by
  refine ⟨fun s n i hm ha hreset hconf hstatus => ?absorb, fun s t n i hm hreset h => ?kept⟩
  case absorb =>
    obtain ⟨hdec, hanswers, hframe⟩ := s.feedDec_spec n (lineInput s.params.packOrder n i)
    rw [DecState.feed_terminal _ hm] at hdec hanswers
    exact ⟨_, exec_eq_feedDec s ha hreset hconf hstatus, hanswers, hdec, hframe⟩
  case kept =>
    by_cases ha : agentOf i = .dec n
    · by_cases hstatus : i = .decStatus n
      · subst hstatus
        cases h
        exact ⟨rfl, rfl⟩
      · by_cases hconf : ∃ halt, i = .decConfigure n halt
        · obtain ⟨halt, rfl⟩ := hconf
          cases h
          obtain ⟨hdec, -⟩ := s.setDec_respond_spec n { s.dec n with haltOnMismatch := halt } []
          rw [hdec]
          exact ⟨rfl, rfl⟩
        · cases (exec_eq_feedDec s ha hreset (fun halt hi => hconf ⟨halt, hi⟩) hstatus).symm.trans h
          obtain ⟨hdec, -⟩ := s.feedDec_spec n (lineInput s.params.packOrder n i)
          rw [hdec, DecState.feed_terminal _ hm]
          exact ⟨rfl, rfl⟩
    · have hsame : t.dec n = s.dec n := Sum.inr.inj (exec_registersOf_other h (Ne.symm ha))
      rw [hsame]
      exact ⟨rfl, rfl⟩

/-! ## Feeding -/

/-- Two states differ in the response at most: `DEC_ADVANCE` on each of several half-cells leaves the
response of the last, one command that feeds them all its own. That `params` and `cmds` are kept is `sameButDec`. -/
def SameButResponse (t u : State) : Prop :=
  (∀ m, t.dec m = u.dec m) ∧ t.enc = u.enc ∧ t.evt = u.evt ∧ t.refused = u.refused

/-- No half-cell on a decoder's line changes nothing but the response. -/
theorem State.feedDec_nil (s : State) (n : Nat) : SameButResponse (s.feedDec n []) s := by
  obtain ⟨hdec, ⟨-, hevt⟩, -, henc, hothers, hrefused, -⟩ := s.feedDec_spec n []
  refine ⟨fun m => ?_, henc, by simpa using hevt, hrefused⟩
  by_cases hm : m = n
  · rw [hm, hdec, DecState.feed_nil]
  · exact hothers m hm

/-- Two sequences put on the line at once, or one after the other. -/
theorem State.feedDec_append (s : State) (n : Nat) (hs ks : BitSeq) :
    SameButResponse (s.feedDec n (hs ++ ks)) ((s.feedDec n hs).feedDec n ks) := by
  obtain ⟨hdec, ⟨-, hevt⟩, -, henc, hothers, hrefused, -⟩ := s.feedDec_spec n (hs ++ ks)
  obtain ⟨hdec1, ⟨-, hevt1⟩, -, henc1, hothers1, hrefused1, -⟩ := s.feedDec_spec n hs
  obtain ⟨hdec2, ⟨-, hevt2⟩, -, henc2, hothers2, hrefused2, -⟩ := (s.feedDec n hs).feedDec_spec n ks
  refine ⟨fun m => ?_, henc.trans (henc2.trans henc1).symm, ?_, hrefused.trans (hrefused2.trans hrefused1).symm⟩
  · by_cases hm : m = n
    · rw [hm, hdec, hdec2, hdec1, DecState.feed_append]
    · rw [hothers m hm, hothers2 m hm, hothers1 m hm]
  · rw [hevt, hevt2, hevt1, hdec1, DecState.feed_append, List.map_append, List.append_assoc]

/-- `DEC_ADVANCE` on each half-cell in order does what putting them on the line at once does (R107, R264). -/
theorem performAll_decAdvance (s : State) (n : Nat) (hs : BitSeq) :
    ∃ u, performAll (hs.map (.decAdvance n)) s = .next u ∧ SameButResponse (s.feedDec n hs) u := by
  induction hs generalizing s with
  | nil => exact ⟨s, rfl, s.feedDec_nil n⟩
  | cons h hs ih =>
    obtain ⟨u, hu, hdecs, henc, hevt, hrefused⟩ := ih (s.feedDec n [h])
    obtain ⟨hdecs', henc', hevt', hrefused'⟩ := s.feedDec_append n [h] hs
    refine ⟨u, ?_, fun m => (hdecs' m).trans (hdecs m), henc'.trans henc, hevt'.trans hevt, hrefused'.trans hrefused⟩
    rw [List.map_cons, performAll, exec_decAdvance]
    exact hu

/-- Settles O50: each command puts its half-cells on the line, and `performAll_decAdvance` takes them one by one. -/
theorem feedingIsRepeatedAdvance : Obligations.FeedingIsRepeatedAdvance := by
  intro s n i hs h
  have hexec : exec i s = .next (s.feedDec n hs) := by
    obtain rfl | ⟨b, rfl, rfl⟩ | ⟨bs, rfl, rfl⟩ | hrow | ⟨x, hrow⟩ := h
    · rfl
    · rfl
    · rfl
    · simp only [List.mem_cons, Prod.mk.injEq, List.not_mem_nil, or_false] at hrow
      rcases hrow with ⟨rfl, rfl⟩ | ⟨rfl, rfl⟩ | ⟨rfl, rfl⟩ | ⟨rfl, rfl⟩ | ⟨rfl, rfl⟩ | ⟨rfl, rfl⟩ | ⟨rfl, rfl⟩ |
        ⟨rfl, rfl⟩ | ⟨rfl, rfl⟩ | ⟨rfl, rfl⟩ <;> rfl
    · simp only [List.mem_cons, Prod.mk.injEq, List.not_mem_nil, or_false] at hrow
      obtain ⟨rfl, rfl⟩ | ⟨rfl, rfl⟩ := hrow <;> rfl
  obtain ⟨-, ⟨hresp, hevents⟩, hframe⟩ := s.feedDec_spec n hs
  obtain ⟨u, hu, hdecs, henc, hevt, hrefused⟩ := performAll_decAdvance s n hs
  exact ⟨_, u, hexec, hu, hdecs, henc, hevt, hrefused, hframe, by rw [hevents, hresp]⟩

/-! ## The end of a subframe -/

theorem fieldsOf_eq (data : DataBits) :
    fieldsOf data = { sample := data.setWidth 24, v := data.getLsbD 24, u := data.getLsbD 25, c := data.getLsbD 26,
                      p := data.getLsbD 27 } := by
  rw [fieldsOf, BitVec.setWidth_eq_extractLsb' (by decide)]

/-- `DEC_ADVANCE`, in terms of what the decoder does with the half-cell. -/
theorem exec_decAdvance_spec (s : State) (n : Nat) (h : Bool) :
    ∃ t, exec (.decAdvance n h) s = .next t ∧ t.dec n = ((s.dec n).advance h).1
      ∧ answers s t (.dec n) .nothing ((s.dec n).advance h).2 ∧ sameButDec n s t :=
  ⟨_, rfl, s.setDec_respond_spec n _ _⟩

/-- The last half-cell of a subframe's data part. -/
theorem DecState.advance_last {d : DecState} (h : Bool) (hm : d.mode = .lockedData) (hh : d.half = true)
    (hc : d.cell = 27) :
    d.advance h = endSubframe { d with data := setBit d.data 27 (h != d.a), prev := h, half := false, cell := 28 } := by
  rw [DecState.advance_second h hm hh, secondHalf_last h hc, hc]

/-- A subframe of even parity ends (R256, R258): it is reported, or discarded before the first Z. -/
theorem endSubframe_of_even {d : DecState} (hx : xorAll (toSeq d.data) = false) :
    endSubframe d =
      let f := fieldsOf d.data
      let zero0 := zeroRun d.zero0 d.ch f.c
      let report := if d.started then .subframe (descriptor d.frame d.sym d.data d.chk) f else .discard f
      ({ d with
        csRx := if d.started then csRxWrite d.csRx d.ch (d.frame % 192) f.c else d.csRx
        nDiscard := if d.started then d.nDiscard else d.nDiscard + 1
        zero0 := zero0, cont := true
        mode := if 192 ≤ zero0 then .done else .lockedPreamble
        pbuf := if 192 ≤ zero0 then d.pbuf else []
        pl := if 192 ≤ zero0 then d.pl else d.prev },
       if 192 ≤ zero0 then [report, .done] else [report]) := by
  rw [endSubframe_eq]
  cases d.started <;> simp [hx]

/-- A subframe of odd parity halts the decoder when `halt_on_mismatch` is set (R257, R304). -/
theorem endSubframe_of_odd_halt {d : DecState} (hx : xorAll (toSeq d.data) = true) (hh : d.haltOnMismatch = true) :
    endSubframe d =
      let f := fieldsOf d.data
      ({ d with
        csRx := if d.started then csRxWrite d.csRx d.ch (d.frame % 192) f.c else d.csRx
        nMismatch := d.nMismatch + 1
        mode := .fatal
        fatalReason := some .decodeMismatch },
       [.decodeMismatch (if d.started then some (descriptor d.frame d.sym d.data d.chk) else none) f]) := by
  rw [endSubframe_eq]
  simp [hx, hh]

/-- Otherwise it is reported as a mismatch only, and decoding goes on (R257, R258). -/
theorem endSubframe_of_odd {d : DecState} (hx : xorAll (toSeq d.data) = true) (hh : d.haltOnMismatch = false) :
    endSubframe d =
      let f := fieldsOf d.data
      let zero0 := zeroRun d.zero0 d.ch f.c
      let report := Event.decodeMismatch (if d.started then some (descriptor d.frame d.sym d.data d.chk) else none) f
      ({ d with
        csRx := if d.started then csRxWrite d.csRx d.ch (d.frame % 192) f.c else d.csRx
        nMismatch := d.nMismatch + 1
        zero0 := zero0, cont := true
        mode := if 192 ≤ zero0 then .done else .lockedPreamble
        pbuf := if 192 ≤ zero0 then d.pbuf else []
        pl := if 192 ≤ zero0 then d.pl else d.prev },
       if 192 ≤ zero0 then [report, .done] else [report]) := by
  rw [endSubframe_eq]
  simp [hx, hh]

/-- Settles O43: the last half-cell ends the subframe, `endSubframe_of_even`. -/
theorem endOfGoodSubframe : Obligations.EndOfGoodSubframe := by
  intro s n h hm hh hc d data f zero0 report hpar
  obtain ⟨t, ht, hdec, hanswers, hframe⟩ := exec_decAdvance_spec s n h
  have heven : xorAll (toSeq data) = false := (xorAll_eq_false_iff _).2 hpar
  have hend := (DecState.advance_last h hm hh hc).trans (endSubframe_of_even heven)
  rw [hend, fieldsOf_eq] at hdec hanswers
  exact ⟨t, ht, hframe, hanswers, hdec⟩

/-- Settles O44: the last half-cell ends the subframe, `endSubframe_of_odd_halt` or `endSubframe_of_odd`. -/
theorem endOfMismatchedSubframe : Obligations.EndOfMismatchedSubframe := by
  intro s n h hm hh hc d data f zero0 report d' hpar
  obtain ⟨t, ht, hdec, hanswers, hframe⟩ := exec_decAdvance_spec s n h
  have hodd : xorAll (toSeq data) = true := by
    rw [← Bool.not_eq_false, xorAll_eq_false_iff, hpar]
    nofun
  have hlast := DecState.advance_last h hm hh hc
  refine ⟨t, ht, hframe, fun hhalt => ?_, fun hhalt => ?_⟩
  · rw [hlast.trans (endSubframe_of_odd_halt hodd hhalt), fieldsOf_eq] at hdec hanswers
    exact ⟨hanswers, hdec⟩
  · rw [hlast.trans (endSubframe_of_odd hodd hhalt), fieldsOf_eq] at hdec hanswers
    exact ⟨hanswers, hdec⟩

/-! ## A preamble on the line -/

/-- An empty window that is given a pattern acquires at its last half-cell (R244, R246). -/
theorem DecState.feed_pat_of_empty_window {d : DecState} (s : Sym) (L : Bool) (hm : d.mode = .searching)
    (hw : d.win = []) : d.feed (pat s L) = acquire s L { d with win := pat s L } := by
  obtain ⟨init, hinit⟩ := List.getLast?_eq_some_iff.1 (pat_ends s L).2
  have hlen : init.length = 7 := by simpa [pat_length] using (congrArg List.length hinit).symm
  have hfeed : d.feed init = ({ d with win := init }, []) := by
    obtain ⟨k, hk, s', L', hpat, -⟩ | ⟨hfeed, -⟩ := DecState.feed_searching init hm (by simp [hw])
    · have hshort := congrArg List.length hpat
      rw [lastEight_of_short (by simp [hw]; omega), pat_length] at hshort
      simp [hw] at hshort
      omega
    · rwa [hw, List.nil_append, lastEight_of_short (by omega)] at hfeed
  have hadvance : ({ d with win := init } : DecState).advance L = acquire s L { d with win := pat s L } := by
    rw [DecState.advance_searching (d := { d with win := init }) L hm, search, ← hinit, lastEight_of_short (by simp),
      symOfWindow_eq_some.2 ⟨L, rfl⟩]
  rw [hinit, DecState.feed_append, hfeed, DecState.feed_cons, hadvance, DecState.feed_nil, hinit, List.nil_append,
    List.append_nil]

/-- A pattern at preamble position, after the level it belongs to (R260). -/
theorem DecState.feed_pat_of_level {d : DecState} (s : Sym) (hm : d.mode = .lockedPreamble) (hp : d.pbuf = []) :
    d.feed (pat s d.pl) = ({ enterData s { d with pbuf := pat s d.pl } with prev := d.pl }, []) := by
  rw [DecState.feed_preamble hm hp (pat_length _ _), symAfter_eq_some.2 rfl, pat_getLastD]

/-- A pattern at preamble position, after the other level (R260, R305). -/
theorem DecState.feed_pat_of_other_level {d : DecState} (s : Sym) {L : Bool} (hm : d.mode = .lockedPreamble)
    (hp : d.pbuf = []) (hl : d.pl = !L) :
    d.feed (pat s L) = ({ d with pbuf := pat s L, mode := .fatal, fatalReason := some .unrecognizedPreamble },
      [.unrecognizedPreamble (pat s L)]) := by
  have hnone : symAfter d.pl (pat s L) = none := symAfter_eq_none.2 fun s' h => by
    have hL : L = !L := (pat_injective h).2.trans hl
    cases L <;> cases hL
  rw [DecState.feed_preamble hm hp (pat_length _ _), hnone]

/-- Settles O51: each row puts its pattern on the line; its cases are the three `DecState.feed_pat_of_…` lemmas. -/
theorem preambleRowsOnTheLine : Obligations.PreambleRowsOnTheLine := by
  intro s n row sym L hrow
  have hexec : exec (row n) s = .next (s.feedDec n (pat sym L)) := by
    simp only [List.mem_cons, Prod.mk.injEq, List.not_mem_nil, or_false] at hrow
    obtain ⟨rfl, rfl, rfl⟩ | ⟨rfl, rfl, rfl⟩ | ⟨rfl, rfl, rfl⟩ | ⟨rfl, rfl, rfl⟩ | ⟨rfl, rfl, rfl⟩ | ⟨rfl, rfl, rfl⟩ :=
      hrow <;> rfl
  obtain ⟨hdec, hanswers, hframe⟩ := s.feedDec_spec n (pat sym L)
  refine ⟨_, hexec, hframe, fun hm hw => ?locks, fun hm hp hl => ?enters, fun hm hp hl => ?fatal⟩
  case locks =>
    rw [DecState.feed_pat_of_empty_window sym L hm hw, acquire_eq] at hdec hanswers
    rw [hdec]
    exact ⟨hanswers, rfl, rfl, rfl, rfl, rfl⟩
  case enters =>
    subst hl
    rw [DecState.feed_pat_of_level sym hm hp, enterData_eq] at hdec hanswers
    rw [hdec]
    exact ⟨hanswers, rfl, rfl, rfl, rfl, rfl⟩
  case fatal =>
    rw [DecState.feed_pat_of_other_level sym hm hp hl] at hdec hanswers
    rw [hdec]
    exact ⟨hanswers, rfl, rfl⟩

/-! ## A data cell on the line -/

/-- Settles O52: each row puts on the line the cell of its bit after its level, which `DecState.feed_cell` decodes. -/
theorem dataCellRowsOnTheLine : Obligations.DataCellRowsOnTheLine := by
  intro s n row L bit after hrow hm hh hc hp
  have hcell : exec (row n) s = .next (s.feedDec n [(cellOf L bit).1, (cellOf L bit).2]) ∧ after = (cellOf L bit).2 := by
    simp only [List.mem_cons, Prod.mk.injEq, List.not_mem_nil, or_false] at hrow
    obtain ⟨rfl, rfl, rfl, rfl⟩ | ⟨rfl, rfl, rfl, rfl⟩ | ⟨rfl, rfl, rfl, rfl⟩ | ⟨rfl, rfl, rfl, rfl⟩ := hrow <;>
      exact ⟨rfl, rfl⟩
  obtain ⟨hexec, rfl⟩ := hcell
  subst hp
  obtain ⟨hdec, hanswers, hframe⟩ := s.feedDec_spec n [(cellOf (s.dec n).prev bit).1, (cellOf (s.dec n).prev bit).2]
  rw [DecState.feed_cell bit hm hh hc] at hdec hanswers
  refine ⟨_, hexec, hanswers, hframe, ?_, fun k hk => ?_, fun k hk => ?_⟩
  · rw [hdec]
  · rw [hdec]
    exact getLsbD_setBit _ _ _ _ hk
  · rw [hdec]
    exact getLsbD_setBit _ _ _ _ hk

/-- A window of fewer than 8 half-cells is no pattern. -/
theorem symOfWindow_of_short {w : BitSeq} (h : w.length < 8) : symOfWindow w = none :=
  symOfWindow_eq_none.2 fun s L hw => by rw [hw, pat_length] at h; omega

/-- A window that is no pattern only moves (R244). -/
theorem search_of_no_pattern {d : DecState} {h : Bool} (hn : symOfWindow (lastEight (d.win ++ [h])) = none) :
    search d h = ({ d with win := lastEight (d.win ++ [h]) }, []) := by
  simp only [search, hn]

/-- Two half-cells in the data part with no boundary transition: a missing transition at the first, and both are the
new window (R252, R303). -/
theorem DecState.feed_illegalCell {d : DecState} (x : Bool) (hm : d.mode = .lockedData) (hh : d.half = false) :
    d.feed [d.prev, x] =
      ({ d with
        nMissing := d.nMissing + 1, mode := .searching, win := [d.prev, x], cont := false, started := false
        zero0 := 0 }, [.missingTransition d.cell]) := by
  have hfirst : d.advance d.prev = d.takeMissingTransition d.prev := by
    rw [DecState.advance_first _ hm hh, firstHalf, if_pos rfl]
  have hsecond : (d.takeMissingTransition d.prev).1.advance x
      = ({ (d.takeMissingTransition d.prev).1 with win := [d.prev, x] }, []) := by
    rw [DecState.advance_searching x rfl]
    exact search_of_no_pattern (symOfWindow_of_short (Nat.lt_of_sub_eq_succ rfl))
  rw [DecState.feed_cons, hfirst, DecState.feed_cons, hsecond, DecState.feed_nil]
  rfl

/-- Settles O53: each row repeats its level, `DecState.feed_illegalCell`. -/
theorem illegalCellRowsOnTheLine : Obligations.IllegalCellRowsOnTheLine := by
  intro s n row L x hrow hm hh hp
  have hexec : exec (row n x) s = .next (s.feedDec n [L, x]) := by
    simp only [List.mem_cons, Prod.mk.injEq, List.not_mem_nil, or_false] at hrow
    obtain ⟨rfl, rfl⟩ | ⟨rfl, rfl⟩ := hrow <;> rfl
  subst hp
  obtain ⟨hdec, hanswers, hframe⟩ := s.feedDec_spec n [(s.dec n).prev, x]
  rw [DecState.feed_illegalCell x hm hh] at hdec hanswers
  exact ⟨_, hexec, hanswers, hframe, hdec⟩

/-! ## Descriptors -/

/-- Sample bits as characters, first-transmitted first (R102, R108). -/
theorem bitChars_sample (data : DataBits) :
    bitChars ((toSeq data).take 24)
      = String.ofList ((List.range 24).map fun k => if (fieldsOf data).sample.getLsbD k then '1' else '0') := by
  have hsample : (toSeq data).take 24 = toSeq (fieldsOf data).sample := by
    apply List.ext_getElem?
    intro k
    rw [List.getElem?_take, toSeq_getElem?, toSeq_getElem?]
    by_cases hk : k < 24
    · have hk28 : k < 28 := by omega
      simp [hk, hk28, fieldsOf]
    · simp [hk]
  rw [hsample, bitChars, toSeq, List.map_map]
  rfl

/-- All 28 transitions found, as characters (R108). -/
theorem bitChars_firstOnes : " " ++ bitChars (toSeq (firstOnes 28)) = " 1111111111111111111111111111" := by
  decide

/-- The literal form of a descriptor whose 28 boundary transitions were all found (R108). -/
theorem descriptor_literal (frame : Nat) (sym : Sym) (data : DataBits) :
    descriptor frame sym data (firstOnes 28) =
      toString frame ++ " [" ++ sym.letter ++ "] - "
        ++ String.ofList ((List.range 24).map fun k => if (fieldsOf data).sample.getLsbD k then '1' else '0')
        ++ " 1111111111111111111111111111" := by
  rw [descriptor, String.append_assoc, bitChars_firstOnes, bitChars_sample]

/-- The event reports a subframe with a descriptor and fields, as `SUBFRAME` or as `DECODE_MISMATCH` (R110). -/
def Event.Reports (e : Event) (desc : String) (f : Fields) : Prop :=
  e = .subframe desc f ∨ e = .decodeMismatch (some desc) f

section
variable {desc : String} {f g : Fields}

@[simp] theorem Event.reports_subframe {t : String} : (Event.subframe t g).Reports desc f ↔ t = desc ∧ g = f := by
  simp [Event.Reports]

@[simp] theorem Event.reports_decodeMismatch {o : Option String} :
    (Event.decodeMismatch o g).Reports desc f ↔ o = some desc ∧ g = f := by
  simp [Event.Reports]

@[simp] theorem Event.not_reports_discard : ¬(Event.discard g).Reports desc f := by simp [Event.Reports]

@[simp] theorem Event.not_reports_done : ¬Event.done.Reports desc f := by simp [Event.Reports]

end

/-- The events of a subframe's end are its report and perhaps `DONE` (R258). -/
theorem mem_report_done {c : Prop} [Decidable c] {e r : Event} (h : e ∈ if c then [r, .done] else [r]) :
    e = r ∨ e = .done := by
  split at h
  · simpa using h
  · exact .inl (List.mem_singleton.1 h)

/-- The descriptor a subframe's end reports is of its own registers, the fields of its own data bits. -/
theorem endSubframe_reports {d : DecState} {e : Event} {desc : String} {f : Fields} (he : e ∈ (endSubframe d).2)
    (hr : e.Reports desc f) : desc = descriptor d.frame d.sym d.data d.chk ∧ f = fieldsOf d.data := by
  cases hx : xorAll (toSeq d.data) with
  | false =>
    rw [endSubframe_of_even hx] at he
    obtain rfl | rfl := mem_report_done he
    · cases hs : d.started with
      | false => exact absurd hr (by simp [hs])
      | true => simpa [hs, eq_comm] using hr
    · exact absurd hr Event.not_reports_done
  | true =>
    have he : e = .decodeMismatch (if d.started then some (descriptor d.frame d.sym d.data d.chk) else none)
        (fieldsOf d.data) ∨ e = .done := by
      cases hh : d.haltOnMismatch with
      | false =>
        rw [endSubframe_of_odd hx hh] at he
        exact mem_report_done he
      | true =>
        rw [endSubframe_of_odd_halt hx hh] at he
        exact .inl (List.mem_singleton.1 he)
    obtain rfl | rfl := he
    · cases hs : d.started with
      | false => exact absurd hr (by simp [hs])
      | true => simpa [hs, eq_comm] using hr
    · exact absurd hr Event.not_reports_done

section
variable {d : DecState} {h : Bool} {e : Event} {desc : String} {f : Fields}

theorem search_reports_nothing (he : e ∈ (search d h).2) : ¬e.Reports desc f := by
  unfold search at he
  dsimp only at he
  split at he
  · obtain rfl := List.mem_singleton.1 he
    simp [Event.Reports]
  · cases he

theorem firstHalf_reports_nothing (he : e ∈ (firstHalf d h).2) : ¬e.Reports desc f := by
  unfold firstHalf at he
  split at he
  · obtain rfl := List.mem_singleton.1 he
    simp [Event.Reports]
  · cases he

theorem preambleHalfCell_reports_nothing (he : e ∈ (preambleHalfCell d h).2) : ¬e.Reports desc f := by
  unfold preambleHalfCell at he
  dsimp only at he
  split at he
  · split at he
    · cases he
    · obtain rfl := List.mem_singleton.1 he
      simp [Event.Reports]
  · cases he

/-- A half-cell reports a subframe only as the last of a data part. -/
theorem DecState.lastHalfCell_of_reports (he : e ∈ (d.advance h).2) (hr : e.Reports desc f) :
    d.mode = .lockedData ∧ d.half = true ∧ 27 ≤ d.cell := by
  cases hm : d.mode with
  | done =>
    rw [DecState.advance_terminal h (.inl hm)] at he
    cases he
  | fatal =>
    rw [DecState.advance_terminal h (.inr hm)] at he
    cases he
  | searching =>
    rw [DecState.advance_searching h hm] at he
    exact absurd hr (search_reports_nothing he)
  | lockedPreamble =>
    rw [DecState.advance_preamble h hm] at he
    exact absurd hr (preambleHalfCell_reports_nothing he)
  | lockedData =>
    cases hh : d.half with
    | false =>
      rw [DecState.advance_first h hm hh] at he
      exact absurd hr (firstHalf_reports_nothing he)
    | true =>
      refine ⟨rfl, rfl, Nat.le_of_not_lt fun hc => ?_⟩
      rw [DecState.advance_second h hm hh, secondHalf_of_lt h hc] at he
      cases he

end

/-- Settles O56: only the last half-cell of a data part reports, where the invariant has all 28 transitions found. -/
theorem descriptorsHaveTheLiteralForm : Obligations.DescriptorsHaveTheLiteralForm := by
  intro s t n h desc f hi ht hmem
  obtain ⟨t', ht', -, ⟨hresp, -⟩, -⟩ := exec_decAdvance_spec s n h
  cases ht'.symm.trans ht
  obtain ⟨e, he, hr⟩ : ∃ e ∈ ((s.dec n).advance h).2, e.Reports desc f := by
    rw [hresp] at hmem
    exact hmem.elim (fun hm => ⟨_, hm, .inl rfl⟩) (fun hm => ⟨_, hm, .inr rfl⟩)
  obtain ⟨hm, hh, hc⟩ := DecState.lastHalfCell_of_reports he hr
  obtain ⟨-, -, -, -, hmode⟩ := hi
  simp only [DecState.modeFits, hm, hh, Bool.toNat_true] at hmode
  obtain ⟨hlt, hchk, -⟩ := hmode
  have hc27 : (s.dec n).cell = 27 := by omega
  rw [DecState.advance_last h hm hh hc27] at he
  obtain ⟨rfl, rfl⟩ := endSubframe_reports he hr
  rw [hc27] at hchk
  rw [hchk]
  exact descriptor_literal _ _ _

end Sys2Proof.Machine

/-! # Sample generator (40_sample_generator.md): policies, `GEN_NEXT`, the sample sequence; and the commands that only
read

What each policy name constructs; a sample as an integer mod `2^24` and as a closed form of the frame; which commands
write no register; then the statements of this family. -/

namespace Sys2Proof.Machine

/-! ## Policy construction -/

section
variable (v : FieldVal)

@[simp] theorem constructPolicy_none : constructPolicy ⟨.str "none", v⟩ = some .none := rfl

@[simp] theorem constructPolicy_fixed : constructPolicy ⟨.str "fixed", v⟩ = v.toInt?.map .fixed := rfl

@[simp] theorem constructPolicy_ramp : constructPolicy ⟨.str "ramp", v⟩ = v.toInt?.map .ramp := rfl

/-- Any other name constructs no policy (R120). -/
theorem constructPolicy_other {name : FieldVal} (hn : name ≠ .str "none") (hf : name ≠ .str "fixed")
    (hr : name ≠ .str "ramp") : constructPolicy ⟨name, v⟩ = none := by
  cases name with
  | str s =>
    simp only [ne_eq, FieldVal.str.injEq] at hn hf hr
    simp only [constructPolicy, if_neg hn, if_neg hf, if_neg hr]
  | _ => rfl

variable {v}

theorem toInt?_eq_none (h : ∀ k, v ≠ .int k) : v.toInt? = none :=
  Option.eq_none_iff_forall_ne_some.2 fun k hk => h k (toInt?_eq_some.1 hk)

end

/-- Settles O19: the name selects the policy, and `fixed` and `ramp` read the value as an integer. -/
theorem policyConstruction : Obligations.PolicyConstruction := by
  refine ⟨constructPolicy_none, fun v => ⟨rfl, rfl⟩, fun v hv => ?noInt, fun name v => constructPolicy_other v⟩
  case noInt => simp [toInt?_eq_none hv]

/-! ## Samples mod `2^24` -/

/-- An integer reduced to a sample, read back (R123). -/
theorem sample_ofInt_toNat (k : Int) : ((BitVec.ofInt 24 k : Sample).toNat : Int) = k % 2 ^ 24 := by
  rw [BitVec.toNat_ofInt]
  omega

/-- Reducing before an addition makes no difference. -/
theorem sample_ofInt_add (k m : Int) :
    (BitVec.ofInt 24 ((BitVec.ofInt 24 k : Sample).toNat + m) : Sample) = BitVec.ofInt 24 (k + m) := by
  rw [BitVec.ofInt_add, BitVec.ofInt_natCast, BitVec.ofNat_toNat, BitVec.setWidth_eq, BitVec.ofInt_add]

/-- A ramp's next sample: the last one and the step, reduced (R123). -/
@[simp] theorem nextSample_ramp_some (x : Sample) (step : Int) :
    nextSample (some x) (.ramp step) = some (BitVec.ofInt 24 (x.toNat + step)) := rfl

/-- `GEN_NEXT` answers the policy's next sample and writes no register (R122). -/
theorem exec_genNext_spec (s : State) (prev : Option Sample) (policy : Policy) :
    ∃ t, exec (.genNext prev policy) s = .next t ∧ answers s t .enc (.sample (nextSample prev policy)) []
      ∧ sameRegisters s t :=
  ⟨_, rfl, s.respond_answers _ _ _, s.respond_frame _ _ _⟩

/-- `GEN_NEXT` answering a sample, as an integer (R123). -/
theorem exec_genNext_some (s : State) {prev : Option Sample} {policy : Policy} {k : Int}
    (h : nextSample prev policy = some (BitVec.ofInt 24 k)) :
    ∃ t y, exec (.genNext prev policy) s = .next t ∧ answers s t .enc (.sample (some y)) []
      ∧ (y.toNat : Int) = k % 2 ^ 24 ∧ sameRegisters s t := by
  obtain ⟨t, ht, hanswers, hframe⟩ := exec_genNext_spec s prev policy
  exact ⟨t, _, ht, h ▸ hanswers, sample_ofInt_toNat k, hframe⟩

/-- Settles O20: `GEN_NEXT` answers `nextSample`, whose value each policy gives. -/
theorem genNextResult : Obligations.GenNextResult := by
  refine fun s prev => ⟨exec_genNext_spec s prev .none, fun v => exec_genNext_some s rfl, fun step => ⟨?some, ?none⟩⟩
  case some =>
    rintro x rfl
    exact exec_genNext_some s (nextSample_ramp_some x step)
  case none =>
    rintro rfl
    exact exec_genNext_spec s none (.ramp step)

/-! ## The sample sequence of a channel -/

theorem sampleAt_none (seed : Sample) (j : Nat) : sampleAt .none seed j = none := by cases j <;> rfl

theorem sampleAt_fixed (v : Int) (seed : Sample) (j : Nat) :
    sampleAt (.fixed v) seed j = some (BitVec.ofInt 24 v) := by cases j <;> rfl

/-- The ramp has taken `j + 1` steps from the seed at frame `j` (R124). -/
theorem sampleAt_ramp (step : Int) (seed : Sample) (j : Nat) :
    sampleAt (.ramp step) seed j = some (BitVec.ofInt 24 (seed.toNat + (j + 1) * step)) := by
  induction j with
  | zero => simp [sampleAt]
  | succ j ih =>
    have harith : (seed.toNat : Int) + (j + 1) * step + step = seed.toNat + ((j + 1 : Nat) + 1) * step := by
      push_cast
      ring
    rw [sampleAt, ih, nextSample_ramp_some, sample_ofInt_add, harith]

/-- Settles O21: the three closed forms, read as integers. -/
theorem sampleSequenceClosedForms : Obligations.SampleSequenceClosedForms := fun seed j =>
  ⟨sampleAt_none seed j, fun v => ⟨_, sampleAt_fixed v seed j, sample_ofInt_toNat v⟩,
    fun step => ⟨_, sampleAt_ramp step seed j, sample_ofInt_toNat _⟩⟩

/-! ## Commands that only read -/

/-- The command only answers HOST, without an event, or is refused. -/
def AnswersOnly (i : Instr) : Prop :=
  ∀ s : State, (∃ a v, exec i s = .next (s.respond a v [])) ∨ ∃ why, exec i s = .next (s.refuse why)

/-- A command whose every outcome is an answer without an event. -/
theorem AnswersOnly.of_respond {i : Instr} {a : Agent} {v : State → Value}
    (h : ∀ s, exec i s = .next (s.respond a (v s) [])) : AnswersOnly i := fun s => .inl ⟨a, v s, h s⟩

/-- A command that only answers writes no parameter, no register of `ENC` or of a decoder, and adds nothing to
`EVT`. -/
theorem AnswersOnly.frame {i : Instr} {s t : State} (ha : AnswersOnly i) (h : exec i s = .next t) :
    t.params = s.params ∧ t.enc = s.enc ∧ t.decs = s.decs ∧ t.evt = s.evt ∧ t.cmds = s.cmds := by
  obtain ⟨a, v, hr⟩ | ⟨why, hr⟩ := ha s
  · cases h.symm.trans hr
    simp
  · cases h.symm.trans hr
    simp

/-- `SF_ASSEMBLE` answers the subframe, or is refused, unconfigured or out of range (R184, R333). -/
theorem answersOnly_sfAssemble (j k : Nat) : AnswersOnly (.sfAssemble j k) := by
  intro s
  simp only [exec, execSfAssemble]
  cases s.enc.inUse with
  | none => exact .inr ⟨_, rfl⟩
  | some c =>
    dsimp only
    cases assemble c j k with
    | none => exact .inr ⟨_, rfl⟩
    | some sf => exact .inl ⟨_, _, rfl⟩

/-- What `CS_BUILD` writes (R141, R300): nothing for a legal record; else the first illegal field's error in `enc_err`,
and its event. -/
theorem exec_csBuild_writes {r : CsRecord} {s t : State} (h : exec (.csBuild r) s = .next t) :
    sameButEnc s t
      ∧ (r.firstIllegal = none → t.enc = s.enc ∧ t.evt = s.evt)
      ∧ ∀ f, r.firstIllegal = some f →
          t.enc = s.enc.recordError (csError f) ∧ t.evt = s.evt ++ [(.enc, .configError (csError f))] := by
  obtain ⟨t', ht', hframe, hok, herror⟩ := execCsBuild_spec r s
  cases h.symm.trans ht'
  refine ⟨hframe, fun hn => ?legal, fun f hf => ?illegal⟩
  case legal =>
    obtain ⟨⟨-, hevt⟩, henc⟩ := hok _ (buildCs_eq_ok.2 ⟨hn, rfl⟩)
    exact ⟨henc, by simpa using hevt⟩
  case illegal =>
    obtain ⟨⟨-, hevt⟩, henc⟩ := herror f (buildCs_eq_error.2 hf)
    exact ⟨henc, hevt⟩

/-- `CS_BUILD` leaves `OUT` as it was, whatever the record. -/
theorem exec_csBuild_out {r : CsRecord} {s t : State} (h : exec (.csBuild r) s = .next t) : t.enc.out = s.enc.out := by
  obtain ⟨-, hlegal, hillegal⟩ := exec_csBuild_writes h
  cases hf : r.firstIllegal with
  | none => rw [(hlegal hf).1]
  | some f => rw [(hillegal f hf).1, EncState.recordError_out]

/-- Settles O57: every command named but `CS_BUILD` only answers; `CS_BUILD` writes at most its error. -/
theorem readOnlyCommandsFrame : Obligations.ReadOnlyCommandsFrame := by
  intro s t i hi h
  by_cases hb : ∃ r, i = .csBuild r
  · obtain ⟨r, rfl⟩ := hb
    obtain ⟨⟨hparams, hdecs, -, hcmds⟩, hlegal, hillegal⟩ := exec_csBuild_writes h
    refine ⟨hparams, hdecs, hcmds, fun hl => hlegal (CsRecord.firstIllegal_eq_none.2 (hl r rfl)), ?_,
      fun a => by rw [exec_csBuild_out h]⟩
    rintro _ f ⟨⟩ hf
    exact hillegal f hf
  · have ha : AnswersOnly i := by
      obtain rfl | ⟨p, q, rfl⟩ | hr | ⟨j, k, rfl⟩ | ⟨j, k, rfl⟩ | ⟨d, rfl⟩ | ⟨sym, d, l, rfl⟩ | ⟨x, rfl⟩ | ⟨n, rfl⟩
        | rfl := hi
      · exact .of_respond fun _ => rfl
      · exact .of_respond fun _ => rfl
      · exact absurd hr hb
      · exact .of_respond fun _ => rfl
      · exact answersOnly_sfAssemble j k
      · exact .of_respond fun _ => rfl
      · exact .of_respond fun _ => rfl
      · exact .of_respond fun _ => rfl
      · exact .of_respond fun _ => rfl
      · exact fun s => .inr ⟨_, rfl⟩
    obtain ⟨hparams, henc, hdecs, hevt, hcmds⟩ := ha.frame h
    exact ⟨hparams, hdecs, hcmds, fun _ => ⟨henc, hevt⟩, fun r _ hr => absurd ⟨r, hr⟩ hb, fun a => by rw [henc]⟩

end Sys2Proof.Machine

/-! # Channel status (41_channel_status.md): the fields of a record, `CS_BUILD`

Which values each field may hold and which bits a string of `0` and `1` spells; the codes of the rate and the depth
tables; the block as 24 bytes of 8 bits, and what each byte holds for a legal record; then the statements of this
family. -/

namespace Sys2Proof

open Machine

/-! ## Legal values -/

/-- The character a bit is written as (R108, R140). -/
def bitChar (b : Bool) : Char := if b then '1' else '0'

theorem bitString_eq_some {n : Nat} {s : String} {bs : BitSeq} :
    bitString n s = some bs ↔ s.toList.length = n ∧ s.toList = bs.map bitChar := by
  have hchar : Reads (fun c => if c = '0' then some false else if c = '1' then some true else none) bitChar := by
    intro c b
    by_cases h0 : c = '0' <;> cases b <;> simp [bitChar, h0]
  rw [bitString]
  split
  next hn => simpa [hn] using hchar.mapM s.toList bs
  next hn => simp [hn]

/-- The lists of characters that spell bits are those of the characters `0` and `1`. -/
theorem exists_eq_map_bitChar {l : List Char} : (∃ bs : BitSeq, l = bs.map bitChar) ↔ ∀ c ∈ l, c = '0' ∨ c = '1' := by
  have h : (∃ bs : BitSeq, l = bs.map bitChar) ↔ l ∈ Set.range (List.map bitChar) := by simp [eq_comm]
  rw [h, Set.range_list_map]
  simp [bitChar]

namespace FieldVal
variable {v : FieldVal}

theorem isBool_iff : v.isBool = true ↔ ∃ b, v = .bool b := by cases v <;> simp [isBool]

theorem isBits_iff {n : Nat} :
    v.isBits n = true ↔ ∃ s, v = .str s ∧ s.toList.length = n ∧ ∀ c ∈ s.toList, c = '0' ∨ c = '1' := by
  cases v with
  | str s => simp [isBits, Option.isSome_iff_exists, bitString_eq_some, exists_eq_map_bitChar]
  | _ => simp [isBits]

/-- The bits of a legal bit-string field: one for each character, and set for the character `1`. -/
theorem bits_str {n : Nat} {s : String} (h : (FieldVal.str s).isBits n = true) :
    ((FieldVal.str s).bits n).length = n
      ∧ ∀ k < n, ((FieldVal.str s).bits n).getD k false = (s.toList[k]? == some '1') := by
  obtain ⟨bs, hbs⟩ := Option.isSome_iff_exists.1 h
  obtain ⟨hn, hs⟩ := bitString_eq_some.1 hbs
  have hb : (FieldVal.str s).bits n = bs := by rw [FieldVal.bits, hbs, Option.getD_some]
  have hl : bs.length = n := by rw [← hn, hs, List.length_map]
  refine ⟨by rw [hb, hl], fun k hk => ?_⟩
  rw [hb, hs, List.getElem?_map, List.getD_eq_getElem?_getD, List.getElem?_eq_getElem (hl ▸ hk)]
  cases bs[k] <;> rfl

theorem bits_length {n : Nat} (h : v.isBits n = true) : (v.bits n).length = n := by
  obtain ⟨s, rfl, -⟩ := isBits_iff.1 h
  exact (bits_str h).1

theorem inRange_int_iff {lo hi k : Int} : (FieldVal.int k).inRange lo hi = true ↔ lo ≤ k ∧ k ≤ hi := by
  simp [inRange]

theorem inRange_iff {lo hi : Int} : v.inRange lo hi = true ↔ ∃ k, lo ≤ k ∧ k ≤ hi ∧ v = .int k := by
  cases v <;> simp [inRange]

/-- A range of naturals. -/
theorem inRange_natCast_iff {lo hi : Nat} : v.inRange lo hi = true ↔ ∃ n : Nat, lo ≤ n ∧ n ≤ hi ∧ v = .int n := by
  rw [inRange_iff]
  constructor
  · rintro ⟨k, hlo, hhi, rfl⟩
    lift k to Nat using by omega
    exact ⟨k, by omega, by omega, rfl⟩
  · rintro ⟨n, hlo, hhi, rfl⟩
    exact ⟨n, by omega, by omega, rfl⟩

theorem inRange_zero_iff {hi : Nat} : v.inRange 0 hi = true ↔ ∃ n : Nat, n ≤ hi ∧ v = .int n := by
  simpa using inRange_natCast_iff (v := v) (lo := 0) (hi := hi)

theorem inRange_zero_one_iff : v.inRange 0 1 = true ↔ v = .int 0 ∨ v = .int 1 := by
  refine (inRange_zero_iff (hi := 1)).trans ?_
  simp [Nat.le_one_iff_eq_zero_or_eq_one, or_and_right, exists_or]

theorem isRate_iff : v.isRate = true ↔ ∃ n ∈ srCodes.map Prod.fst, v = .int n := by
  cases v with
  | int n => simp [isRate, srCode, List.find?_isSome]
  | _ => simp [isRate]

theorem isExtra_iff : v.isExtra = true ↔ ∃ l, v = .ints l ∧ l.length ≤ 19 ∧ ∀ x ∈ l, 0 ≤ x ∧ x ≤ 255 := by
  cases v <;> simp [isExtra]

theorem orDefault_eq_ite {d : FieldVal} : v.orDefault d = if v = .missing then d else v := by
  cases v <;> simp [orDefault]

end FieldVal

theorem csField_spelling_eq_iff {f : CsField} {name : String} :
    f.spelling = name ↔ (f, name) ∈ csFieldOrder.map fun g => (g, g.spelling) := by
  simp [mem_csFieldOrder]

/-- Settles O23: the names are those of `csFieldOrder`; the legal values, by the kind of the field; the value used,
given or default. -/
theorem csFieldLegalValues : Obligations.CsFieldLegalValues := by
  refine ⟨fun f name => csField_spelling_eq_iff, fun f v => ?legal, fun r => ?used⟩
  case used => simp only [CsRecord.get, FieldVal.orDefault_eq_ite, and_self]
  case legal =>
    cases f with
    | professional | digitalAudio | copyright => exact FieldVal.isBool_iff
    | preEmphasis | mode => exact FieldVal.isBits_iff
    | categoryCode | category | clockAccuracy | originalSampleRate => exact beq_iff_eq
    | lBit => exact FieldVal.inRange_zero_one_iff
    | sourceNumber | channelNumber => exact FieldVal.inRange_zero_iff
    | sampleRate => exact FieldVal.isRate_iff
    | bitDepth => exact FieldVal.inRange_natCast_iff
    | extraBytes => exact FieldVal.isExtra_iff

end Sys2Proof

namespace Sys2Proof.Machine

/-! ## Bits of sequences and words -/

/-- Bit `8n + k` of a sequence put together from 8-bit parts is bit `k` of part `n`. -/
theorem getD_flatMap_range_bytes {f : Nat → BitSeq} {N n k : Nat} (hf : ∀ m, (f m).length = 8) (hn : n < N)
    (hk : k < 8) : ((List.range N).flatMap f).getD (8 * n + k) false = (f n).getD k false := by
  induction n generalizing N f with
  | zero =>
    obtain ⟨N, rfl⟩ := Nat.exists_eq_succ_of_ne_zero (Nat.ne_zero_of_lt hn)
    have h0 := hf 0
    rw [List.range_succ_eq_map, List.flatMap_cons, List.getD_append _ _ _ _ (by omega), Nat.mul_zero, Nat.zero_add]
  | succ n ih =>
    obtain ⟨N, rfl⟩ := Nat.exists_eq_succ_of_ne_zero (Nat.ne_zero_of_lt hn)
    have h0 := hf 0
    rw [List.range_succ_eq_map, List.flatMap_cons, List.flatMap_map, List.getD_append_right _ _ _ _ (by omega),
      show 8 * (n + 1) + k - (f 0).length = 8 * n + k by omega]
    exact ih (f := fun m => f (m + 1)) (fun m => hf (m + 1)) (by omega)

theorem getD_toSeq {w : Nat} (x : BitVec w) {k : Nat} (hk : k < w) : (toSeq x).getD k false = x.getLsbD k := by
  rw [List.getD_eq_getElem?_getD, toSeq_getElem?, if_pos hk, Option.getD_some]

/-- The bits of a word made from an integer that is not negative. -/
theorem getD_toSeq_ofInt {w k : Nat} {x : Int} (hx : 0 ≤ x) (hk : k < w) :
    (toSeq (BitVec.ofInt w x)).getD k false = x.toNat.testBit k := by
  lift x to Nat using hx
  rw [getD_toSeq _ hk, BitVec.ofInt_natCast, BitVec.getLsbD_ofNat, decide_eq_true hk, Bool.true_and, Int.toNat_natCast]

/-- A sequence is its bits, in order. -/
theorem map_range_eq_of_bits {g : Nat → Bool} {l : BitSeq} {n : Nat} (hl : l.length = n)
    (hg : ∀ k < n, g k = l.getD k false) : (List.range n).map g = l := by
  refine List.ext_getElem (by simp [hl]) fun k _ hk => ?_
  rw [List.getElem_map, List.getElem_range, hg k (hl ▸ hk), List.getD_eq_getElem _ _ hk]

/-- The bits of a part of a sequence. -/
theorem getD_part {a b c : BitSeq} {i k : Nat} (hi : i = a.length + k) (hk : k < b.length) :
    (a ++ b ++ c).getD i false = b.getD k false := by
  subst hi
  rw [List.getD_append _ _ _ _ (by simpa using hk), List.getD_append_right _ _ _ _ (by omega), Nat.add_sub_cancel_left]

/-- The bits of the last part of a sequence. -/
theorem getD_last_part {a b : BitSeq} {i k : Nat} (hi : i = a.length + k) :
    (a ++ b).getD i false = b.getD k false := by
  subst hi
  rw [List.getD_append_right _ _ _ _ (by omega), Nat.add_sub_cancel_left]

/-! ## The code tables (R145, R146) -/

theorem srCode_mem {rate : Int} {code : BitSeq} (h : srCode rate = some code) :
    (rate, code) ∈ srCodes.map fun e => (e.1, bitsOf e.2) := by
  obtain ⟨e, he, rfl⟩ := Option.map_eq_some_iff.1 h
  have hrate : e.1 = rate := by simpa using List.find?_some he
  exact List.mem_map.2 ⟨e, List.mem_of_find?_eq_some he, by rw [hrate]⟩

theorem srCode_length {rate : Int} {code : BitSeq} (h : srCode rate = some code) : code.length = 4 :=
  (by decide : ∀ e ∈ srCodes.map fun e => (e.1, bitsOf e.2), e.2.length = 4) _ (srCode_mem h)

theorem exists_srCode {v : FieldVal} (h : v.isRate = true) : ∃ code, srCode v.num = some code := by
  obtain ⟨rate, -, rfl⟩ := FieldVal.isRate_iff.1 h
  exact Option.isSome_iff_exists.1 h

theorem depthCode_length (depth : Int) : (depthCode depth).length = 3 := by
  unfold depthCode
  split_ifs <;> rfl

/-- The depths of the table (R146). -/
theorem depthCode_mem {depth : Int} (hlo : 15 < depth) (hhi : depth ≤ 24) : (depth, depthCode depth)
    ∈ [(24, [true, false, true]), (23, [false, false, true]), (22, [false, true, false]),
       (21, [false, true, true]), (20, [true, false, true]), (19, [false, false, true]),
       (18, [false, true, false]), (17, [false, true, true]), (16, [true, false, false])] := by
  interval_cases depth <;> decide

/-- The depths the table has no entry for (D10). -/
theorem depthCode_le_fifteen {depth : Int} (h : depth ≤ 15) : depthCode depth = [false, false, false] := by
  unfold depthCode
  repeat rw [if_neg (by omega)]
  rfl

/-! ## The block as bytes -/

/-- Byte `n` of the block (R142 to R148). -/
def csByte (P : Params) (r : CsRecord) : Nat → BitSeq
  | 0 => csByte0 r
  | 1 => csByte1 P r
  | 2 => csByte2 r
  | 3 => csByte3 r
  | 4 => csByte4 r
  | n => csByteExtra r n

theorem csByte_extra (P : Params) (r : CsRecord) (n : Nat) : csByte P r (5 + n) = csByteExtra r (5 + n) := by
  rw [Nat.add_comm]
  rfl

theorem csBits_eq_flatMap (P : Params) (r : CsRecord) : csBits P r = (List.range 24).flatMap (csByte P r) := by
  rw [show (24 : Nat) = 5 + 19 from rfl, List.range_add, List.flatMap_append, List.flatMap_map]
  simp only [csByte_extra, csBits, List.append_left_inj]
  simp [List.range_succ, csByte]

section
variable {r : CsRecord} (h : ∀ f : CsField, f.legal (r.get f) = true)
include h

theorem csByte_length (P : Params) (n : Nat) : (csByte P r n).length = 8 := by
  have hpre := FieldVal.bits_length (h .preEmphasis)
  have hmode := FieldVal.bits_length (h .mode)
  obtain ⟨code, hcode⟩ := exists_srCode (h .sampleRate)
  match n with
  | 0 => simp [csByte, csByte0, hpre, hmode]
  | 1 => simp [csByte, csByte1]
  | 2 => simp [csByte, csByte2, rev4]
  | 3 => simp [csByte, csByte3, hcode, srCode_length hcode, bitsOf]
  | 4 => simp [csByte, csByte4, depthCode_length, bitsOf]
  | n + 5 => simp [csByte, csByteExtra]

/-- Bit `8n + k` of the block is bit `k` of byte `n`. -/
theorem csBlock_bit {P : Params} (n : Nat) {k b : Nat} {x : Bool} (hx : (csByte P r n).getD k false = x)
    (hb : b = 8 * n + k := by omega) (hn : n < 24 := by omega) (hk : k < 8 := by omega) :
    (ofSeq 192 (csBits P r)).getLsbD b = x := by
  rw [getLsbD_ofSeq, decide_eq_true (by omega), Bool.true_and, csBits_eq_flatMap, hb,
    getD_flatMap_range_bytes (csByte_length h P) hn hk, hx]

/-! ### What each byte holds -/

/-- The value a legal record holds in a field is legal. -/
theorem legal_of_get_eq {f : CsField} {v : FieldVal} (hv : r.get f = v) : f.legal v = true := hv ▸ h f

variable {k : Nat}

theorem csByte0_preEmphasis {pre : String} (hpre : r.get .preEmphasis = .str pre) (hk : k < 3) :
    (csByte0 r).getD (3 + k) false = (pre.toList[k]? == some '1') := by
  obtain ⟨hlen, hbits⟩ := FieldVal.bits_str (legal_of_get_eq h hpre)
  rw [csByte0, hpre, getD_part (k := k) (by simp) (by rwa [hlen]), hbits k hk]

theorem csByte0_mode {mode : String} (hmode : r.get .mode = .str mode) (hk : k < 2) :
    (csByte0 r).getD (6 + k) false = (mode.toList[k]? == some '1') := by
  have hpre := FieldVal.bits_length (h .preEmphasis)
  obtain ⟨-, hbits⟩ := FieldVal.bits_str (legal_of_get_eq h hmode)
  rw [csByte0, hmode, getD_last_part (k := k) (by simp [hpre]), hbits k hk]

theorem csByte2_sourceNumber {src : Int} (hsrc : r.get .sourceNumber = .int src) (hk : k < 4) :
    (csByte2 r).getD k false = src.toNat.testBit k := by
  obtain ⟨hpos, -⟩ := FieldVal.inRange_int_iff.1 (legal_of_get_eq h hsrc)
  rw [csByte2, hsrc, List.getD_append _ _ _ _ (by simpa [rev4] using hk)]
  exact getD_toSeq_ofInt hpos hk

theorem csByte2_channelNumber {chan : Int} (hchan : r.get .channelNumber = .int chan) (hk : k < 4) :
    (csByte2 r).getD (4 + k) false = chan.toNat.testBit k := by
  obtain ⟨hpos, -⟩ := FieldVal.inRange_int_iff.1 (legal_of_get_eq h hchan)
  rw [csByte2, hchan, getD_last_part (k := k) (by simp [rev4])]
  exact getD_toSeq_ofInt hpos hk

/-- The first four bits of byte 3 are the code of the rate. -/
theorem csByte3_sampleRate {rate : Int} (hrate : r.get .sampleRate = .int rate) :
    ∃ code, srCode rate = some code ∧ ∀ k < 4, (csByte3 r).getD k false = code.getD k false := by
  obtain ⟨code, hcode⟩ := exists_srCode (v := .int rate) (legal_of_get_eq h hrate)
  refine ⟨code, hcode, fun k hk => ?_⟩
  rw [csByte3, hrate, hcode, List.append_assoc, List.getD_append _ _ _ _ (by rwa [Option.getD_some, srCode_length hcode]),
    Option.getD_some]

/-- Clock accuracy and the reserved bits are zero. -/
theorem csByte3_zero (hk : k < 4) : (csByte3 r).getD (4 + k) false = false := by
  obtain ⟨code, hcode⟩ := exists_srCode (h .sampleRate)
  rw [csByte3, hcode, List.append_assoc, getD_last_part (k := k) (by rw [Option.getD_some, srCode_length hcode])]
  interval_cases k <;> rfl

theorem csByteExtra_bit {extra : List Int} (hextra : r.get .extraBytes = .ints extra) (n : Nat) (hk : k < 8) :
    (csByteExtra r (5 + n)).getD k false = (extra.getD n 0).toNat.testBit k := by
  have hpos : 0 ≤ extra.getD n 0 := by
    obtain ⟨l, hl, -, hbytes⟩ := (FieldVal.isExtra_iff (v := .ints extra)).1 (legal_of_get_eq h hextra)
    cases hl
    by_cases hn : n < extra.length
    · rw [List.getD_eq_getElem _ _ hn]
      exact (hbytes _ (List.getElem_mem hn)).1
    · rw [List.getD_eq_default _ _ (Nat.le_of_not_lt hn)]
  rw [csByteExtra, hextra, Nat.add_sub_cancel_left]
  exact getD_toSeq_ofInt hpos hk

end

section
variable {k : Nat} (P : Params) (r : CsRecord)

theorem csByte1_catcodeDD (hk : k < 3) : (csByte1 P r).getD k false = P.catcodeDD.getLsbD k := by
  rw [csByte1, List.append_assoc, List.getD_append _ _ _ _ (by simpa using hk), getD_toSeq _ hk]

theorem csByte1_categoryOther (hk : k < 4) : (csByte1 P r).getD (3 + k) false = P.categoryOther.getLsbD k := by
  rw [csByte1, getD_part (k := k) (by simp) (by simpa using hk), getD_toSeq _ hk]

theorem csByte1_lBit : (csByte1 P r).getD 7 false = ((r.get .lBit).num == 1) :=
  getD_last_part (k := 0) (by simp)

theorem csByte4_depthCode (hk : k < 3) :
    (csByte4 r).getD (1 + k) false = (depthCode (r.get .bitDepth).num).getD k false :=
  getD_part rfl (by rwa [depthCode_length])

/-- The original sample rate is `0000`. -/
theorem csByte4_zero (hk : k < 4) : (csByte4 r).getD (4 + k) false = false := by
  rw [csByte4, getD_last_part (k := k) (by simp [depthCode_length])]
  interval_cases k <;> rfl

end

/-- Settles O22: the block is `csBits`, which holds byte `n` at bits `8n` to `8n + 7`; each byte is read by its lemma. -/
theorem csBuildBlock : Obligations.CsBuildBlock := by
  intro s r prof dig copy pre mode lbit src chan rate depth extra h hprof hdig hcopy hpre hmode hlbit hsrc hchan hrate
    hdepth hextra
  obtain ⟨t, ht, ⟨hparams, hdecs, hrefused, hcmds⟩, hok, -⟩ := execCsBuild_spec r s
  obtain ⟨hanswers, henc⟩ := hok _ (buildCs_eq_ok.2 ⟨CsRecord.firstIllegal_eq_none.2 h, rfl⟩)
  obtain ⟨code, hcode, hcodeBits⟩ := csByte3_sampleRate h hrate
  have hnum : (r.get .bitDepth).num = depth := congrArg FieldVal.num hdepth
  obtain ⟨-, hdepthLe⟩ := FieldVal.inRange_int_iff.1 (legal_of_get_eq h hdepth)
  set cs := ofSeq 192 (csBits s.params r)
  have hrateBits : [cs.getLsbD 24, cs.getLsbD 25, cs.getLsbD 26, cs.getLsbD 27] = code :=
    map_range_eq_of_bits (n := 4) (g := fun k => cs.getLsbD (24 + k)) (srCode_length hcode) fun k hk =>
      csBlock_bit h 3 (hcodeBits k hk)
  have hdepthBits : [cs.getLsbD 33, cs.getLsbD 34, cs.getLsbD 35] = depthCode depth :=
    map_range_eq_of_bits (n := 3) (g := fun k => cs.getLsbD (33 + k)) (depthCode_length depth) fun k hk =>
      csBlock_bit h 4 (hnum ▸ csByte4_depthCode r hk)
  refine ⟨t, cs, ht, hanswers, ⟨hparams, henc, hdecs, hrefused, hcmds⟩,
    csBlock_bit h 0 (k := 0) (congrArg FieldVal.flag hprof),
    csBlock_bit h 0 (k := 1) (congrArg (fun v => !FieldVal.flag v) hdig),
    csBlock_bit h 0 (k := 2) (congrArg (fun v => !FieldVal.flag v) hcopy),
    fun k hk => csBlock_bit h 0 (csByte0_preEmphasis h hpre hk),
    fun k hk => csBlock_bit h 0 (csByte0_mode h hmode hk),
    fun k hk => csBlock_bit h 1 (csByte1_catcodeDD s.params r hk),
    fun k hk => csBlock_bit h 1 (csByte1_categoryOther s.params r hk),
    csBlock_bit h 1 ((csByte1_lBit s.params r).trans (congrArg (fun v => FieldVal.num v == 1) hlbit)),
    fun k hk => ⟨csBlock_bit h 2 (csByte2_sourceNumber h hsrc hk), csBlock_bit h 2 (csByte2_channelNumber h hchan hk)⟩,
    ?rate,
    fun k hk => csBlock_bit h 3 (csByte3_zero h hk),
    csBlock_bit h 4 (k := 0) (congrArg (fun v => decide (20 < FieldVal.num v)) hdepth),
    ?depth, ?smallDepth,
    fun k hk => csBlock_bit h 4 (csByte4_zero r hk),
    fun n hn k hk => csBlock_bit h (5 + n) ((csByte_extra s.params r n).symm ▸ csByteExtra_bit h hextra n hk)⟩
  case rate => rw [hrateBits]; exact srCode_mem hcode
  case depth => rw [hdepthBits]; exact fun hlo => depthCode_mem hlo hdepthLe
  case smallDepth =>
    intro hle
    rw [depthCode_le_fifteen hle] at hdepthBits
    simpa using hdepthBits

end Sys2Proof.Machine

/-! # Subframe assembler (42_subframe_assembler.md): `PARITY`, `SF_ASSEMBLE`

The parity bit as a population count; each data bit of a subframe; what `SF_ASSEMBLE` does within range, out of range
and with no configuration held; then the statements of this family. -/

namespace Sys2Proof.Machine

/-! ## Parity -/

/-- The exclusive or of all bits is set exactly when the population count is odd (R183). -/
theorem xorAll_eq_popcount_odd (s : BitSeq) : xorAll s = (popcount s % 2 == 1) := by
  rw [← toNat_xorAll]
  cases xorAll s <;> rfl

/-- Settles O26: `PARITY` answers the exclusive or of the bits, which is the population count mod 2. -/
theorem parityMakesPopcountEven : Obligations.ParityMakesPopcountEven := fun s d =>
  ⟨_, xorAll (toSeq d), rfl, s.respond_answers _ _ _, s.respond_frame _ _ _, toNat_xorAll _,
    (xorAll_eq_false_iff _).1 (xorAll_append_parity _)⟩

/-! ## The data bits of a subframe -/

section
variable (ch : Channel) (j : Nat)

theorem toSeq_subframeWord : toSeq (ofSeq 28 (subframeBits ch j)) = subframeBits ch j :=
  toSeq_ofSeq (subframeBits_length ch j)

theorem getLsbD_subframeWord {k : Nat} (hk : k < 28) :
    (ofSeq 28 (subframeBits ch j)).getLsbD k = (subframeBits ch j).getD k false := by
  rw [getLsbD_ofSeq, decide_eq_true hk, Bool.true_and]

/-- The sample's bits, least significant first (R180); a missing sample counts as 0 (R126). -/
theorem subframeWord_sample {k : Nat} (hk : k < 24) : (ofSeq 28 (subframeBits ch j)).getLsbD k
    = ((sampleAt ch.policy ch.seed j).getD 0).getLsbD k := by
  rw [getLsbD_subframeWord ch j (by omega), subframeBits, List.getD_append _ _ _ _ (by rw [payload_length]; omega),
    payload, List.getD_append _ _ _ _ (by simpa using hk), getD_toSeq _ hk]

/-- The bits after the sample: V, U (R181) and C (R182). -/
theorem subframeWord_flags {k : Nat} (hk : k < 3) : (ofSeq 28 (subframeBits ch j)).getLsbD (24 + k)
    = [ch.v, ch.u, ch.cs.getLsbD (j % 192)].getD k false :=
  (getLsbD_subframeWord ch j (by omega)).trans (getD_part (by simp) hk)

/-- The last bit is the parity of those before it (R183). -/
theorem subframeWord_parity :
    (ofSeq 28 (subframeBits ch j)).getLsbD 27 = xorAll ((toSeq (ofSeq 28 (subframeBits ch j))).take 27) := by
  have htake : (subframeBits ch j).take 27 = payload ch j := List.take_left' (payload_length ch j)
  rw [toSeq_subframeWord, htake, getLsbD_subframeWord ch j (by omega)]
  exact getD_last_part (k := 0) (by simp)

/-- The population count of a subframe is even (R185). -/
theorem subframeWord_popcount_even : popcount (toSeq (ofSeq 28 (subframeBits ch j))) % 2 = 0 := by
  rw [toSeq_subframeWord, ← xorAll_eq_false_iff]
  exact xorAll_subframeBits ch j

end

/-! ## SF_ASSEMBLE -/

section
variable {s : State} {c : EncCfg} {j i : Nat}

theorem exec_sfAssemble_of_notConfigured (h : notConfigured s) :
    exec (.sfAssemble j i) s = .next (s.refuse .notConfigured) := by
  have hu : s.enc.inUse = none := EncState.inUse_eq_none.2 (h.imp_right .inl)
  simp only [exec, execSfAssemble, hu]

theorem exec_sfAssemble_of_outOfRange (hu : s.enc.inUse = some c) (h : 192 * c.nblocks ≤ j ∨ c.nch ≤ i) :
    exec (.sfAssemble j i) s = .next (s.refuse .outOfRange) := by
  have ha : assemble c j i = none := by
    rw [← Option.not_isSome_iff_eq_none, assemble_isSome]
    omega
  simp only [exec, execSfAssemble, hu, ha]

theorem exec_sfAssemble_of_inRange {ch : Channel} (hu : s.enc.inUse = some c) (hj : j < 192 * c.nblocks)
    (hch : c.channels[i]? = some ch) :
    exec (.sfAssemble j i) s
      = .next (s.respond .enc (.subframe (preSelect j i) (ofSeq 28 (subframeBits ch j))) []) := by
  simp only [exec, execSfAssemble, hu, assemble_eq_some.2 ⟨hj, ch, hch, rfl⟩]

end

/-- Settles O27: within range the answer is the word of `subframeBits`, whose bits the `subframeWord_…` lemmas give. -/
theorem sfAssembleSubframe : Obligations.SfAssembleSubframe := by
  refine ⟨fun s c ch j i hst hcfg hch hj => ?inRange,
    fun s j i h => ⟨_, exec_sfAssemble_of_notConfigured h, s.refuse_isRefusal _⟩,
    fun s c j i hst hcfg h =>
      ⟨_, exec_sfAssemble_of_outOfRange (EncState.inUse_eq_some.2 ⟨hst, hcfg⟩) h, s.refuse_isRefusal _⟩⟩
  case inRange =>
    refine ⟨_, _, exec_sfAssemble_of_inRange (EncState.inUse_eq_some.2 ⟨hst, hcfg⟩) hj hch, s.respond_answers _ _ _,
      s.respond_frame _ _ _, fun x hx k hk => ?some, fun hx k hk => ?none, subframeWord_flags ch j (k := 0) (by omega),
      subframeWord_flags ch j (k := 1) (by omega), subframeWord_flags ch j (k := 2) (by omega),
      (subframeWord_parity ch j).trans (xorAll_eq_popcount_odd _), subframeWord_popcount_even ch j⟩
    case some => rw [subframeWord_sample ch j hk, hx, Option.getD_some]
    case none => simp [subframeWord_sample ch j hk, hx]

end Sys2Proof.Machine

/-! # Frame sequencer (43_frame_sequencer.md): `PRE_SELECT`, `ENC_CONFIGURE`, `ENC_STATUS`, `ENC_RUN`

The preamble of a position; what a rejected configuration leaves, and which error it raises; the size of the stream as
`ENC_STATUS` reports it; the packets `ENC_RUN` emits and the engine it leaves; then the statements of this family. -/

namespace Sys2Proof.Machine

/-! ## PRE_SELECT -/

section
variable {j i : Nat}

/-- The channel decides first, then whether a block begins (R200). -/
theorem preSelect_eq_ite : preSelect j i = if i = 0 then if 192 ∣ j then .z else .x else .y := by
  simp only [preSelect, Config.blockFrames, Nat.dvd_iff_mod_eq_zero]
  by_cases hi : i = 0 <;> simp [hi]

theorem preSelect_eq_z_iff : preSelect j i = .z ↔ i = 0 ∧ 192 ∣ j := by
  rw [preSelect_eq_ite]
  split_ifs <;> simp [*]

theorem preSelect_eq_x_iff : preSelect j i = .x ↔ i = 0 ∧ ¬192 ∣ j := by
  rw [preSelect_eq_ite]
  split_ifs <;> simp [*]

theorem preSelect_eq_y_iff : preSelect j i = .y ↔ 1 ≤ i := by
  rw [preSelect_eq_ite, Nat.one_le_iff_ne_zero]
  split_ifs <;> simp [*]

end

/-- Settles O25: the answer is `preSelect`, whose three values exclude each other. -/
theorem preSelectSymbol : Obligations.PreSelectSymbol := fun s j i =>
  ⟨_, preSelect j i, rfl, s.respond_answers _ _ _, s.respond_frame _ _ _, preSelect_eq_z_iff, preSelect_eq_x_iff,
    preSelect_eq_y_iff⟩

/-! ## ENC_CONFIGURE rejected -/

/-- A policy specification constructs nothing when its name is none of the three, or when it needs an integer and has
none (R120, R301). -/
theorem constructPolicy_eq_none {p : PolicySpec}
    (h : (p.name ≠ .str "none" ∧ p.name ≠ .str "fixed" ∧ p.name ≠ .str "ramp")
      ∨ ((p.name = .str "fixed" ∨ p.name = .str "ramp") ∧ ∀ k, p.value ≠ .int k)) : constructPolicy p = none := by
  obtain ⟨name, value⟩ := p
  obtain ⟨hn, hf, hr⟩ | ⟨rfl | rfl, hv⟩ := h
  · exact constructPolicy_other value hn hf hr
  · rw [constructPolicy_fixed, toInt?_eq_none hv, Option.map_none]
  · rw [constructPolicy_ramp, toInt?_eq_none hv, Option.map_none]

/-- The first policy that cannot be constructed is the error, whatever the channel-status records hold (R202, R301). -/
theorem acceptConfig_policyError {P : Params} {c : EncConfig} {good rest : List PolicySpec} {p : PolicySpec}
    (hc : c.channels = good ++ p :: rest) (hg : ∀ q ∈ good, (constructPolicy q).isSome)
    (hp : constructPolicy p = none) : acceptConfig P c = .error (policyError good.length) := by
  simp only [acceptConfig, hc, constructPolicies_error hg hp, Nat.zero_add]

/-- With every policy constructed, the first record with an illegal field is the error (R202, R302). -/
theorem acceptConfig_csError {P : Params} {c : EncConfig} {good rest : List CsRecord} {r : CsRecord} {f : CsField}
    (hp : ∀ q ∈ c.channels, (constructPolicy q).isSome) (hc : c.csRecords = good ++ r :: rest)
    (hg : ∀ q ∈ good, ∀ g : CsField, g.legal (q.get g) = true) (hr : r.firstIllegal = some f) :
    acceptConfig P c = .error (csError f) := by
  obtain ⟨qs, hqs⟩ := constructPolicies_isOk (i := 0) hp
  simp only [acceptConfig, hqs, hc, buildBlocks_error hg hr]

/-- `ENC_CONFIGURE` with an error reports it and rejects the configuration as a whole (R202, R307). -/
theorem exec_encConfigure_rejects {s : State} {c : EncConfig} {x : ConfigError} (hw : c.wf = true)
    (h : acceptConfig s.params c = .error x) :
    ∃ t, exec (.encConfigure c) s = .next t ∧ answers s t .enc .nothing [.configError x] ∧ sameButEnc s t
      ∧ t.enc.status = .configError ∧ t.enc.err = some x ∧ t.enc.cfg = none ∧ t.enc.p = 0 ∧ t.enc.out = []
      ∧ t.enc.level = s.enc.level := by
  obtain ⟨henc, hanswers, hframe⟩ := s.takeConfigError_spec x
  refine ⟨_, exec_encConfigure_error hw h, hanswers, hframe, ?_⟩
  rw [henc]
  exact ⟨rfl, rfl, rfl, rfl, rfl, rfl⟩

/-- Settles O33: the configuration is rejected with the error of the first policy that constructs nothing. -/
theorem encConfigureReportsFirstBadPolicy : Obligations.EncConfigureReportsFirstBadPolicy :=
  fun _ _ _ _ _ hw hc hg hp =>
    exec_encConfigure_rejects hw (acceptConfig_policyError hc hg (constructPolicy_eq_none hp))

/-- Settles O34: the configuration is rejected with the error of the first record with an illegal field. -/
theorem encConfigureReportsFirstBadRecord : Obligations.EncConfigureReportsFirstBadRecord :=
  fun _ _ _ _ _ _ hw hp hc hg hr => exec_encConfigure_rejects hw (acceptConfig_csError hp hc hg hr)

/-! ## ENC_STATUS -/

theorem EncState.total_of_cfg_none {e : EncState} (h : e.cfg = none) : e.total = 0 := by rw [EncState.total, h]

theorem EncState.total_of_cfg_some {e : EncState} {c : EncCfg} (h : e.cfg = some c) : e.total = c.total := by
  rw [EncState.total, h]

/-- Settles O36: `N` is the engine's `EncState.total`. -/
theorem encStatusReport : Obligations.EncStatusReport := fun s =>
  ⟨_, s.enc.total, rfl, s.respond_answers _ _ _, s.respond_frame _ _ _, EncState.total_of_cfg_none,
    fun _ => EncState.total_of_cfg_some⟩

/-! ## The packets of a configuration -/

/-- The bytes that remain to emit at output position `p`, subframe by subframe, each sent from level `L` (R203,
R226). -/
def EncCfg.packetsFrom (c : EncCfg) (o : PackOrder) (L : Bool) (p : Nat) : List (List Byte) :=
  (c.stream.drop p).map fun sf => (encodedSubframe o L sf).1

/-- Every output position holds a subframe (R201). -/
theorem EncCfg.exists_subframeAt {c : EncCfg} {p : Nat} (hp : p < c.total) :
    ∃ sym d, c.subframeAt p = some (sym, d) := by
  obtain ⟨ch, -, h⟩ := EncCfg.subframeAt_spec p (Nat.zero_lt_of_lt hp)
  exact ⟨_, _, h⟩

/-- The stream holds the subframe of every output position, leaving none out. -/
theorem EncCfg.stream_map_some (c : EncCfg) : c.stream.map some = (List.range c.total).map c.subframeAt := by
  rw [EncCfg.stream, List.map_filterMap_some_eq_filter_map_isSome, List.filter_eq_self]
  intro sf hsf
  obtain ⟨p, hp, rfl⟩ := List.mem_map.1 hsf
  obtain ⟨sym, d, h⟩ := EncCfg.exists_subframeAt (List.mem_range.1 hp)
  rw [h, Option.isSome_some]

@[simp] theorem EncCfg.stream_length (c : EncCfg) : c.stream.length = c.total := by
  simpa using congrArg List.length c.stream_map_some

theorem EncCfg.stream_getElem? {c : EncCfg} {p : Nat} (hp : p < c.total) : c.stream[p]? = c.subframeAt p := by
  have h := congrArg (·[p]?) c.stream_map_some
  simp only [List.getElem?_map, List.getElem?_range hp, Option.map_some] at h
  obtain ⟨sf, hsf, hat⟩ := Option.map_eq_some_iff.1 h
  rw [hsf, hat]

section
variable {c : EncCfg} {o : PackOrder} {L : Bool} {p : Nat}

theorem EncCfg.packetsFrom_length : (c.packetsFrom o L p).length = c.total - p := by simp [EncCfg.packetsFrom]

/-- Nothing remains at the end of the stream. -/
theorem EncCfg.packetsFrom_total : c.packetsFrom o L c.total = [] := by simp [EncCfg.packetsFrom]

/-- The first packet that remains is the one at the output position. -/
theorem EncCfg.packetsFrom_cons {sf : Sym × BitSeq} (hp : p < c.total) (hsf : c.subframeAt p = some sf) :
    c.packetsFrom o L p = (encodedSubframe o L sf).1 :: c.packetsFrom o L (p + 1) := by
  rw [EncCfg.packetsFrom, List.drop_eq_getElem?_toList_append, EncCfg.stream_getElem? hp, hsf]
  rfl

theorem EncCfg.packetsFrom_getElem? {sf : Sym × BitSeq} {k : Nat} (hp : p + k < c.total)
    (hsf : c.subframeAt (p + k) = some sf) : (c.packetsFrom o L p)[k]? = some (encodedSubframe o L sf).1 := by
  rw [EncCfg.packetsFrom, List.getElem?_map, List.getElem?_drop, EncCfg.stream_getElem? hp, hsf, Option.map_some]

end

/-! ## ENC_RUN -/

/-- Bytes stored in two parts, one behind the other. -/
theorem Memory.writeBytes_append (m : Memory) (a : Nat) (bs cs : List Byte) :
    m.writeBytes a (bs ++ cs) = (m.writeBytes a bs).writeBytes (a + bs.length) cs := by
  induction bs generalizing m a with
  | nil => rfl
  | cons b bs ih =>
    rw [List.length_cons, ← Nat.add_assoc, Nat.add_right_comm]
    exact ih _ _

/-- The engine at the end of a stream, the packets `bss` stored from output position `p` on (R205). -/
def EncState.sent (e : EncState) (c : EncCfg) (bss : List (List Byte)) : EncState :=
  { e with out := e.out.writeBytes (8 * e.p) bss.flatten, p := c.total, status := .finished }

/-- The engine and the events after the `n` steps that remain: every packet from `p` on, stored and reported (R205).
The status is said as a step leaves it, so that the claim holds at the end of the stream too. -/
theorem EncState.run_emits {P : Params} {c : EncCfg} {n : Nat} {e : EncState} (hc : e.cfg = some c)
    (hst : e.status = if e.p = c.total then .finished else .ready) (hn : e.p + n = c.total) :
    e.run P n = (e.sent c (c.packetsFrom P.packOrder e.level e.p),
      (c.packetsFrom P.packOrder e.level e.p).map .subframeOut) := by
  induction n generalizing e with
  | zero =>
    have hp : e.p = c.total := hn
    rw [if_pos hp] at hst
    rw [EncState.run_of_ne_ready _ (by rw [hst]; nofun), hp, EncCfg.packetsFrom_total, EncState.sent, ← hp, ← hst]
    rfl
  | succ n ih =>
    have hp : e.p < c.total := by omega
    rw [if_neg hp.ne] at hst
    obtain ⟨sym, d, hsf⟩ := EncCfg.exists_subframeAt hp
    rw [EncState.run_succ n hst (EncState.advance_emits hst hc (Nat.zero_lt_of_lt hp) hsf), ih ?cfg ?status ?left,
      EncCfg.packetsFrom_cons hp hsf]
    · simp only [EncState.sent, List.flatten_cons, Memory.writeBytes_append, encodedSubframe, packHalfCells_length,
        Nat.mul_succ, List.map_cons, List.singleton_append]
    case cfg => exact hc
    case status => rfl
    case left => exact (Nat.add_right_comm e.p 1 n).trans hn

/-- `ENC_RUN` while `READY` sends what remains of the stream (R205). -/
theorem EncState.run_ready {P : Params} {c : EncCfg} {e : EncState} (hi : e.statusFits) (hr : e.status = .ready)
    (hc : e.cfg = some c) :
    e.run P (e.total - e.p) = (e.sent c (c.packetsFrom P.packOrder e.level e.p),
      (c.packetsFrom P.packOrder e.level e.p).map .subframeOut) := by
  rw [EncState.statusFits, hr] at hi
  obtain ⟨c', hc', -, hp⟩ := hi
  cases hc.symm.trans hc'
  rw [EncState.total_of_cfg_some hc]
  exact EncState.run_emits hc (by rw [if_neg hp.ne, hr]) (by omega)

/-- `OUT` holds a byte at each offset below `8p` and none from there on (R72). -/
theorem EncState.outFits.readByte_eq_none_iff {e : EncState} (h : e.outFits) (a : Nat) :
    e.out.readByte a = none ↔ 8 * e.p ≤ a := by
  have hl : e.out.length = 8 * e.p := by simpa using congrArg List.length h
  rw [Memory.readByte_stream h, List.getElem?_eq_none_iff, List.length_map, hl]

/-- Settles O37: the run is `EncState.run_ready`, sent from `init_level` by the invariant; `OUT` after it is as long as
the invariant says, and nothing is stored below `8p`. -/
theorem encRunEmitsWholeStream : Obligations.EncRunEmitsWholeStream := by
  intro s c hi hr hc
  obtain ⟨hstatus, -, hcfg, -⟩ := hi.enc
  obtain ⟨hlevel, -⟩ := hcfg c hc
  have hrun := EncState.run_ready (P := s.params) hstatus hr hc
  obtain ⟨-, -, -, hout⟩ := EncState.run_inv (s.enc.total - s.enc.p) hi.enc
  have ht := exec_encRun s
  rw [hrun] at hout ht
  refine ⟨_, ht, rfl, rfl, hlevel, hc, ⟨rfl, rfl, rfl, rfl⟩, rfl, rfl, ?length, fun k hk => ?event,
    hout.readByte_eq_none_iff,
    fun a ha => Memory.readByte_writeBytes_outside _ _ _ _ (.inl ha)⟩
  case length => exact (List.length_map _).trans EncCfg.packetsFrom_length
  case event =>
    obtain ⟨sym, d, hsf⟩ := EncCfg.exists_subframeAt hk
    refine ⟨sym, d, hsf, ?_⟩
    rw [State.respond_resp, List.getElem?_map, EncCfg.packetsFrom_getElem? hk hsf, hlevel]
    rfl

end Sys2Proof.Machine

/-! # Biphase encoder (44_biphase_encoder.md): `BMC_ENCODE`, `PACK`

What a decoder at preamble position does with an encoded subframe; the half-cells of a subframe one by one and the level
after them; the bits of packed bytes, read through unpacking; each with the statements of this family it serves. -/

namespace Sys2Proof.Machine

/-! ## An encoded subframe on a decoder's line -/

/-- A subframe encoded from the level before its preamble: the preamble enters the data part (R260), whose cells are all
recovered before the subframe ends (R254, R256). -/
theorem DecState.feed_subframe {d : DecState} (sym : Sym) {bits : BitSeq} (hm : d.mode = .lockedPreamble)
    (hp : d.pbuf = []) (hl : bits.length = 28) :
    ∃ a, d.feed (bmcEncode sym bits d.pl).1 = endSubframe { enterData sym { d with pbuf := pat sym d.pl } with
      a := a, prev := (bmcEncode sym bits d.pl).2, cell := 28, data := ofSeq 28 bits, chk := BitVec.allOnes 28 } := by
  obtain ⟨a, ha⟩ := DecState.feed_dataPart
    (d := { enterData sym { d with pbuf := pat sym d.pl } with prev := d.pl }) hl rfl rfl rfl
  refine ⟨a, ?_⟩
  rw [bmcEncode_eq, DecState.feed_append, DecState.feed_pat_of_level sym hm hp, ha, List.nil_append]

section
variable {d : DecState} {r : DecState × List Event} (h : endSubframe d = r) (hx : xorAll (toSeq d.data) = false)
include h hx

/-- The end of a subframe of even parity leaves what was decoded, and every count of errors (R258). -/
theorem endSubframe_of_even_keeps :
    r.1.data = d.data ∧ r.1.chk = d.chk ∧ r.1.sym = d.sym ∧ r.1.prev = d.prev ∧ r.1.started = d.started
      ∧ r.1.frame = d.frame ∧ r.1.fatalReason = d.fatalReason ∧ r.1.nMissing = d.nMissing
      ∧ r.1.nMismatch = d.nMismatch := by
  subst h
  rw [endSubframe_of_even hx]
  exact ⟨rfl, rfl, rfl, rfl, rfl, rfl, rfl, rfl, rfl⟩

/-- It is reported, and the decoder is in `DONE`, also reported, or at the next preamble position (R258). -/
theorem endSubframe_of_even_next :
    r.2 = (if d.started then .subframe (descriptor d.frame d.sym d.data d.chk) (fieldsOf d.data)
        else .discard (fieldsOf d.data)) :: (if r.1.mode = .done then [.done] else [])
      ∧ (r.1.mode = .done ∨ r.1.mode = .lockedPreamble ∧ r.1.pbuf = [] ∧ r.1.pl = d.prev) := by
  subst h
  rw [endSubframe_of_even hx]
  by_cases hquiet : 192 ≤ zeroRun d.zero0 d.ch (fieldsOf d.data).c <;> simp [hquiet]

end

/-- The packed bytes of 64 half-cells put those half-cells on a decoder's line (R227, R264). -/
theorem exec_decFeedBytes_packHalfCells (s : State) (n : Nat) {h : BitSeq} (hl : h.length = 64) :
    exec (.decFeedBytes n (packHalfCells s.params.packOrder h)) s = .next (s.feedDec n h) := by
  simp only [exec, execDecFeedBytes, unpack_packHalfCells _ hl]

/-- Settles O59: the bytes put the subframe's half-cells on the line, `DecState.feed_subframe` recovers them, and the
subframe ends as one of even parity, at the level it began (`bmcEncode_level`). -/
theorem encodedSubframeIsRecovered : Obligations.EncodedSubframeIsRecovered := by
  intro s n sym d L hm hp hl hpar started frame f
  subst hl
  have heven : xorAll (toSeq d) = false := (xorAll_eq_false_iff _).2 hpar
  obtain ⟨a, hfeed⟩ := DecState.feed_subframe sym hm hp (toSeq_length d)
  rw [ofSeq_toSeq, bmcEncode_level sym _ (toSeq_length d) heven, enterData_eq] at hfeed
  obtain ⟨hdata, hchk, hsym, hprev, hstarted, hframe, hfatal, hmissing, hmismatch⟩ :=
    endSubframe_of_even_keeps hfeed.symm heven
  obtain ⟨hevents, hnext⟩ := endSubframe_of_even_next hfeed.symm heven
  rw [fieldsOf_eq] at hevents
  obtain ⟨hdec, ⟨hresp, -⟩, hothers⟩ := s.feedDec_spec n (bmcEncode sym (toSeq d) (s.dec n).pl).1
  refine ⟨_, exec_decFeedBytes_packHalfCells s n (by simp), hothers, ?_⟩
  rw [hdec, hresp]
  exact ⟨hdata, hchk, hsym, hprev, hstarted, hframe, hfatal, hmissing, hmismatch, hevents, hnext⟩

/-! ## The half-cells of a subframe -/

/-- The two half-cells of data bit `c`, the level before the cells in front: the first is the complement of the
half-cell before it, the second differs from it exactly when the bit is 1 (R220). -/
theorem encodeCells_cell (L : Bool) {bits : BitSeq} {c : Nat} (hc : c < bits.length) :
    (L :: (encodeCells L bits).1).getD (2 * c + 1) false = !(L :: (encodeCells L bits).1).getD (2 * c) false
      ∧ (L :: (encodeCells L bits).1).getD (2 * c + 2) false
        = ((L :: (encodeCells L bits).1).getD (2 * c + 1) false ^^ bits.getD c false) := by
  induction bits generalizing L c with
  | nil => exact absurd hc (Nat.not_lt_zero c)
  | cons b bits ih =>
    cases c with
    | zero => exact ⟨rfl, rfl⟩
    | succ c => exact ih (cellOf L b).2 (Nat.lt_of_succ_lt_succ hc)

/-- The level after the data cells is their last half-cell (R223). -/
theorem encodeCells_last (L : Bool) (bits : BitSeq) :
    (L :: (encodeCells L bits).1).getD (2 * bits.length) false = (encodeCells L bits).2 := by
  rw [List.getD_eq_getElem?_getD, (encodeCells_boundary L bits).2, Option.getD_some]

section
variable (sym : Sym) (d : DataBits) (L : Bool)

/-- The word of half-cells begins with the preamble pattern (R223). -/
theorem toSeq_bmcWord : toSeq (ofSeq 64 (bmcEncode sym (toSeq d) L).1) = pat sym L ++ (encodeCells L (toSeq d)).1 := by
  rw [toSeq_ofSeq (by simp), bmcEncode_eq]

/-- From half-cell 7 on stand the level the pattern ends at and the data cells after it (R222, R223). -/
theorem getLsbD_bmcWord {k : Nat} (hk : k < 57) : (ofSeq 64 (bmcEncode sym (toSeq d) L).1).getLsbD (7 + k)
    = (L :: (encodeCells L (toSeq d)).1).getD k false := by
  obtain ⟨init, hinit⟩ := List.getLast?_eq_some_iff.1 (pat_ends sym L).2
  have hlen : init.length = 7 := by simpa using (congrArg List.length hinit).symm
  rw [← getD_toSeq _ (by omega), toSeq_bmcWord, hinit, List.append_assoc]
  exact getD_last_part (by rw [hlen])

/-- `BMC_ENCODE`, in terms of the half-cells and the level after them (R223). -/
theorem exec_bmcEncode_spec (s : State) :
    ∃ t, exec (.bmcEncode sym d L) s = .next t
      ∧ answers s t .enc (.halfCells (ofSeq 64 (bmcEncode sym (toSeq d) L).1) (bmcEncode sym (toSeq d) L).2) []
      ∧ sameRegisters s t :=
  ⟨_, rfl, s.respond_answers _ _ _, s.respond_frame _ _ _⟩

/-- The level after a subframe: the one before it, inverted once for each 1 bit (R226). -/
theorem bmcEncode_level_eq_xor : (bmcEncode sym (toSeq d) L).2 = (L ^^ xorAll (toSeq d)) := by
  rw [bmcEncode_eq, encodeCells_level, toSeq_length]
  simp

end

/-- Settles O28: the word is the pattern (`toSeq_bmcWord`), then the cells (`getLsbD_bmcWord`) bit by bit
(`encodeCells_cell`), which end at the level answered (`encodeCells_last`). -/
theorem bmcEncodeHalfCells : Obligations.BmcEncodeHalfCells := by
  intro s sym d L
  obtain ⟨t, ht, hanswers, hframe⟩ := exec_bmcEncode_spec sym d L s
  refine ⟨t, _, _, ht, hanswers, hframe, ?pattern, ?first, getLsbD_bmcWord sym d L (k := 0) (by omega),
    fun c hc => ?cell, ?last⟩
  case pattern => rw [toSeq_bmcWord, List.take_left' (pat_length sym L)]
  case first =>
    rw [← getD_toSeq _ (by omega), toSeq_bmcWord, List.getD_append _ _ _ _ (by simp), List.getD_eq_getElem?_getD,
      (pat_run sym L).1, Option.getD_some]
  case cell =>
    obtain ⟨hboundary, hmid⟩ := encodeCells_cell L (show c < (toSeq d).length by simpa using hc)
    rw [getD_toSeq d hc] at hmid
    rw [show 8 + 2 * c = 7 + (2 * c + 1) by omega, show 9 + 2 * c = 7 + (2 * c + 2) by omega,
      getLsbD_bmcWord sym d L (by omega), getLsbD_bmcWord sym d L (by omega), getLsbD_bmcWord sym d L (by omega)]
    exact ⟨hboundary, hmid⟩
  case last =>
    calc (bmcEncode sym (toSeq d) L).2
      _ = (encodeCells L (toSeq d)).2 := by rw [bmcEncode_eq]
      _ = (L :: (encodeCells L (toSeq d)).1).getD 56 false := by rw [← encodeCells_last, toSeq_length]
      _ = _ := (getLsbD_bmcWord sym d L (by omega)).symm

/-- Settles O29: `bmcEncode_level_eq_xor`, with the exclusive or read as a population count. -/
theorem levelInvariance : Obligations.LevelInvariance := by
  intro s sym d L
  obtain ⟨t, ht, hanswers, -⟩ := exec_bmcEncode_spec sym d L s
  refine ⟨t, _, _, ht, hanswers, fun heven => ?_, fun hodd => ?_⟩
  · rw [bmcEncode_level_eq_xor, (xorAll_eq_false_iff _).2 heven, Bool.xor_false]
  · rw [bmcEncode_level_eq_xor, xorAll_eq_popcount_odd, hodd]
    simp

/-! ## Packed bytes -/

/-- With `lsb_first` a byte is unpacked from bit 0 up (R227). -/
theorem unpackByte_lsbFirst_getElem? (b : Byte) {k : Nat} (hk : k < 8) :
    (unpackByte .lsbFirst b)[k]? = some (b.getLsbD k) := by
  rw [unpackByte, toSeq_getElem?, if_pos hk]

/-- With `msb_first` a byte is unpacked from bit 7 down (R227). -/
theorem unpackByte_msbFirst_getElem? (b : Byte) {k : Nat} (hk : k < 8) :
    (unpackByte .msbFirst b)[k]? = some (b.getLsbD (7 - k)) := by
  rw [unpackByte, List.getElem?_reverse (by simpa using hk), toSeq_length, toSeq_getElem?, if_pos (by omega)]

/-- The packed byte `n` is unpacked to half-cells `8n` to `8n + 7` (R225, R227). -/
theorem unpackByte_of_packed {o : PackOrder} {h : BitVec 64} {n : Nat} {b : Byte}
    (hb : (packHalfCells o (toSeq h))[n]? = some b) {k : Nat} (hk : k < 8) :
    (unpackByte o b)[k]? = some (h.getLsbD (8 * n + k)) := by
  obtain ⟨hn, -⟩ := List.getElem?_eq_some_iff.1 hb
  rw [packHalfCells_length] at hn
  rw [packHalfCells, List.getElem?_map, List.getElem?_range hn, Option.map_some, Option.some.injEq] at hb
  rw [← hb, unpackByte_packByte o (by simp; omega), List.getElem?_take_of_lt hk, List.getElem?_drop, toSeq_getElem?,
    if_pos (by omega)]

/-- `PACK`, in terms of the packed bytes (R225). -/
theorem exec_pack_spec (s : State) (h : BitVec 64) :
    ∃ t, exec (.pack h) s = .next t
      ∧ answers s t .enc (.bytes (packHalfCells s.params.packOrder (toSeq h))) [] ∧ sameRegisters s t :=
  ⟨_, rfl, s.respond_answers _ _ _, s.respond_frame _ _ _⟩

/-- Settles O30: byte `n` unpacks to its half-cells (`unpackByte_of_packed`), so it holds them where unpacking in the
order set finds them. -/
theorem packBytes : Obligations.PackBytes := by
  intro s h
  obtain ⟨t, ht, hanswers, hframe⟩ := exec_pack_spec s h
  refine ⟨t, _, ht, hanswers, hframe, packHalfCells_length _ _, fun n b hb k hk => ?_⟩
  have hunpack := unpackByte_of_packed hb hk
  refine ⟨fun horder => ?lsbFirst, fun horder => ?msbFirst⟩
  case lsbFirst =>
    rw [horder, unpackByte_lsbFirst_getElem? b hk] at hunpack
    exact Option.some.inj hunpack
  case msbFirst =>
    rw [horder, unpackByte_msbFirst_getElem? b hk] at hunpack
    exact Option.some.inj hunpack

/-- Settles O31: unpacking is read bit by bit, and the packed bytes unpack to the half-cells they were made from. -/
theorem unpackInvertsPack : Obligations.UnpackInvertsPack := by
  refine ⟨fun b k hk => ⟨unpackByte_lsbFirst_getElem? b hk, unpackByte_msbFirst_getElem? b hk⟩, fun s n h => ?_⟩
  obtain ⟨t, ht, hanswers, -⟩ := exec_pack_spec s h
  exact ⟨t, _, ht, hanswers, unpack_packHalfCells _ (toSeq_length h),
    exec_decFeedBytes_packHalfCells s n (toSeq_length h)⟩

end Sys2Proof.Machine

/-! # Biphase decoder (45_biphase_decoder.md): one half-cell, mode by mode; the whole stream of an encoder

What a half-cell does in `SEARCHING`, in a data cell and at preamble position; then the subframes of a stream without
rotation, what the first of them leave in a decoder, and the round trip through `ENC_RUN` (R274). -/

namespace Sys2Proof.Machine

/-! ## One half-cell -/

/-- A window that is a pattern acquires (R246). -/
theorem search_of_pattern {d : DecState} {h : Bool} {sym : Sym} {L : Bool}
    (hw : lastEight (d.win ++ [h]) = pat sym L) : search d h = acquire sym h { d with win := pat sym L } := by
  simp only [search, hw, symOfWindow_eq_some.2 ⟨L, rfl⟩]

/-- Settles O40: the window is a pattern (`search_of_pattern`) or none (`search_of_no_pattern`). -/
theorem searchingHalfCell : Obligations.SearchingHalfCell := by
  intro s n h hm d win
  obtain ⟨t, ht, hdec, hanswers, hframe⟩ := exec_decAdvance_spec s n h
  rw [DecState.advance_searching h hm] at hdec hanswers
  refine ⟨fun hnone => ?noPattern, fun sym L hwin => ?pattern⟩
  case noPattern =>
    rw [search_of_no_pattern (symOfWindow_eq_none.2 hnone)] at hdec hanswers
    exact ⟨t, ht, hanswers, hframe, hdec⟩
  case pattern =>
    rw [search_of_pattern hwin, acquire_eq, ← hwin] at hdec hanswers
    exact ⟨t, ht, hanswers, hframe, hdec⟩

/-- Settles O41: the two branches of `firstHalf`. -/
theorem firstHalfCellOfDataCell : Obligations.FirstHalfCellOfDataCell := by
  intro s n h hm hh d
  obtain ⟨t, ht, hdec, hanswers, hframe⟩ := exec_decAdvance_spec s n h
  rw [DecState.advance_first h hm hh, firstHalf] at hdec hanswers
  refine ⟨fun hne => ?boundary, fun heq => ?missing⟩
  case boundary =>
    rw [if_neg hne] at hdec hanswers
    refine ⟨t, ht, hanswers, hframe, by rw [hdec], fun k hk => ?_⟩
    rw [hdec]
    exact getLsbD_setBit _ _ _ _ hk
  case missing =>
    rw [if_pos heq] at hdec hanswers
    exact ⟨t, ht, hanswers, hframe, hdec⟩

/-- Settles O42: before the last cell the bit is set and nothing ends, `secondHalf_of_lt`. -/
theorem secondHalfCellOfDataCell : Obligations.SecondHalfCellOfDataCell := by
  intro s n h hm hh hc d
  obtain ⟨t, ht, hdec, hanswers, hframe⟩ := exec_decAdvance_spec s n h
  rw [DecState.advance_second h hm hh, secondHalf_of_lt h hc] at hdec hanswers
  refine ⟨t, ht, hanswers, hframe, by rw [hdec], fun k hk => ?_⟩
  rw [hdec]
  exact getLsbD_setBit _ _ _ _ hk

section
variable {d : DecState} {h : Bool}

/-- At preamble position, a half-cell that is not the eighth is only collected (R260). -/
theorem preambleHalfCell_of_length_ne (hl : (d.pbuf ++ [h]).length ≠ 8) :
    preambleHalfCell d h = ({ d with pbuf := d.pbuf ++ [h] }, []) := by
  simp only [preambleHalfCell, Config.preHalf, if_neg hl]

/-- The eighth half-cell, which completes the pattern of a symbol after the level before it (R260). -/
theorem preambleHalfCell_of_pattern {sym : Sym} (hp : d.pbuf ++ [h] = pat sym d.pl) :
    preambleHalfCell d h = ({ enterData sym { d with pbuf := d.pbuf ++ [h] } with prev := h }, []) := by
  have hl : (d.pbuf ++ [h]).length = 8 := by rw [hp, pat_length]
  simp only [preambleHalfCell, Config.preHalf, if_pos hl, symAfter_eq_some.2 hp]

/-- The eighth half-cell, which completes no pattern (R260, R305). -/
theorem preambleHalfCell_of_no_pattern (hl : (d.pbuf ++ [h]).length = 8) (hp : ∀ sym, d.pbuf ++ [h] ≠ pat sym d.pl) :
    preambleHalfCell d h = ({ d with pbuf := d.pbuf ++ [h], mode := .fatal, fatalReason := some .unrecognizedPreamble },
      [.unrecognizedPreamble (d.pbuf ++ [h])]) := by
  simp only [preambleHalfCell, Config.preHalf, if_pos hl, symAfter_eq_none.2 hp]
  rfl

end

/-- Settles O45: the three cases of `preambleHalfCell`. -/
theorem preamblePositionHalfCell : Obligations.PreamblePositionHalfCell := by
  intro s n h hm d pbuf
  obtain ⟨t, ht, hdec, hanswers, hframe⟩ := exec_decAdvance_spec s n h
  rw [DecState.advance_preamble h hm] at hdec hanswers
  refine ⟨fun hl => ?collected, fun sym hl hp => ?enters, fun hl hp => ?fatal⟩
  case collected =>
    rw [preambleHalfCell_of_length_ne hl] at hdec hanswers
    exact ⟨t, ht, hanswers, hframe, hdec⟩
  case enters =>
    rw [preambleHalfCell_of_pattern hp, enterData_eq] at hdec hanswers
    exact ⟨t, ht, hanswers, hframe, hdec⟩
  case fatal =>
    rw [preambleHalfCell_of_no_pattern hl hp] at hdec hanswers
    exact ⟨t, ht, hanswers, hframe, hdec⟩

/-! ## The stream without rotation -/

/-- With no rotation, output position and index agree (R37, R204). -/
theorem EncCfg.index_of_no_rotation {c : EncCfg} {q : Nat} (hk : c.qs % c.total = 0) (hq : q < c.total) :
    c.index q = q := by
  have hrotation : c.rotation = 0 := by rw [EncCfg.rotation, hk, ite_self]
  rw [EncCfg.index, hrotation, Nat.sub_zero, Nat.add_mod_right, Nat.mod_eq_of_lt hq]

/-- With no rotation, subframe `q` is that of frame `q / nch` and channel `q mod nch` (R201). -/
theorem EncCfg.subframeAt_of_no_rotation {c : EncCfg} {q : Nat} (hk : c.qs % c.total = 0) (hq : q < c.total) :
    ∃ ch, c.channels[q % c.nch]? = some ch
      ∧ c.subframeAt q = some (preSelect (q / c.nch) (q % c.nch), subframeBits ch (q / c.nch)) := by
  have h := EncCfg.subframeAt_spec q (Nat.zero_lt_of_lt hq)
  rwa [EncCfg.index_of_no_rotation hk hq] at h

/-- The stream begins with a Z (R200). -/
theorem preSelect_first (c : EncCfg) : preSelect (0 / c.nch) (0 % c.nch) = .z := by simp [preSelect_eq_z_iff]

/-- The fields a decoder reads from the data bits of a subframe are those that were sent (R102, R180 to R182). -/
theorem fieldsOf_subframeWord (ch : Channel) (j : Nat) : fieldsOf (ofSeq 28 (subframeBits ch j)) =
    { sample := (sampleAt ch.policy ch.seed j).getD 0, v := ch.v, u := ch.u, c := ch.cs.getLsbD (j % 192)
      p := (ofSeq 28 (subframeBits ch j)).getLsbD 27 } := by
  have hsample : (ofSeq 28 (subframeBits ch j)).setWidth 24 = (sampleAt ch.policy ch.seed j).getD 0 :=
    BitVec.eq_of_getLsbD_eq fun k hk => by
      rw [BitVec.getLsbD_setWidth, decide_eq_true hk, Bool.true_and, subframeWord_sample ch j hk]
  rw [fieldsOf_eq, hsample, subframeWord_flags ch j (k := 0) (by omega), subframeWord_flags ch j (k := 1) (by omega),
    subframeWord_flags ch j (k := 2) (by omega)]
  rfl

/-- The report of subframe `q` of the stream, every boundary transition found (R108, R258). -/
def EncCfg.subframeReport (c : EncCfg) (q : Nat) (sf : Sym × BitSeq) : Event :=
  .subframe (descriptor (q / c.nch) sf.1 (ofSeq 28 sf.2) (BitVec.allOnes 28)) (fieldsOf (ofSeq 28 sf.2))

/-- The reports of the subframes `sfs`, numbered from `q` on. -/
def EncCfg.reportsFrom (c : EncCfg) (q : Nat) (sfs : List (Sym × BitSeq)) : List Event :=
  (sfs.zipIdx q).map fun e => c.subframeReport e.2 e.1

/-- The subframe the rest of the stream begins with stands at its output position. -/
theorem EncCfg.stream_drop_eq_cons {c : EncCfg} {q : Nat} {sf : Sym × BitSeq} {sfs : List (Sym × BitSeq)}
    (h : c.stream.drop q = sf :: sfs) : q < c.total ∧ c.subframeAt q = some sf ∧ c.stream.drop (q + 1) = sfs := by
  have hq : q < c.stream.length := by
    by_contra hle
    rw [List.drop_of_length_le (not_lt.1 hle)] at h
    cases h
  rw [List.drop_eq_getElem_cons hq] at h
  obtain ⟨rfl, hrest⟩ := List.cons.inj h
  rw [c.stream_length] at hq
  exact ⟨hq, by rw [← EncCfg.stream_getElem? hq, List.getElem?_eq_getElem], hrest⟩

theorem EncCfg.reportsFrom_length (c : EncCfg) (q : Nat) (sfs : List (Sym × BitSeq)) :
    (c.reportsFrom q sfs).length = sfs.length := by simp [EncCfg.reportsFrom]

/-- With no rotation, report `q` of the stream is of the frame and the channel of subframe `q`, with the fields sent. -/
theorem EncCfg.reportsFrom_getElem? {c : EncCfg} {q : Nat} (hk : c.qs % c.total = 0) (hq : q < c.total) :
    ∃ ch d, c.channels[q % c.nch]? = some ch ∧ d = ofSeq 28 (subframeBits ch (q / c.nch))
      ∧ (c.reportsFrom 0 c.stream)[q]? = some (.subframe
          (descriptor (q / c.nch) (preSelect (q / c.nch) (q % c.nch)) d (BitVec.allOnes 28))
          { sample := (sampleAt ch.policy ch.seed (q / c.nch)).getD 0, v := ch.v, u := ch.u
            c := ch.cs.getLsbD (q / c.nch % 192), p := d.getLsbD 27 }) := by
  obtain ⟨ch, hch, hat⟩ := EncCfg.subframeAt_of_no_rotation hk hq
  refine ⟨ch, _, hch, rfl, ?_⟩
  rw [EncCfg.reportsFrom, List.getElem?_map, List.getElem?_zipIdx, EncCfg.stream_getElem? hq, hat, Option.map_some,
    Option.map_some, Nat.zero_add, EncCfg.subframeReport, fieldsOf_subframeWord]

/-! ## The all-zero run -/

/-- How many frames the first `q` subframes have begun: the subframes of channel 0 among them. -/
def EncCfg.framesBegun (c : EncCfg) : Nat → Nat
  | 0 => 0
  | q + 1 => q / c.nch + 1

/-- Before a subframe of channel 0 its frame has not begun; before any other it has. -/
theorem EncCfg.framesBegun_eq (c : EncCfg) (q : Nat) :
    c.framesBegun q = if q % c.nch = 0 then q / c.nch else q / c.nch + 1 := by
  cases q with
  | zero => simp [EncCfg.framesBegun]
  | succ q =>
    split
    · next h => rw [EncCfg.framesBegun, Nat.succ_div_of_mod_eq_zero h]
    · next h => rw [EncCfg.framesBegun, Nat.succ_div_of_mod_ne_zero h]

/-- The all-zero run is no longer than the frames since C bit `b` of channel 0 was last due, when that bit is 1: its
subframe ends the run, and every other lengthens both by one at most (R258, R276). -/
theorem zeroRun_le {c : EncCfg} {q z b : Nat} {x : Bool} (hb : b < 192)
    (hz : z ≤ (c.framesBegun q + 191 - b) % 192) (hx : q % c.nch = 0 → q / c.nch % 192 = b → x = true) :
    zeroRun z (q % c.nch) x ≤ (c.framesBegun (q + 1) + 191 - b) % 192 := by
  rw [EncCfg.framesBegun_eq] at hz
  rw [EncCfg.framesBegun, zeroRun]
  by_cases h0 : q % c.nch = 0
  · rw [if_pos h0] at hz ⊢
    cases x with
    | true => exact Nat.zero_le _
    | false =>
      have hne : q / c.nch % 192 ≠ b := fun h => Bool.false_ne_true (hx h0 h)
      simp only [Bool.false_eq_true, if_false]
      generalize q / c.nch = j at hz hne ⊢
      omega
  · rw [if_neg h0] at hz ⊢
    exact hz

/-! ## The blocks in `cs_rx` -/

/-- Reading an entry of `cs_rx` after one was recorded (R53, R256). -/
theorem csRxRead_csRxWrite (m : List (Nat × Bool)) {i k i' k' : Nat} (x : Bool) (hk : k < 192) (hk' : k' < 192) :
    csRxRead (csRxWrite m i k x) i' k' = if i' = i ∧ k' = k then some x else csRxRead m i' k' := by
  unfold csRxRead csRxWrite
  split
  · next h => rw [h.1, h.2, storeGet_put_same]
  · next h => exact storeGet_put_other m x (by simp only [csRxKey, Config.blockFrames]; omega)

/-- `cs_rx` holds the C bits of those of the first `q` subframes that are in the first block (R182, R256). -/
def EncCfg.BlocksHeld (c : EncCfg) (q : Nat) (m : List (Nat × Bool)) : Prop :=
  ∀ (i k : Nat) (ch : Channel), c.channels[i]? = some ch → k < 192 → k * c.nch + i < q →
    csRxRead m i k = some (ch.cs.getLsbD k)

/-- Recording the C bit of subframe `q` overwrites a bit by itself, or adds the one subframe `q` has in the first
block. -/
theorem EncCfg.BlocksHeld.write {c : EncCfg} {q : Nat} {m : List (Nat × Bool)} {ch : Channel} (h : c.BlocksHeld q m)
    (hch : c.channels[q % c.nch]? = some ch) :
    c.BlocksHeld (q + 1) (csRxWrite m (q % c.nch) (q / c.nch % 192) (ch.cs.getLsbD (q / c.nch % 192))) := by
  intro i k ch' hi hk hlt
  rw [csRxRead_csRxWrite _ _ (Nat.mod_lt _ (by omega)) hk]
  split
  · next heq =>
    obtain ⟨rfl, rfl⟩ := heq
    cases hi.symm.trans hch
    rfl
  · next hne =>
    have hin : i < c.nch := (List.getElem?_eq_some_iff.1 hi).1
    refine h i k ch' hi hk (Nat.lt_of_le_of_ne (Nat.le_of_lt_succ hlt) fun heq => hne ?_)
    rw [← heq, Nat.mul_comm, Nat.mul_add_mod, Nat.mul_add_div (Nat.zero_lt_of_lt hin), Nat.mod_eq_of_lt hin,
      Nat.div_eq_of_lt hin, Nat.add_zero, Nat.mod_eq_of_lt hk]
    exact ⟨rfl, rfl⟩

/-- A stream that is not empty has a whole block of every channel. -/
theorem EncCfg.BlocksHeld.all {c : EncCfg} {m : List (Nat × Bool)} (h : c.BlocksHeld c.total m) (ht : 0 < c.total)
    {i k : Nat} {ch : Channel} (hi : c.channels[i]? = some ch) (hk : k < 192) :
    csRxRead m i k = some (ch.cs.getLsbD k) := by
  have hin : i < c.nch := (List.getElem?_eq_some_iff.1 hi).1
  have hblocks : 0 < c.nblocks := Nat.pos_of_mul_pos_left (Nat.pos_of_mul_pos_right ht)
  refine h i k ch hi hk ?_
  calc k * c.nch + i
    _ < (k + 1) * c.nch := by rw [Nat.succ_mul]; omega
    _ ≤ 192 * c.nblocks * c.nch := Nat.mul_le_mul_right _ (by omega)

/-! ## A decoder on the stream -/

/-- What the first `q` subframes of the stream leave in a decoder: no error, their C bits, and an all-zero run that C
bit `b` of channel 0 keeps short. -/
structure DecState.Recovered (d : DecState) (c : EncCfg) (b q : Nat) : Prop where
  fatalReason : d.fatalReason = none
  nMissing : d.nMissing = 0
  nMismatch : d.nMismatch = 0
  csRx : c.BlocksHeld q d.csRx
  zero0 : d.zero0 ≤ (c.framesBegun q + 191 - b) % 192

/-- The decoder when every cell of subframe `q`, of the channel `ch`, is received and the subframe is about to end
(R256). -/
structure DecState.AtEnd (d : DecState) (c : EncCfg) (b q : Nat) (ch : Channel) : Prop extends d.Recovered c b q where
  prev : d.prev = c.initLevel
  sym : d.sym = preSelect (q / c.nch) (q % c.nch)
  data : d.data = ofSeq 28 (subframeBits ch (q / c.nch))
  chk : d.chk = BitVec.allOnes 28
  started : d.started = true
  ch : d.ch = q % c.nch
  frame : d.frame = q / c.nch

/-- The decoder after subframe `q`, at preamble position. -/
structure DecState.AfterSubframe (d : DecState) (c : EncCfg) (b q : Nat) : Prop extends d.Recovered c b (q + 1) where
  mode : d.mode = .lockedPreamble
  pbuf : d.pbuf = []
  pl : d.pl = c.initLevel
  cont : d.cont = true
  started : d.started = true
  ch : d.ch = q % c.nch
  frame : d.frame = q / c.nch

/-- Feeding in two parts: the second decoder is the first after the first part (R264). -/
theorem DecState.feed_append_of_feed {d d' d'' : DecState} {hs ks : BitSeq} {es es' : List Event}
    (h : d.feed hs = (d', es)) (h' : d'.feed ks = (d'', es')) : d.feed (hs ++ ks) = (d'', es ++ es') := by
  rw [DecState.feed_append, h, h']

/-- A subframe encoded from any level, given to an empty window: the window acquires on the preamble (R246), and the
cells are all recovered before the subframe ends (R254, R256). -/
theorem DecState.feed_subframe_of_empty_window {d : DecState} (sym : Sym) (L : Bool) {bits : BitSeq}
    (hm : d.mode = .searching) (hw : d.win = []) (hl : bits.length = 28) :
    ∃ a, d.feed (bmcEncode sym bits L).1 =
      let e := endSubframe { (acquire sym L { d with win := pat sym L }).1 with
        a := a, prev := (bmcEncode sym bits L).2, cell := 28, data := ofSeq 28 bits, chk := BitVec.allOnes 28 }
      (e.1, .lock sym :: e.2) := by
  have hpat := DecState.feed_pat_of_empty_window sym L hm hw
  rw [acquire_eq] at hpat ⊢
  obtain ⟨a, ha⟩ := DecState.feed_dataPart (d := (d.feed (pat sym L)).1) hl (by rw [hpat]) (by rw [hpat])
    (by rw [hpat])
  refine ⟨a, ?_⟩
  rw [hpat] at ha
  rw [bmcEncode_eq, DecState.feed_append, hpat, ha]
  rfl

/-- The channel index after a preamble of the stream (R200, R248). -/
theorem channel_after_preSelect (c : EncCfg) (q : Nat) :
    (if preSelect ((q + 1) / c.nch) ((q + 1) % c.nch) = .y then q % c.nch + 1 else 0) = (q + 1) % c.nch := by
  simp only [preSelect_eq_y_iff, Nat.one_le_iff_ne_zero]
  split
  · next h =>
    have hq := Nat.div_add_mod q c.nch
    have hq' := Nat.div_add_mod (q + 1) c.nch
    rw [Nat.succ_div_of_mod_ne_zero h] at hq'
    omega
  · next h => exact (not_not.1 h).symm

/-- The frame index after a preamble of the stream (R200, R249). -/
theorem frame_after_preSelect (c : EncCfg) (q : Nat) :
    (if preSelect ((q + 1) / c.nch) ((q + 1) % c.nch) ≠ .y then q / c.nch + 1 else q / c.nch) = (q + 1) / c.nch := by
  simp only [ne_eq, preSelect_eq_y_iff, Nat.one_le_iff_ne_zero, not_not]
  split
  · next h => exact (Nat.succ_div_of_mod_eq_zero h).symm
  · next h => exact (Nat.succ_div_of_mod_ne_zero h).symm

section
variable {c : EncCfg} {b : Nat} (hb : b < 192) (hbit : ∀ ch, c.channels[0]? = some ch → ch.cs.getLsbD b = true)
include hb hbit

/-- Subframe `q` ends: its parity is even (R185), it is reported, and bit `b` of channel 0 has kept the all-zero run
from ending the stream (R258). -/
theorem DecState.AtEnd.reported {d : DecState} {q : Nat} {ch : Channel} (h : d.AtEnd c b q ch)
    (hch : c.channels[q % c.nch]? = some ch) :
    (endSubframe d).2 = [c.subframeReport q (preSelect (q / c.nch) (q % c.nch), subframeBits ch (q / c.nch))]
      ∧ (endSubframe d).1.AfterSubframe c b q := by
  have heven : xorAll (toSeq d.data) = false := by rw [h.data, toSeq_subframeWord, xorAll_subframeBits]
  have hc : (fieldsOf (ofSeq 28 (subframeBits ch (q / c.nch)))).c = ch.cs.getLsbD (q / c.nch % 192) := by
    rw [fieldsOf_subframeWord]
  have hz : zeroRun d.zero0 (q % c.nch) (ch.cs.getLsbD (q / c.nch % 192)) ≤ (c.framesBegun (q + 1) + 191 - b) % 192 :=
    zeroRun_le hb h.zero0 fun h0 hk => hk ▸ hbit ch (h0 ▸ hch)
  have hquiet : ¬192 ≤ zeroRun d.zero0 (q % c.nch) (ch.cs.getLsbD (q / c.nch % 192)) := by omega
  rw [endSubframe_of_even heven]
  simp only [h.ch, h.frame, h.started, h.prev, h.data, h.chk, h.sym, hc, hquiet, if_true, if_false]
  exact ⟨rfl, ⟨h.fatalReason, h.nMissing, h.nMismatch, h.csRx.write hch, hz⟩, rfl, rfl, rfl, rfl, rfl, rfl, rfl⟩

variable (hk : c.qs % c.total = 0)
include hk

/-- After subframe `q`, the half-cells of the next are received and reported. -/
theorem DecState.AfterSubframe.feed_next {d : DecState} {q : Nat} {sf : Sym × BitSeq} (h : d.AfterSubframe c b q)
    (hq : q + 1 < c.total) (hsf : c.subframeAt (q + 1) = some sf) :
    ∃ d', d.feed (bmcEncode sf.1 sf.2 c.initLevel).1 = (d', [c.subframeReport (q + 1) sf])
      ∧ d'.AfterSubframe c b (q + 1) := by
  obtain ⟨ch, hch, hat⟩ := EncCfg.subframeAt_of_no_rotation hk hq
  cases hsf.symm.trans hat
  obtain ⟨a, ha⟩ := DecState.feed_subframe (preSelect ((q + 1) / c.nch) ((q + 1) % c.nch)) h.mode h.pbuf
    (subframeBits_length ch ((q + 1) / c.nch))
  rw [h.pl, bmcEncode_level _ _ (subframeBits_length _ _) (xorAll_subframeBits _ _), enterData_eq] at ha
  rw [ha]
  refine ⟨_, congrArg (_, ·) (DecState.AtEnd.reported hb hbit ?atEnd hch).1,
    (DecState.AtEnd.reported hb hbit ?atEnd hch).2⟩
  refine ⟨⟨h.fatalReason, h.nMissing, h.nMismatch, h.csRx, h.zero0⟩, rfl, rfl, rfl, rfl, ?started, ?ch, ?frame⟩
  case started => simp [h.started]
  case ch => simpa [h.cont, h.ch] using channel_after_preSelect c q
  case frame => simpa [h.started, h.frame] using frame_after_preSelect c q

/-- The half-cells of subframe 0, given to a decoder in `SEARCHING` with an empty window: it locks on the Z (R246),
then the subframe is received and reported. -/
theorem DecState.Recovered.feed_first {d : DecState} {sf : Sym × BitSeq} (h : d.Recovered c b 0)
    (hm : d.mode = .searching) (hw : d.win = []) (ht : 0 < c.total) (hsf : c.subframeAt 0 = some sf) :
    ∃ d', d.feed (bmcEncode sf.1 sf.2 c.initLevel).1 = (d', [.lock .z, c.subframeReport 0 sf])
      ∧ d'.AfterSubframe c b 0 := by
  obtain ⟨ch, hch, hat⟩ := EncCfg.subframeAt_of_no_rotation hk ht
  cases hsf.symm.trans hat
  have hz := preSelect_first c
  obtain ⟨a, ha⟩ := DecState.feed_subframe_of_empty_window .z c.initLevel hm hw (subframeBits_length ch (0 / c.nch))
  rw [bmcEncode_level _ _ (subframeBits_length _ _) (xorAll_subframeBits _ _), acquire_eq] at ha
  rw [hz, ha]
  have hend {e : DecState} (he : e.AtEnd c b 0 ch) := he.reported hb hbit hch
  rw [hz] at hend
  refine ⟨_, congrArg (_, _ :: ·) (hend ?atEnd).1, (hend ?atEnd).2⟩
  exact ⟨⟨h.fatalReason, h.nMissing, h.nMismatch, h.csRx, h.zero0⟩, rfl, hz.symm, rfl, rfl, rfl,
    (Nat.zero_mod _).symm, (Nat.zero_div _).symm⟩

/-- After subframe `q`, the rest of the stream is received and reported, subframe by subframe. -/
theorem DecState.AfterSubframe.feed_rest {d : DecState} {q : Nat} {sfs : List (Sym × BitSeq)}
    (h : d.AfterSubframe c b q) (hsfs : c.stream.drop (q + 1) = sfs) :
    ∃ d', d.feed (lineStream c.initLevel sfs) = (d', c.reportsFrom (q + 1) sfs)
      ∧ d'.AfterSubframe c b (q + sfs.length) := by
  induction sfs generalizing d q with
  | nil => exact ⟨d, rfl, h⟩
  | cons sf sfs ih =>
    obtain ⟨hq, hsf, hrest⟩ := EncCfg.stream_drop_eq_cons hsfs
    obtain ⟨d', hfeed, hafter⟩ := h.feed_next hb hbit hk hq hsf
    obtain ⟨d'', hfeed', hafter'⟩ := ih hafter hrest
    exact ⟨d'', DecState.feed_append_of_feed hfeed hfeed',
      by rwa [List.length_cons, Nat.add_comm sfs.length, ← Nat.add_assoc]⟩

/-- The whole stream, given to a decoder in `SEARCHING` with an empty window (R274). -/
theorem DecState.Recovered.feed_stream {d : DecState} (h : d.Recovered c b 0) (hm : d.mode = .searching)
    (hw : d.win = []) (ht : 0 < c.total) :
    ∃ d', d.feed (lineStream c.initLevel c.stream) = (d', .lock .z :: c.reportsFrom 0 c.stream)
      ∧ d'.Recovered c b c.total := by
  obtain ⟨sf, sfs, hsfs⟩ := List.exists_cons_of_length_pos (c.stream_length.symm ▸ ht)
  obtain ⟨-, hsf, hrest⟩ := EncCfg.stream_drop_eq_cons (q := 0) hsfs
  obtain ⟨d', hfeed, hafter⟩ := h.feed_first hb hbit hk hm hw ht hsf
  obtain ⟨d'', hfeed', hafter'⟩ := hafter.feed_rest hb hbit hk hrest
  refine ⟨d'', ?_, ?_⟩
  · rw [hsfs]
    exact DecState.feed_append_of_feed hfeed hfeed'
  · have hlength := c.stream_length
    rw [hsfs, List.length_cons, ← Nat.zero_add sfs.length] at hlength
    exact hlength ▸ hafter'.toRecovered

end

/-- Nothing is received yet by a decoder fresh or just reset. -/
theorem DecState.reset_recovered {c : EncCfg} {b : Nat} (halt : Bool) :
    ({ DecState.reset with haltOnMismatch := halt } : DecState).Recovered c b 0 :=
  ⟨rfl, rfl, rfl, fun _ _ _ _ _ h => absurd h (Nat.not_lt_zero _), Nat.zero_le _⟩

/-! ## The bytes of the stream -/

/-- The packets of subframes put exactly their half-cells on a decoder's line (R227, R264). -/
theorem unpack_packets (o : PackOrder) (L : Bool) {sfs : List (Sym × BitSeq)} (h : IsStream sfs) :
    (sfs.map fun sf => (encodedSubframe o L sf).1).flatten.flatMap (unpackByte o) = lineStream L sfs := by
  induction sfs with
  | nil => rfl
  | cons sf sfs ih =>
    obtain ⟨hsf, hsfs⟩ := List.forall_mem_cons.1 h
    rw [List.map_cons, List.flatten_cons, List.flatMap_append, ih hsfs, encodedSubframe,
      unpack_packHalfCells o (by simp [hsf.1])]
    rfl

/-- The first packed byte of a subframe holds its preamble (R225). -/
theorem packHalfCells_bmcEncode_head? (o : PackOrder) (sym : Sym) (bits : BitSeq) (L : Bool) :
    (packHalfCells o (bmcEncode sym bits L).1).head? = some (packByte o (pat sym L)) := by
  have htake : (bmcEncode sym bits L).1.take 8 = pat sym L := by rw [bmcEncode_eq, List.take_left' (pat_length _ _)]
  rw [← htake]
  rfl

/-- With no rotation, the first byte of the stream holds the preamble of a Z. -/
theorem EncCfg.packets_head? {c : EncCfg} (o : PackOrder) (hk : c.qs % c.total = 0) (ht : 0 < c.total) :
    (c.stream.map fun sf => (encodedSubframe o c.initLevel sf).1).flatten.head?
      = some (packByte o (pat .z c.initLevel)) := by
  obtain ⟨sf, sfs, hsfs⟩ := List.exists_cons_of_length_pos (c.stream_length.symm ▸ ht)
  obtain ⟨-, hsf, -⟩ := EncCfg.stream_drop_eq_cons (q := 0) hsfs
  obtain ⟨ch, -, hat⟩ := EncCfg.subframeAt_of_no_rotation hk ht
  cases hsf.symm.trans hat
  rw [hsfs, List.map_cons, List.flatten_cons, List.head?_append, encodedSubframe, packHalfCells_bmcEncode_head?,
    preSelect_first, Option.some_or]

/-- `ENC_RUN` on an engine that has sent nothing leaves in `OUT` the packets of the whole stream; no decoder is
written (R205). -/
theorem exec_encRun_fresh {s : State} {c : EncCfg} (hi : s.Inv) (hr : s.enc.status = .ready)
    (hc : s.enc.cfg = some c) (hp : s.enc.p = 0) :
    ∃ t, exec .encRun s = .next t ∧ sameButEnc s t
      ∧ t.enc.out.map Prod.snd
        = (c.stream.map fun sf => (encodedSubframe s.params.packOrder c.initLevel sf).1).flatten := by
  obtain ⟨hstatus, -, hcfg, hout⟩ := hi.enc
  obtain ⟨hlevel, -⟩ := hcfg c hc
  rw [EncState.outFits, hp] at hout
  refine ⟨_, exec_encRun s, ⟨rfl, rfl, rfl, rfl⟩, ?_⟩
  rw [EncState.run_ready hstatus hr hc, hlevel, hp, State.respond_enc, EncState.sent, hp,
    (Memory.keys_writeBytes_append _ hout).2, List.map_eq_nil_iff.1 hout]
  rfl

/-- While `READY` the stream is not empty. -/
theorem EncState.statusFits.total_pos {e : EncState} {c : EncCfg} (h : e.statusFits) (hr : e.status = .ready)
    (hc : e.cfg = some c) : 0 < c.total := by
  rw [EncState.statusFits, hr] at h
  obtain ⟨c', hc', -, hp⟩ := h
  cases hc.symm.trans hc'
  exact Nat.zero_lt_of_lt hp

/-- A channel-status block that is not all zero has a bit 1 (R276). -/
theorem exists_bit_of_ne_zero {cs : CsBlock} (h : cs ≠ 0) : ∃ b < 192, cs.getLsbD b = true := by
  by_contra hnone
  refine h (BitVec.eq_of_getLsbD_eq fun b hb => ?_)
  rw [BitVec.ofNat_eq_ofNat, BitVec.getLsbD_zero, ← Bool.not_eq_true]
  exact fun hbit => hnone ⟨b, hb, hbit⟩

/-- A configuration with a stream that is not empty has a channel 0. -/
theorem EncCfg.exists_channel_zero {c : EncCfg} (h : 0 < c.total) : ∃ ch, c.channels[0]? = some ch :=
  ⟨_, List.getElem?_eq_getElem (Nat.pos_of_mul_pos_left h)⟩

/-- A byte that holds the preamble pattern of a symbol makes a decoder in `SEARCHING` with an empty window lock
(R246, R264). -/
theorem exec_decFeedByte_locks {s : State} {n : Nat} (sym : Sym) (L : Bool) (hm : (s.dec n).mode = .searching)
    (hw : (s.dec n).win = []) :
    ∃ t, exec (.decFeedByte n (packByte s.params.packOrder (pat sym L))) s = .next t
      ∧ t.resp.events = [.lock sym] := by
  refine ⟨_, rfl, ?_⟩
  obtain ⟨-, ⟨hresp, -⟩, -⟩ := s.feedDec_spec n (pat sym L)
  rw [DecState.feed_pat_of_empty_window sym L hm hw, acquire_eq] at hresp
  rw [unpackByte_packByte _ (pat_length sym L), hresp]

/-- Settles O60: the bytes `ENC_RUN` leaves put the whole stream on the line (`unpack_packets`), which
`DecState.Recovered.feed_stream` receives; the first of them holds the Z of subframe 0. -/
theorem encoderStreamRoundTrip : Obligations.EncoderStreamRoundTrip := by
  intro s c n halt hi hr hc hp hk hdec hcs
  obtain ⟨t, ht, ⟨hparams, hdecs, -, -⟩, hbytes⟩ := exec_encRun_fresh hi hr hc hp
  have htdec : t.dec n = { DecState.reset with haltOnMismatch := halt } := by rw [State.dec, hdecs, ← State.dec, hdec]
  obtain ⟨hstatus, -⟩ := hi.enc
  have htotal : 0 < c.total := hstatus.total_pos hr hc
  obtain ⟨ch0, hch0⟩ := EncCfg.exists_channel_zero htotal
  obtain ⟨b, hb, hbit⟩ := exists_bit_of_ne_zero (hcs ch0 hch0)
  obtain ⟨d, hfeed, hrecovered⟩ := (DecState.reset_recovered halt).feed_stream hb
    (fun ch hch => by cases hch0.symm.trans hch; exact hbit) hk rfl rfl htotal
  have hline : (t.enc.out.map Prod.snd).flatMap (unpackByte t.params.packOrder) = lineStream c.initLevel c.stream := by
    rw [hbytes, hparams, unpack_packets _ _ c.stream_isStream]
  have hexec : exec (.decFeedBytes n (t.enc.out.map Prod.snd)) t
      = .next (t.feedDec n (lineStream c.initLevel c.stream)) := by
    rw [← hline]
    rfl
  obtain ⟨hudec, ⟨hresp, -⟩, -⟩ := t.feedDec_spec n (lineStream c.initLevel c.stream)
  rw [htdec, hfeed] at hudec hresp
  refine ⟨t, _, ht, hexec, ?firstByte, ?stream⟩
  case firstByte =>
    obtain ⟨v, hv, hlock⟩ := exec_decFeedByte_locks (s := t) (n := n) .z c.initLevel (by rw [htdec]; rfl)
      (by rw [htdec]; rfl)
    exact ⟨_, v, by rw [hbytes, ← hparams]; exact EncCfg.packets_head? _ hk htotal, hv, hlock⟩
  case stream =>
    rw [hudec, hresp]
    refine ⟨hrecovered.nMissing, hrecovered.nMismatch, hrecovered.fatalReason, rfl, ?length,
      fun q hq => EncCfg.reportsFrom_getElem? hk hq, fun i ch hch k hk' => hrecovered.csRx.all htotal hch hk'⟩
    case length => rw [List.length_cons, EncCfg.reportsFrom_length, c.stream_length]

end Sys2Proof.Machine

/-! # Exceptions (60_exceptions.md): what a step always answers, and the errors of one half-cell

Every step takes the oldest command and goes on (R306); a half-cell returns one event at most beside `DONE`, so one
error at most (R309). -/

namespace Sys2Proof.Machine

/-! ## Every step -/

/-- Settles O7: with no command issued nothing is taken; else the oldest is gone before it is performed (`exec_spec`)
or refused. -/
theorem everyStepAnswersNext : Obligations.EveryStepAnswersNext := by
  intro s
  cases hc : s.cmds with
  | nil => exact ⟨s, step_eq_self hc, hc⟩
  | cons c rest =>
    cases hd : decode c with
    | ok i =>
      obtain ⟨t, ht, hcmds, -⟩ := exec_spec i { s with cmds := rest }
      exact ⟨t, (step_eq_exec hc hd).trans ht, hcmds⟩
    | error why => exact ⟨_, step_eq_refuse hc hd, State.refuse_cmds _ _⟩

/-! ## The events of one half-cell -/

/-- The events are one at most, and `DONE` at most after it. -/
def OneThenDone (es : List Event) : Prop := ∃ e, es.Sublist [e, .done]

theorem oneThenDone_nil : OneThenDone [] := ⟨.done, List.nil_sublist _⟩

theorem oneThenDone_singleton (e : Event) : OneThenDone [e] := ⟨e, by simp⟩

/-- A report that `DONE` may follow, as the end of a subframe answers (R258). -/
theorem oneThenDone_report_done (c : Prop) [Decidable c] (r : Event) : OneThenDone (if c then [r, .done] else [r]) := by
  split
  · exact ⟨r, List.Sublist.refl _⟩
  · exact oneThenDone_singleton r

/-- At most one of such events is of a kind that `DONE` is not. -/
theorem OneThenDone.countP_le_one {es : List Event} (h : OneThenDone es) {p : Event → Bool} (hp : p .done = false) :
    es.countP p ≤ 1 := by
  obtain ⟨e, he⟩ := h
  calc es.countP p ≤ [e, .done].countP p := he.countP_le
    _ = [e].countP p := by simp [List.countP_cons, hp]
    _ ≤ 1 := List.countP_le_length

section
variable (d : DecState) (h : Bool)

theorem search_oneThenDone : OneThenDone (search d h).2 := by
  unfold search
  dsimp only
  split
  · exact oneThenDone_singleton _
  · exact oneThenDone_nil

theorem firstHalf_oneThenDone : OneThenDone (firstHalf d h).2 := by
  unfold firstHalf
  split
  · exact oneThenDone_singleton _
  · exact oneThenDone_nil

/-- The end of a subframe makes one report, whatever the parity; `DONE` may follow it (`endSubframe_eq`). -/
theorem endSubframe_oneThenDone : OneThenDone (endSubframe d).2 := by
  rw [endSubframe_eq]
  exact oneThenDone_report_done _ _

theorem secondHalf_oneThenDone : OneThenDone (secondHalf d h).2 := by
  unfold secondHalf
  dsimp only
  split
  · exact endSubframe_oneThenDone _
  · exact oneThenDone_nil

theorem preambleHalfCell_oneThenDone : OneThenDone (preambleHalfCell d h).2 := by
  unfold preambleHalfCell
  dsimp only
  split
  · split
    · exact oneThenDone_nil
    · exact oneThenDone_singleton _
  · exact oneThenDone_nil

/-- In every mode a half-cell returns one event at most, and `DONE` at most after it (R241). -/
theorem DecState.advance_oneThenDone : OneThenDone (d.advance h).2 := by
  cases hm : d.mode with
  | done =>
    rw [DecState.advance_terminal h (.inl hm)]
    exact oneThenDone_nil
  | fatal =>
    rw [DecState.advance_terminal h (.inr hm)]
    exact oneThenDone_nil
  | searching =>
    rw [DecState.advance_searching h hm]
    exact search_oneThenDone d h
  | lockedPreamble =>
    rw [DecState.advance_preamble h hm]
    exact preambleHalfCell_oneThenDone d h
  | lockedData =>
    cases hh : d.half with
    | false =>
      rw [DecState.advance_first h hm hh]
      exact firstHalf_oneThenDone d h
    | true =>
      rw [DecState.advance_second h hm hh]
      exact secondHalf_oneThenDone d h

end

/-- Settles O55: the events answered are those of the half-cell, `DecState.advance_oneThenDone`; `DONE` is no error. -/
theorem oneHalfCellRaisesAtMostOneError : Obligations.OneHalfCellRaisesAtMostOneError := by
  intro s n h
  obtain ⟨t, ht, -, ⟨hresp, -⟩, -⟩ := exec_decAdvance_spec s n h
  refine ⟨t, ht, ?_⟩
  rw [hresp]
  exact ((s.dec n).advance_oneThenDone h).countP_le_one rfl

end Sys2Proof.Machine

/-! # Reset and hazards (70_reset_and_hazards.md): reset values, the table of refusals, the mark of a refusal, and the
registers without a reset value

Which commands are refused, and that the mark of a refusal stays; which registers of a decoder and of the engine are
read before they are written; then the statements of this family. -/

namespace Sys2Proof.Machine

/-! ## Reset values -/

/-- Settles O15: nothing is listed at reset, so every decoder is in its reset state; `DEC_RESET` is a restart (O47). -/
theorem resetValues : Obligations.ResetValues := by
  refine ⟨rfl, rfl, rfl, rfl, rfl, rfl, fun n => ⟨DecState.reset.restart_hasResetValues, rfl⟩, fun s n => ?_⟩
  obtain ⟨t, ht, -, -, hreset⟩ := decResetKeepsOnlyHalt s n
  exact ⟨t, ht, hreset⟩

/-! ## Refused exactly by the table -/

section
variable {e : EncState} {P : Params}

theorem EncState.Inv.statusFits (h : e.Inv P) : e.statusFits := h.1

/-- The configuration held is in use: none is held unless `READY` or `FINISHED` (R31, R33). -/
theorem EncState.statusFits.inUse_eq_cfg (h : e.statusFits) : e.inUse = e.cfg := by
  unfold EncState.statusFits at h
  unfold EncState.inUse
  cases hs : e.status with
  | ready | finished => rfl
  | unconfigured | configError =>
    rw [hs] at h
    exact h.1.symm

/-- In every status but `UNCONFIGURED` and `CONFIG_ERROR` a configuration is in use (R33), and `ENC_STEP` completes
(R203). -/
theorem EncState.statusFits.completes (h : e.statusFits)
    (hn : ¬(e.status = .unconfigured ∨ e.status = .configError)) :
    (∃ c, e.inUse = some c) ∧ ∃ r, e.advance P = some r := by
  have hfits := h
  unfold EncState.statusFits at hfits
  cases hs : e.status with
  | unconfigured => exact absurd (.inl hs) hn
  | configError => exact absurd (.inr hs) hn
  | ready =>
    rw [hs] at hfits
    obtain ⟨c, hc, -⟩ := hfits
    obtain ⟨e', es, hadv, -⟩ := EncState.advance_remaining h hs
    exact ⟨⟨c, EncState.inUse_eq_some.2 ⟨.inl hs, hc⟩⟩, (e', es), hadv⟩
  | finished =>
    rw [hs] at hfits
    obtain ⟨c, hc, -⟩ := hfits
    exact ⟨⟨c, EncState.inUse_eq_some.2 ⟨.inr hs, hc⟩⟩, (e, []), EncState.advance_finished hs hc⟩

end

section
variable {i : Instr} {s : State}

/-- A command whose row of the table refuses it is refused (R333). -/
theorem exec_isRefusal (hi : s.Inv) (h : refusedWhen s i) : ∃ t why, exec i s = .next t ∧ isRefusal s t why := by
  cases i with
  | reserved => exact ⟨_, _, rfl, s.refuse_isRefusal _⟩
  | encConfigure c => exact ⟨_, _, exec_encConfigure_badShape (ne_true_of_eq_false h), s.refuse_isRefusal _⟩
  | encStep => exact ⟨_, _, exec_encStep_none (EncState.advance_eq_none h), s.refuse_isRefusal _⟩
  | sfAssemble j k =>
    obtain hn | ⟨c, hc, hrange⟩ := h
    · exact ⟨_, _, exec_sfAssemble_of_notConfigured hn, s.refuse_isRefusal _⟩
    · exact ⟨_, _, exec_sfAssemble_of_outOfRange (hi.enc.statusFits.inUse_eq_cfg.trans hc) (by omega),
        s.refuse_isRefusal _⟩
  | _ => exact False.elim h

/-- Every other command completes and leaves the mark as it was (R333). -/
theorem exec_keeps_mark (hi : s.Inv) (h : ¬refusedWhen s i) : ∃ t, exec i s = .next t ∧ t.refused = s.refused := by
  cases i with
  | reserved => exact absurd trivial h
  | encConfigure c =>
    have hw : c.wf = true := eq_true_of_ne_false h
    cases hc : acceptConfig s.params c with
    | ok cfg => exact ⟨_, exec_encConfigure_ok hw hc, rfl⟩
    | error x => exact ⟨_, exec_encConfigure_error hw hc, rfl⟩
  | encStep =>
    obtain ⟨-, r, hadv⟩ := hi.enc.statusFits.completes (P := s.params) h
    exact ⟨_, exec_encStep_some hadv, rfl⟩
  | sfAssemble j k =>
    obtain ⟨hn, hrange⟩ := not_or.1 h
    obtain ⟨⟨c, hu⟩, -⟩ := hi.enc.statusFits.completes (P := s.params) hn
    obtain ⟨hj, hk⟩ := not_not.1 fun hr => hrange ⟨c, hi.enc.statusFits.inUse_eq_cfg.symm.trans hu, hr⟩
    exact ⟨_, exec_sfAssemble_of_inRange hu hj (List.getElem?_eq_getElem hk), rfl⟩
  | csBuild r =>
    obtain ⟨t, ht, ⟨-, -, hrefused, -⟩, -⟩ := execCsBuild_spec r s
    exact ⟨t, ht, hrefused⟩
  | _ => exact ⟨_, rfl, rfl⟩

end

/-- Settles O8: the rows of the table one by one, refused (`exec_isRefusal`) and not (`exec_keeps_mark`). -/
theorem refusedExactlyByTheTable : Obligations.RefusedExactlyByTheTable :=
  fun _ _ hi => ⟨exec_isRefusal hi, exec_keeps_mark hi⟩

/-! ## The mark of a refusal -/

/-- No step takes the mark away: a refusal sets it, and a command never clears it. -/
theorem step_keeps_mark {s t : State} (h : step s = .next t) (hs : s.refused = true) : t.refused = true := by
  obtain ⟨-, rfl⟩ | ⟨c, rest, -, ⟨i, -, hi⟩ | ⟨why, -, rfl⟩⟩ := step_cases h
  · exact hs
  · obtain ⟨t', ht', -, -, hmark, -⟩ := exec_spec i { s with cmds := rest }
    cases hi.symm.trans ht'
    exact hmark hs
  · rfl

/-- A run of one step more goes on from the state that step answers. -/
theorem run_succ_of_step (k : Nat) {s u : State} (h : step s = .next u) : core.run (k + 1) s = core.run k u := by
  have hcore : core.step s = .next u := h
  simp only [Host.Core.run, hcore]

/-- Settles O10: by induction on the steps, each of which keeps the mark. -/
theorem refusalMarkIsKept : Obligations.RefusalMarkIsKept := by
  intro k
  induction k with
  | zero =>
    rintro s _ ⟨⟩ hs
    exact hs
  | succ k ih =>
    intro s t h hs
    obtain ⟨u, hu, -⟩ := everyStepAnswersNext s
    exact ih u t ((run_succ_of_step k hu).symm.trans h) (step_keeps_mark hu hs)

/-! ## The registers of a decoder that are read -/

/-- The decoder with each register that has no reset value blanked wherever it is written before a rule reads it: `prev`
and `sym` are read in a data part only, `a` between the halves of a cell, and `pl` at preamble position (R43, R44, R46,
R48). -/
def DecState.readable (d : DecState) : DecState :=
  { d with
    prev := decide (d.mode = .lockedData) && d.prev
    pl := decide (d.mode = .lockedPreamble) && d.pl
    a := decide (d.mode = .lockedData) && d.half && d.a
    sym := if d.mode = .lockedData then d.sym else .z }

/-- What HOST can see of a decoder's answer, now or after more half-cells. -/
def seen (r : DecState × List Event) : DecState × List Event := (r.1.readable, r.2)

/-- No register blanked is reported (R266). -/
theorem DecState.readable_report (d : DecState) : d.readable.report = d.report := rfl

section
variable {d : DecState} (h : Bool)

/-- The search reads the window only (R244, R246). -/
theorem search_seen (prev pl a : Bool) (sym : Sym) (hm : d.mode = .searching) :
    seen (search { d with prev := prev, pl := pl, a := a, sym := sym } h) = seen (search d h) := by
  unfold search
  dsimp only
  split
  · rw [acquire_eq, acquire_eq]
    rfl
  · simp [seen, DecState.readable, hm]

/-- The first half of a cell reads `prev`, and writes `a` (R250, R252). -/
theorem firstHalf_seen (pl a : Bool) (hm : d.mode = .lockedData) :
    seen (firstHalf { d with pl := pl, a := a } h) = seen (firstHalf d h) := by
  unfold firstHalf
  split
  · rfl
  · simp [seen, DecState.readable, hm]

/-- The end of a subframe writes `pl`, unless the run ends there (R256 to R258). -/
theorem endSubframe_seen (pl : Bool) : seen (endSubframe { d with pl := pl }) = seen (endSubframe d) := by
  rw [endSubframe_eq, endSubframe_eq]
  dsimp only
  generalize (xorAll (toSeq d.data) && d.haltOnMismatch) = halts
  generalize (if halts then d.zero0 else zeroRun d.zero0 d.ch (fieldsOf d.data).c) = zero0
  generalize (!halts && decide (192 ≤ zero0)) = quiet
  cases halts <;> cases quiet <;> rfl

/-- The second half of a cell reads `a`, and writes `prev` (R254). -/
theorem secondHalf_seen (pl : Bool) (hm : d.mode = .lockedData) :
    seen (secondHalf { d with pl := pl } h) = seen (secondHalf d h) := by
  unfold secondHalf
  dsimp only
  split
  · exact endSubframe_seen pl
      (d := { d with data := setBit d.data d.cell (h != d.a), prev := h, half := false, cell := d.cell + 1 })
  · simp [seen, DecState.readable, hm]

/-- A preamble is read by `pl`; `prev` and `sym` are written at its end (R260). -/
theorem preambleHalfCell_seen (prev a : Bool) (sym : Sym) (hm : d.mode = .lockedPreamble) :
    seen (preambleHalfCell { d with prev := prev, a := a, sym := sym } h) = seen (preambleHalfCell d h) := by
  unfold preambleHalfCell
  dsimp only
  split
  · split
    · rw [enterData_eq, enterData_eq]
      rfl
    · rfl
  · simp [seen, DecState.readable, hm]

/-- In every mode one half-cell reads no register blanked (R241). -/
theorem DecState.readable_advance : seen (d.readable.advance h) = seen (d.advance h) := by
  have hmode : d.readable.mode = d.mode := rfl
  have hhalf : d.readable.half = d.half := rfl
  cases hm : d.mode with
  | done =>
    rw [DecState.advance_terminal h (.inl (hmode.trans hm)), DecState.advance_terminal h (.inl hm)]
    simp [seen, DecState.readable, hm]
  | fatal =>
    rw [DecState.advance_terminal h (.inr (hmode.trans hm)), DecState.advance_terminal h (.inr hm)]
    simp [seen, DecState.readable, hm]
  | searching =>
    rw [DecState.advance_searching h (hmode.trans hm), DecState.advance_searching h hm]
    exact search_seen h _ _ _ _ hm
  | lockedPreamble =>
    have hd : d.readable = { d with prev := false, a := false, sym := .z } := by simp [DecState.readable, hm]
    rw [DecState.advance_preamble h (hmode.trans hm), DecState.advance_preamble h hm, hd]
    exact preambleHalfCell_seen h _ _ _ hm
  | lockedData =>
    cases hh : d.half with
    | false =>
      have hd : d.readable = { d with pl := false, a := false } := by simp [DecState.readable, hm, hh]
      rw [DecState.advance_first h (hmode.trans hm) (hhalf.trans hh), DecState.advance_first h hm hh, hd]
      exact firstHalf_seen h _ _ hm
    | true =>
      have hd : d.readable = { d with pl := false } := by simp [DecState.readable, hm, hh]
      rw [DecState.advance_second h (hmode.trans hm) (hhalf.trans hh), DecState.advance_second h hm hh, hd]
      exact secondHalf_seen h _ hm

end

/-- Two decoders that agree on every register read answer every input the same, and agree after it. -/
theorem DecState.feed_seen {d d' : DecState} (hd : d.readable = d'.readable) (hs : BitSeq) :
    seen (d.feed hs) = seen (d'.feed hs) := by
  induction hs generalizing d d' with
  | nil => exact congrArg (·, []) hd
  | cons h hs ih =>
    have hadv : seen (d.advance h) = seen (d'.advance h) := by
      rw [← d.readable_advance, hd, d'.readable_advance]
    obtain ⟨hnext, hevents⟩ := Prod.mk.inj hadv
    obtain ⟨hlast, hrest⟩ := Prod.mk.inj (ih hnext)
    simp only [DecState.feed_cons, seen, hevents, hlast, hrest]

/-! ## The level of an engine without a configuration -/

section
variable {s : State}

/-- `ENC_RUN` without a configuration repeats nothing (log 7). -/
theorem exec_encRun_of_notConfigured (h : notConfigured s) :
    exec .encRun s = .next (s.respond .enc .nothing []) := by
  have hr : s.enc.status ≠ .ready := by obtain h | h := h <;> simp [h]
  rw [exec_encRun, EncState.run_of_ne_ready _ hr]

theorem exec_csBuild_ok {r : CsRecord} {cs : CsBlock} (h : buildCs s.params r = .ok cs) :
    exec (.csBuild r) s = .next (s.respond .enc (.csBlock cs) []) := by
  simp only [exec, execCsBuild, h]

theorem exec_csBuild_error {r : CsRecord} {f : CsField} (h : buildCs s.params r = .error f) :
    exec (.csBuild r) s = .next ({ s with enc := s.enc.recordError (csError f) }.respond .enc
      (.configError (csError f)) [.configError (csError f)]) := by
  simp only [exec, execCsBuild, h]

end

/-- The block with another line level. -/
def State.withLevel (s : State) (level : Bool) : State := { s with enc := { s.enc with level := level } }

/-- Without a configuration the level is not read (R38): it stays as it is in the engine, which holds no
configuration still, or a configuration taken writes it. -/
theorem exec_withLevel {i : Instr} {s t : State} (level : Bool) (hs : notConfigured s) (h : exec i s = .next t) :
    exec i (s.withLevel level) = .next t
      ∨ notConfigured t ∧ exec i (s.withLevel level) = .next (t.withLevel level) := by
  cases i with
  | encConfigure c =>
    by_cases hw : c.wf = true
    · cases hc : acceptConfig s.params c with
      | ok cfg =>
        cases (exec_encConfigure_ok hw hc).symm.trans h
        exact .inl (exec_encConfigure_ok hw hc)
      | error x =>
        cases (exec_encConfigure_error hw hc).symm.trans h
        exact .inr ⟨.inr rfl, exec_encConfigure_error hw hc⟩
    · cases (exec_encConfigure_badShape hw).symm.trans h
      exact .inr ⟨hs, exec_encConfigure_badShape hw⟩
  | encStep =>
    cases (exec_encStep_none (EncState.advance_eq_none hs)).symm.trans h
    exact .inr ⟨hs, exec_encStep_none (EncState.advance_eq_none hs)⟩
  | sfAssemble j k =>
    cases (exec_sfAssemble_of_notConfigured hs).symm.trans h
    exact .inr ⟨hs, exec_sfAssemble_of_notConfigured hs⟩
  | encRun =>
    cases (exec_encRun_of_notConfigured hs).symm.trans h
    exact .inr ⟨hs, exec_encRun_of_notConfigured hs⟩
  | csBuild r =>
    cases hb : buildCs s.params r with
    | ok cs =>
      cases (exec_csBuild_ok hb).symm.trans h
      exact .inr ⟨hs, exec_csBuild_ok hb⟩
    | error f =>
      cases (exec_csBuild_error hb).symm.trans h
      exact .inr ⟨hs, exec_csBuild_error hb⟩
  | _ =>
    cases h
    exact .inr ⟨hs, rfl⟩

/-- Settles O16: while `SEARCHING` all four registers are blanked, so the two decoders agree on what is read
(`DecState.feed_seen`); the engine's level is not read without a configuration (`exec_withLevel`). -/
theorem unspecifiedResetValuesAreUnobservable : Obligations.UnspecifiedResetValuesAreUnobservable := by
  refine ⟨fun prev pl a halt sym hs => ?decoder, fun i s t u level hn ht hu => ?engine⟩
  case decoder =>
    intro reset d
    obtain ⟨hlast, hevents⟩ := Prod.mk.inj (DecState.feed_seen (d := d) (d' := reset) rfl hs)
    refine ⟨hevents, ?_⟩
    rw [← DecState.readable_report, hlast, DecState.readable_report]
  case engine =>
    obtain hsame | ⟨hn', hlevel⟩ := exec_withLevel level hn ht
    · cases hsame.symm.trans hu
      exact ⟨rfl, rfl, rfl, rfl, fun _ => rfl, fun _ => rfl⟩
    · cases hlevel.symm.trans hu
      refine ⟨rfl, rfl, rfl, rfl, fun _ => rfl, fun hst => ?_⟩
      obtain h | h := hn' <;> simp [h] at hst

end Sys2Proof.Machine
